-- ==== Sys2Proof/Word.lean ====
section
/-! DEFINITION. The data of the block: bytes, byte strings, the 32-bit bus word, the 18-bit offset and the
16-byte block (spec/00_scope.md R6, R7 and section 4). -/

namespace Sys2Proof

/-- A byte, 8 bits (00_scope.md section 4). -/
abbrev Byte := BitVec 8

/-- A byte string; index 0 is the first byte, the one at the lowest address (00_scope.md section 4). -/
abbrev Bytes := List Byte

/-- The 32-bit value of a bus transfer, a control register or a command word. -/
abbrev Word := BitVec 32

/-- A byte offset inside the register block (20_memory.md R60). -/
abbrev Offset := BitVec 18

/-- `Block16`, and `Key16` when used as a key: a byte string of length 16 (R6, R7). -/
abbrev Block := Vector Byte 16

end Sys2Proof
end

