-- ==== Sys2Proof/Config.lean ====
section
/-! DEFINITION. The named parameters of the model (spec/00_scope.md R8; the table "Open parameters" of
spec/92_eei_decisions.md). Each is a constant without a body, so that every theorem holds for every value the
spec admits. -/

namespace Sys2Proof

/-- A block primitive as the engine sees it: `BP.E` and `BP.D`, key first (40_block_primitive.md R110). The mode
functions take it as an argument, so that they can also be run under the spec's test primitive TOY. -/
structure Primitive where
  /-- `encrypt_block` under a key -/
  enc : Block → Block → Block
  /-- `decrypt_block` under a key -/
  dec : Block → Block → Block

/-- The two laws of 40_block_primitive.md R111. -/
def Primitive.Lawful (bp : Primitive) : Prop :=
  (∀ k x, bp.dec k (bp.enc k x) = x) ∧ (∀ k y, bp.enc k (bp.dec k y) = y)

/-- The external keyed permutation: for every key some permutation of the blocks, and nothing else is known of it
(40_block_primitive.md R111; log 7). -/
opaque Config.permutation : Block → Equiv.Perm Block

/-- The parameter `BP` (R8): `BP.E` is the permutation, `BP.D` its inverse. -/
def Config.bp : Primitive where
  enc k x := Config.permutation k x
  dec k y := (Config.permutation k).symm y

/-- Which of the 4093 admitted capacities the implementation has (log 8). -/
opaque Config.capacityIndex : Fin 4093

/-- The parameter `MAX_LEN`: any multiple of 16 from 32 to 65504 (R8). -/
def Config.maxLen : Nat := 16 * Config.capacityIndex.val + 32

/-- The parameter `RNG`: the answer of the n-th draw when the environment supplied none, `some b` for `Bytes(b)` and
`none` for `Fail` (48_iv_transport.md R236, R237; log 5). -/
opaque Config.rng : Nat → Option Block

/-- The parameter `BUF_INIT`: the byte that the buffer location at an offset holds after the n-th reset
(70_reset_and_hazards.md R285; log 6). -/
opaque Config.bufInit : Nat → Nat → Byte

/-- Everything outside the registers that the result of a command depends on: MAX_LEN, BP and the answer of the one
draw it may take (47_multiplexer.md R221). -/
structure Env where
  maxLen : Nat
  bp : Primitive
  rng : Option Block

/-- The block's own environment, with the answer that a draw would get. -/
def Config.env (answer : Option Block) : Env where
  maxLen := Config.maxLen
  bp := Config.bp
  rng := answer

/-- Where the platform places the block, in units of 0x40000 bytes (20_memory.md R61; log 9). -/
opaque Config.baseIndex : Nat

/-- The parameter `BASE`, a multiple of 0x40000 (20_memory.md R61). -/
def Config.base : Nat := 0x40000 * Config.baseIndex

end Sys2Proof
end

