-- ==== Sys2Proof/Machine/State.lean ====
section
/-! DEFINITION. The state of the block as plain data (spec/10_state.md R20 to R50), the events its environment can
cause, its reset state, and the reasons a step could stop. -/

namespace Sys2Proof.Machine

/-- The error kinds of 60_exceptions.md R251, codes 1 to 7. -/
inductive ErrCode where
  /-- KEY_LEN is not 16 (47_multiplexer.md R214) -/
  | invalidKey
  /-- ALG, MODE, IV length or missing IV (R212, R213, R215, R216) -/
  | invalidArgument
  /-- an ECB or CBC ciphertext is empty or no multiple of 16 (R218) -/
  | crypto
  /-- Unpad16 rejects (41_padding.md R122, R123) -/
  | paddingError
  /-- the input is too short to hold an IV (48_iv_transport.md R241) -/
  | fileError
  /-- the RNG draw failed (48_iv_transport.md R237) -/
  | entropyFailure
  /-- a reserved bit or opcode, or IN_LEN > MAX_LEN (R210, R211) -/
  | illegalCommand
  deriving DecidableEq, Repr

/-- The fields of STATUS but BUSY, which is the engine's phase (10_state.md R25 to R31, R45). -/
structure Status where
  /-- bit [1] (R27) -/
  done : Bool
  /-- bit [2] (R28) -/
  err : Bool
  /-- bit [3] (R29) -/
  ovr : Bool
  /-- bit [4] (R30) -/
  fatal : Bool
  /-- bits [11:8] (R31) -/
  errCode : BitVec 4
  deriving DecidableEq, Repr

/-- The snapshot `S` taken at acceptance, the "Cipher Instance" (10_state.md R40, 47_multiplexer.md R206). -/
structure Snapshot where
  key : Block
  keyLen : BitVec 8
  iv : Block
  ivLen : BitVec 8
  inLen : BitVec 16
  /-- `IN_BUF[0 .. min(IN_LEN, MAX_LEN))` -/
  data : Bytes
  deriving DecidableEq, Repr

/-- The engine's phase; while BUSY it holds the pending command word and its snapshot (10_state.md R45). -/
inductive Phase where
  | idle
  | busy (w : Word) (snap : Snapshot)
  deriving DecidableEq, Repr

/-- The engine's hidden datapath: the chaining register CHAIN (10_state.md R46), the position of the next chunk and
the pending output being built (R45). -/
structure Datapath where
  chain : Block
  /-- chunks are numbered from 1 (00_scope.md section 4); 0 when no transform runs (log 11) -/
  next : Nat
  out : Bytes
  deriving DecidableEq, Repr

/-- The datapath at rest: CHAIN is 16 x 0x00 at reset and after every completion (10_state.md R48). -/
def Datapath.rest : Datapath where
  chain := Vector.replicate 16 0
  next := 0
  out := []

/-- What the locations of a buffer hold that are not listed: the BUF_INIT draws of some reset, or 0x00 after the
engine cleared the buffer (10_state.md R50, 47_multiplexer.md R206). -/
inductive Background where
  /-- never written since the reset with this number: `Config.bufInit` (log 6) -/
  | uninit (epoch : Nat)
  | zero
  deriving DecidableEq, Repr

/-- A buffer: cells (offset, byte) over a background, in the canonical form `Memory.wf` (log 10). -/
structure Memory where
  background : Background
  cells : List Host.Cell
  deriving DecidableEq, Repr

/-- The width of a host access: 1, 2 or 4 bytes (20_memory.md R63). -/
inductive Width where
  | one
  | two
  | four
  deriving DecidableEq, Repr

/-- What can happen to the block from outside, and the engine's turn to move (20_memory.md R72, log 1). -/
inductive Event where
  /-- `MemWrite`: a host write of a width at an offset (R78) -/
  | write (n : Width) (a : Offset) (v : Word)
  /-- `MemRead`: a host read of a width at an offset (R78) -/
  | read (n : Width) (a : Offset)
  /-- the engine step, enabled while phase = BUSY (47_multiplexer.md R220) -/
  | engine
  /-- the `rst` input (70_reset_and_hazards.md R280) -/
  | reset
  deriving DecidableEq, Repr

/-- The block raises no trap and every access and command completes (60_exceptions.md R250), so no step can stop with
a fault: the type has no constructor (log 17). -/
inductive Fault where
  deriving DecidableEq, Repr

/-- Reasons for which there is no meaning. -/
inductive Refusal where
  /-- raised only by an arm of `exec` that has no meaning yet; no arm does (safe) -/
  | notModelled (mnemonic : String)
  deriving DecidableEq, Repr

/-- The whole block. CMD holds nothing (R24), PARAM and CAPS are constants (R38, R39), irq is a function of IE and
DONE (R49): none of them is a field. -/
structure State where
  /-- STATUS but BUSY (R25) -/
  status : Status
  /-- CTRL.IE (R32) -/
  ie : Bool
  /-- KEY_LEN[7:0] (R33) -/
  keyLen : BitVec 8
  /-- IV_LEN[7:0] (R34) -/
  ivLen : BitVec 8
  /-- IN_LEN[15:0] (R35) -/
  inLen : BitVec 16
  /-- OUT_LEN[16:0] (R36) -/
  outLen : BitVec 17
  /-- LAST_CMD (R37) -/
  lastCmd : Word
  /-- KEY[0..15] (R41) -/
  key : Block
  /-- IV[0..15] (R42) -/
  iv : Block
  /-- IN_BUF (R43) -/
  inBuf : Memory
  /-- OUT_BUF (R44) -/
  outBuf : Memory
  /-- the engine's phase, which STATUS.BUSY mirrors (R45) -/
  phase : Phase
  /-- CHAIN, the chunk position and the pending output (R45, R46) -/
  datapath : Datapath
  /-- the model's own: how many draws of RNG were taken (log 5) -/
  rngDraws : Nat
  /-- the model's own: the answers the entropy port gives to the next draws, the next one first (20_memory.md R76; log 5) -/
  entropy : List (Option Block)
  /-- the model's own: how many resets were taken (log 6) -/
  epoch : Nat
  /-- the model's own: the events still to come, the next one first (log 1) -/
  schedule : List Event
  /-- the model's own: what the last host read returned, the port `rdata` (20_memory.md R76, log 13) -/
  rdata : Word
  deriving DecidableEq, Repr

/-- STATUS at reset: every field 0 (R50). -/
def Status.reset : Status where
  done := false
  err := false
  ovr := false
  fatal := false
  errCode := 0

/-- The block right after power-on reset (R50, R280). -/
def State.reset : State where
  status := Status.reset
  ie := false
  keyLen := 0
  ivLen := 0
  inLen := 0
  outLen := 0
  lastCmd := 0
  key := Vector.replicate 16 0
  iv := Vector.replicate 16 0
  inBuf := { background := .uninit 0, cells := [] }
  outBuf := { background := .uninit 0, cells := [] }
  phase := .idle
  datapath := Datapath.rest
  rngDraws := 0
  entropy := []
  epoch := 0
  schedule := []
  rdata := 0

end Sys2Proof.Machine
end

