-- ==== Sys2Proof/Machine/Blocks.lean ====
section
/-! DEFINITION. Operations on byte strings and blocks: splitting into chunks, XOR, big-endian numbers
(spec/00_scope.md section 4, spec/40_block_primitive.md R115 to R117, spec/46_ctr.md R190), and one turn of the
engine's datapath. -/

namespace Sys2Proof.Machine

/-- The bytes of a block, index 0 first (20_memory.md R77). -/
def blockBytes (b : Block) : Bytes := b.toList

/-- The block of a chunk: the chunk itself when it has 16 bytes, else the chunk right-padded with zeros. This is
`FbNext` of 44_cfb.md R165. -/
def blockOf (c : Bytes) : Block := ⟨⟨(c ++ List.replicate 16 0).take 16⟩, by simp⟩

/-- Byte `i` of a block. -/
def blockGet (b : Block) (i : Nat) : Byte := (blockBytes b).getD i 0

/-- The block with byte `i` replaced. -/
def blockSet (b : Block) (i : Nat) (x : Byte) : Block := b.setIfInBounds i x

/-- `zeros(16)` (00_scope.md section 4). -/
def zeroBlock : Block := Vector.replicate 16 0

/-- `a XORt b`, the bytewise XOR that keeps only the lanes both strings have (R115). -/
def xorBytes (a b : Bytes) : Bytes := List.zipWith (fun x y => x ^^^ y) a b

/-- XOR of two blocks, lane by lane with no carry (R115). -/
def xorBlock (a b : Block) : Block := blockOf (xorBytes (blockBytes a) (blockBytes b))

/-- `chunks` with a bound on the number of pieces. -/
def chunksUpTo : Nat → Bytes → List Bytes
  | 0, _ => []
  | _ + 1, [] => []
  | n + 1, d :: ds => (d :: ds).take 16 :: chunksUpTo n ((d :: ds).drop 16)

/-- `chunks(d)`: consecutive pieces of 16 bytes, the last one shorter when 16 does not divide the length
(00_scope.md section 4, R116). -/
def chunks (d : Bytes) : List Bytes := chunksUpTo d.length d

/-- `be128`: byte 0 is the most significant (00_scope.md section 4, 46_ctr.md R190). -/
def be128 (b : Block) : Nat := (blockBytes b).foldl (fun n x => 256 * n + x.toNat) 0

/-- `to_be16`, the inverse of `be128` (00_scope.md section 4). -/
def toBe16 (n : Nat) : Block := blockOf ((List.range 16).map fun j => BitVec.ofNat 8 (n / 256 ^ (15 - j)))

/-- One chunk done: the new CHAIN, the next position, and the bytes put out (10_state.md R45, R46). -/
def Datapath.emit (d : Datapath) (chain : Block) (bytes : Bytes) : Datapath where
  chain := chain
  next := d.next + 1
  out := d.out ++ bytes

/-- The transform of a whole buffer: CHAIN is seeded, and chunks 1 to m are processed in order (R116, 47_multiplexer.md
R224). -/
def runChunks (turn : Datapath → Bytes → Datapath) (seed : Block) (xs : List Bytes) : Datapath :=
  xs.foldl turn { chain := seed, next := 1, out := [] }

end Sys2Proof.Machine
end

