-- ==== Sys2Proof/Machine/Flags.lean ====
section
/-! DEFINITION. STATUS, the block's only flag register, and the interrupt (spec/10_state.md R25 to R32,
spec/60_exceptions.md R251 to R259). -/

namespace Sys2Proof.Machine

/-- The 4-bit code of an error (60_exceptions.md R251). -/
def ErrCode.code : ErrCode → BitVec 4
  | .invalidKey => 1
  | .invalidArgument => 2
  | .crypto => 3
  | .paddingError => 4
  | .fileError => 5
  | .entropyFailure => 6
  | .illegalCommand => 7

/-- The phase is BUSY (10_state.md R45). -/
def Phase.isBusy : Phase → Bool
  | .idle => false
  | .busy _ _ => true

/-- STATUS.BUSY, the mirror of the phase (10_state.md R26, R45; log 20). -/
def State.busy (s : State) : Bool := s.phase.isBusy

/-- The flags at the acceptance of a command; OVR and FATAL keep their values (47_multiplexer.md R206). -/
def Status.accepted (f : Status) : Status := { f with done := false, err := false, errCode := 0 }

/-- The flags at a completion with `Ok` (47_multiplexer.md R219). -/
def Status.completedOk (f : Status) : Status := { f with done := true, err := false, errCode := 0 }

/-- The flags at a completion with `Err(e)`; FATAL is set by EntropyFailure and else keeps its value
(60_exceptions.md R253). -/
def Status.completedErr (f : Status) (e : ErrCode) : Status :=
  { f with done := true, err := true, errCode := e.code, fatal := f.fatal || e == .entropyFailure }

/-- The flags when a host write is dropped (20_memory.md R68). -/
def Status.dropped (f : Status) : Status := { f with ovr := true }

/-- `WriteStatus(v)`: bit 1 clears DONE, ERR and ERRCODE, bit 3 clears OVR (60_exceptions.md R258). -/
def Status.written (f : Status) (v : Word) : Status where
  done := if v.getLsbD 1 then false else f.done
  err := if v.getLsbD 1 then false else f.err
  ovr := if v.getLsbD 3 then false else f.ovr
  fatal := f.fatal
  errCode := if v.getLsbD 1 then 0 else f.errCode

/-- STATUS as a word, laid out as the table of 10_state.md R25. -/
def statusWord (busy : Bool) (f : Status) : Word :=
  BitVec.ofNat 32 (busy.toNat + 2 * f.done.toNat + 4 * f.err.toNat + 8 * f.ovr.toNat + 16 * f.fatal.toNat
    + 256 * f.errCode.toNat)

/-- The level interrupt output (10_state.md R49, 60_exceptions.md R257). -/
def State.irq (s : State) : Bool := s.ie && s.status.done

end Sys2Proof.Machine
end

