-- ==== Sys2Proof/Machine/Ops.lean ====
section
/-! DEFINITION. The named operations over the buffers and the registers: reading and writing memory, accepting a
command, completing it with a result or with an error, and reset (spec/47_multiplexer.md R206, R219,
spec/60_exceptions.md R253, spec/70_reset_and_hazards.md R280). -/

namespace Sys2Proof.Machine

/-! ### The cells of a buffer -/

/-- The byte listed at an offset. -/
def cellsGet : List Host.Cell → Nat → Option Byte
  | [], _ => none
  | (b, x) :: cs, a => if b = a then some x else cellsGet cs a

/-- The cells with `x` listed at `a`, in rising order. -/
def cellsPut (a : Nat) (x : Byte) : List Host.Cell → List Host.Cell
  | [] => [(a, x)]
  | (b, y) :: cs =>
    if a < b then (a, x) :: (b, y) :: cs
    else if a = b then (a, x) :: cs
    else (b, y) :: cellsPut a x cs

/-- The cells with nothing listed at `a`. -/
def cellsDrop (a : Nat) (cs : List Host.Cell) : List Host.Cell := cs.filter fun c => c.1 ≠ a

/-- What an offset that is not listed reads as: a BUF_INIT draw, or 0x00 once the engine cleared the buffer
(10_state.md R50, R43, R44; log 6, log 10). -/
def Memory.unlisted (m : Memory) (a : Nat) : Byte :=
  match m.background with
  | .uninit epoch => Config.bufInit epoch a
  | .zero => 0

/-- The byte at an offset. -/
def Memory.read (m : Memory) (a : Nat) : Byte := (cellsGet m.cells a).getD (m.unlisted a)

/-- The buffer with one byte written, in canonical form. -/
def Memory.write (m : Memory) (a : Nat) (x : Byte) : Memory :=
  { m with cells := if x = m.unlisted a then cellsDrop a m.cells else cellsPut a x m.cells }

/-- The bytes at `n` offsets from `a` on. -/
def Memory.readBytes (m : Memory) (a n : Nat) : Bytes := (List.range n).map fun i => m.read (a + i)

/-- The buffer with a byte string written from `a` on. -/
def Memory.writeBytes (m : Memory) (a : Nat) : Bytes → Memory
  | [] => m
  | x :: xs => (m.write a x).writeBytes (a + 1) xs

/-- Every byte 0x00 (47_multiplexer.md R206). -/
def Memory.zeroed : Memory where
  background := .zero
  cells := []

/-- Every byte a BUF_INIT draw (70_reset_and_hazards.md R280). -/
def Memory.drawn (epoch : Nat) : Memory where
  background := .uninit epoch
  cells := []

/-- The canonical form: offsets strictly rising, and no cell equal to what its offset reads as unlisted (log 10). -/
abbrev Memory.wf (m : Memory) : Prop :=
  m.cells.Pairwise (fun c d => c.1 < d.1) ∧ ∀ c ∈ m.cells, c.2 ≠ m.unlisted c.1

/-- Every listed offset lies in the window from `lo` up to `hi`. -/
abbrev Memory.within (m : Memory) (lo hi : Nat) : Prop := ∀ c ∈ m.cells, lo ≤ c.1 ∧ c.1 < hi

/-! ### The buffers -/

/-- The offset of IN_BUF[0] (10_state.md R43). -/
def inBase : Nat := 0x10000

/-- The offset of OUT_BUF[0] (10_state.md R44). -/
def outBase : Nat := 0x20000

/-- The capacity of OUT_BUF (10_state.md R44). -/
def outCapacity : Nat := Config.maxLen + 32

/-- `IN_BUF[i]` (10_state.md R43). -/
def State.inByte (s : State) (i : Nat) : Byte := s.inBuf.read (inBase + i)

/-- `OUT_BUF[i]`, the stored byte (10_state.md R44). -/
def State.outByte (s : State) (i : Nat) : Byte := s.outBuf.read (outBase + i)

/-! ### Acceptance -/

/-- The snapshot `S` of the live registers (47_multiplexer.md R206; 30_encoding.md R99). -/
def State.snapshot (s : State) : Snapshot where
  key := s.key
  keyLen := s.keyLen
  iv := s.iv
  ivLen := s.ivLen
  inLen := s.inLen
  data := s.inBuf.readBytes inBase (min s.inLen.toNat Config.maxLen)

/-- `Accept(w)` (47_multiplexer.md R206). -/
def State.accept (s : State) (w : Word) : State :=
  { s with
    status := s.status.accepted
    outLen := 0
    outBuf := Memory.zeroed
    lastCmd := w
    phase := .busy w s.snapshot }

/-! ### Completion -/

/-- `CompleteOk(out)` (47_multiplexer.md R219). -/
def State.completeOk (s : State) (out : Bytes) : State :=
  { s with
    outBuf := s.outBuf.writeBytes outBase out
    outLen := BitVec.ofNat 17 out.length
    datapath := Datapath.rest
    status := s.status.completedOk
    phase := .idle }

/-- `CompleteErr(code)`, how the block takes an error: nothing is saved and control goes nowhere (60_exceptions.md R253,
R260). -/
def State.completeErr (s : State) (e : ErrCode) : State :=
  { s with
    outBuf := Memory.zeroed
    outLen := 0
    datapath := Datapath.rest
    status := s.status.completedErr e
    phase := .idle }

/-- The completion of a command with its result (60_exceptions.md R250). -/
def State.complete (s : State) : Except ErrCode Bytes → State
  | .ok out => s.completeOk out
  | .error e => s.completeErr e

/-- The answer that `draw RNG` gets next: the one the entropy port has ready, else a free value (48_iv_transport.md R236;
log 5). -/
def State.rngAnswer (s : State) : Option Block := s.entropy.headD (Config.rng s.rngDraws)

/-- The draw is taken, or none is (48_iv_transport.md R236). -/
def State.takeDraw (s : State) (drawn : Bool) : State :=
  { s with rngDraws := s.rngDraws + drawn.toNat, entropy := s.entropy.drop drawn.toNat }

/-- What a command of this state runs in. -/
def State.env (s : State) : Env := Config.env s.rngAnswer

/-- The engine step (47_multiplexer.md R220): while BUSY the command's result is computed from its snapshot and the
command is completed; while IDLE the step is not enabled and nothing happens (log 3). `drawn` says whether the
command takes its draw. -/
def State.runCommand (s : State) (drawn : Env → Snapshot → Bool) (result : Env → Snapshot → Except ErrCode Bytes) :
    Host.Outcome State Fault Refusal :=
  match s.phase with
  | .idle => .next s
  | .busy _ snap =>
    .next ((s.takeDraw (drawn s.env snap)).complete (result s.env snap))

/-- A command that takes no draw. -/
def noDraw : Env → Snapshot → Bool := fun _ _ => false

/-! ### Reset -/

/-- The `rst` input, whatever the block was doing (70_reset_and_hazards.md R280, R281): the table of 10_state.md R50, with
fresh draws in the buffers. The model's own fields for the environment go on (log 19). -/
def State.hardReset (s : State) : State :=
  { State.reset with
    inBuf := Memory.drawn (s.epoch + 1)
    outBuf := Memory.drawn (s.epoch + 1)
    rngDraws := s.rngDraws
    entropy := s.entropy
    epoch := s.epoch + 1
    schedule := s.schedule
    rdata := s.rdata }

/-! ### The model's own fields, and a dropped write -/

/-- The state with other events still to come (log 1). -/
def State.withSchedule (s : State) (es : List Event) : State := { s with schedule := es }

/-- The port shows the value of the last host read (log 13). -/
def State.withRdata (s : State) (v : Word) : State := { s with rdata := v }

/-- A host write dropped while BUSY changes nothing but OVR (20_memory.md R68). -/
def State.dropWrite (s : State) : State := { s with status := s.status.dropped }

end Sys2Proof.Machine
end

