-- ==== Sys2Proof/Machine/Bus.lean ====
section
/-! DEFINITION. The host's bus: the register map, reads and writes (spec/10_state.md R23 to R44,
spec/20_memory.md R60 to R69, R76, R78). -/

namespace Sys2Proof.Machine

/-! ### The register map -/

/-- The control registers (10_state.md R23). -/
inductive Reg where
  | cmd
  | status
  | ctrl
  | keyLen
  | ivLen
  | inLen
  | outLen
  | lastCmd
  | param
  | caps
  deriving DecidableEq, Repr

/-- The offset of a control register (10_state.md R23). -/
def Reg.offset : Reg → Nat
  | .cmd => 0x00
  | .status => 0x04
  | .ctrl => 0x08
  | .keyLen => 0x0C
  | .ivLen => 0x10
  | .inLen => 0x14
  | .outLen => 0x18
  | .lastCmd => 0x1C
  | .param => 0x20
  | .caps => 0x24

/-- The control register at a word-aligned offset; 0x28 to 0x3F are reserved (10_state.md R23). -/
def regAt (a : Nat) : Option Reg :=
  if a = 0x00 then some .cmd
  else if a = 0x04 then some .status
  else if a = 0x08 then some .ctrl
  else if a = 0x0C then some .keyLen
  else if a = 0x10 then some .ivLen
  else if a = 0x14 then some .inLen
  else if a = 0x18 then some .outLen
  else if a = 0x1C then some .lastCmd
  else if a = 0x20 then some .param
  else if a = 0x24 then some .caps
  else none

/-- What an offset belongs to (10_state.md R23, R43, R44). -/
inductive Region where
  | control
  /-- `KEY[i]` -/
  | key (i : Nat)
  /-- `IV[i]` -/
  | iv (i : Nat)
  /-- `IN_BUF`, below MAX_LEN -/
  | inBuf
  /-- `OUT_BUF`, below MAX_LEN + 32 -/
  | outBuf
  | reserved
  deriving DecidableEq, Repr

/-- The address map (20_memory.md R61). -/
def regionOf (a : Nat) : Region :=
  if a < 0x40 then .control
  else if a < 0x50 then .key (a - 0x40)
  else if a < 0x60 then .iv (a - 0x50)
  else if inBase ≤ a ∧ a < inBase + Config.maxLen then .inBuf
  else if outBase ≤ a ∧ a < outBase + outCapacity then .outBuf
  else .reserved

/-! ### Widths, lanes and alignment -/

/-- The bytes of an access (20_memory.md R63). -/
def Width.bytes : Width → Nat
  | .one => 1
  | .two => 2
  | .four => 4

/-- The width of the port signal `size[1:0]`; 3 is treated as 4 bytes (20_memory.md R76, log 18). -/
def Width.ofPort (size : BitVec 2) : Width :=
  if size = 0 then .one else if size = 1 then .two else .four

/-- The offset an access acts on: rounded down to its natural alignment (20_memory.md R63). -/
def alignDown (n : Width) (a : Offset) : Nat := a.toNat - a.toNat % n.bytes

/-- Byte lane `k` of a transferred value, little-endian (20_memory.md R62). -/
def lane (v : Word) (k : Nat) : Byte := v.extractLsb' (8 * k) 8

/-- The value whose lanes are the bytes, zero-extended to 32 bits (20_memory.md R62, R78). -/
def ofLanes : Bytes → Word
  | [] => 0
  | x :: xs => (ofLanes xs <<< 8) ||| x.zeroExtend 32

/-! ### Reads -/

/-- CAPS: BLOCK_SIZE 16, PAD_REQ for ECB and CBC, IV_REQ for all but ECB (10_state.md R39). -/
def capsWord : Word := 0x001E0310

/-- PARAM: MAX_LEN in bits [15:0] (10_state.md R38). -/
def paramWord : Word := BitVec.ofNat 32 Config.maxLen

/-- What a control register reads as (10_state.md R24 to R39); OUT_LEN reads 0 while BUSY (20_memory.md R69). -/
def State.regValue (s : State) : Reg → Word
  | .cmd => 0
  | .status => statusWord s.busy s.status
  | .ctrl => (BitVec.ofBool s.ie).zeroExtend 32
  | .keyLen => s.keyLen.zeroExtend 32
  | .ivLen => s.ivLen.zeroExtend 32
  | .inLen => s.inLen.zeroExtend 32
  | .outLen => if s.busy then 0 else s.outLen.zeroExtend 32
  | .lastCmd => s.lastCmd
  | .param => paramWord
  | .caps => capsWord

/-- The value of the control word at a word-aligned offset; a reserved one reads 0 (20_memory.md R65). -/
def State.controlWord (s : State) (a : Nat) : Word :=
  match regAt a with
  | some r => s.regValue r
  | none => 0

/-- The byte a host read sees at an offset: KEY and reserved offsets read 0 (10_state.md R41, 20_memory.md R65), OUT_BUF
reads 0 while BUSY (R69). -/
def State.readByte (s : State) (a : Nat) : Byte :=
  match regionOf a with
  | .control => lane (s.controlWord (a - a % 4)) (a % 4)
  | .key _ => 0
  | .iv i => blockGet s.iv i
  | .inBuf => s.inBuf.read a
  | .outBuf => if s.busy then 0 else s.outBuf.read a
  | .reserved => 0

/-- `MemRead`: the value a host read returns; it changes nothing (20_memory.md R62 to R66, R69, R78). -/
def State.busRead (s : State) (n : Width) (a : Offset) : Word :=
  ofLanes ((List.range n.bytes).map fun k => s.readByte (alignDown n a + k))

/-! ### Writes -/

/-- A 32-bit write to a control register while IDLE. CMD is a command request and is taken by the sequencer; the
read-only registers ignore the write (10_state.md R24 to R39). -/
def State.writeReg (s : State) (r : Reg) (v : Word) : State :=
  match r with
  | .status => { s with status := s.status.written v }
  | .ctrl => { s with ie := v.getLsbD 0 }
  | .keyLen => { s with keyLen := v.extractLsb' 0 8 }
  | .ivLen => { s with ivLen := v.extractLsb' 0 8 }
  | .inLen => { s with inLen := v.extractLsb' 0 16 }
  | .cmd | .outLen | .lastCmd | .param | .caps => s

/-- A write to the control region: only 32 bits take effect, and reserved offsets ignore it (20_memory.md R64, R65). -/
def State.writeControl (s : State) (n : Width) (a : Nat) (v : Word) : State :=
  match n, regAt a with
  | .four, some r => s.writeReg r v
  | .four, none => s
  | .one, _ => s
  | .two, _ => s

/-- One byte written outside the control region: OUT_BUF and reserved offsets ignore it (10_state.md R41 to R44,
20_memory.md R65). -/
def State.writeByte (s : State) (a : Nat) (x : Byte) : State :=
  match regionOf a with
  | .control => s
  | .key i => { s with key := blockSet s.key i x }
  | .iv i => { s with iv := blockSet s.iv i x }
  | .inBuf => { s with inBuf := s.inBuf.write a x }
  | .outBuf => s
  | .reserved => s

/-- Bytes written from an offset on, each by its own rule (20_memory.md R65). -/
def State.writeLanes (s : State) (a : Nat) : Bytes → State
  | [] => s
  | x :: xs => (s.writeByte a x).writeLanes (a + 1) xs

/-- The lanes of a value that an access of a width transfers (20_memory.md R62). -/
def lanes (n : Width) (v : Word) : Bytes := (List.range n.bytes).map (lane v)

/-- `MemWrite` but for a command request: dropped with OVR while BUSY (20_memory.md R68), else stored (R62 to R66, R78). -/
def State.busWrite (s : State) (n : Width) (a : Offset) (v : Word) : State :=
  if s.busy then s.dropWrite
  else if alignDown n a < 0x40 then s.writeControl n (alignDown n a) v
  else s.writeLanes (alignDown n a) (lanes n v)

/-! ### The system bus -/

/-- The offset at which a system bus address reaches the block placed at BASE, if it does: the bits above bit 17 select
the block (20_memory.md R60, R61; log 9). -/
def slaveOffset (busAddr : Nat) : Option Offset :=
  if busAddr / 0x40000 = Config.baseIndex then some (BitVec.ofNat 18 busAddr) else none

/-- The event of `MemWrite(busAddr, n, v)` on the system bus, if it reaches the block (20_memory.md R78). -/
def Event.ofMemWrite (busAddr : Nat) (n : Width) (v : Word) : Option Event := (slaveOffset busAddr).map fun a => .write n a v

/-- The event of `MemRead(busAddr, n)` on the system bus, if it reaches the block (20_memory.md R78). -/
def Event.ofMemRead (busAddr : Nat) (n : Width) : Option Event := (slaveOffset busAddr).map fun a => .read n a

/-- The event of a transaction `(we, size, addr, wdata)` at the slave port (20_memory.md R76, 30_encoding.md R101). -/
def Event.ofPort (we : Bool) (size : BitVec 2) (addr : Offset) (wdata : Word) : Event :=
  if we then .write (Width.ofPort size) addr wdata else .read (Width.ofPort size) addr

end Sys2Proof.Machine
end

