-- ==== Sys2Proof/Syntax.lean ====
section
/-! DEFINITION. The command forms: one constructor per row of spec/opcode_table.json. -/

namespace Sys2Proof

/-- A command word as a term (30_encoding.md R91, R102). `alg` is the ALG field (`,alg=<n>` of R102), `xport` the XPORT
bit, `ivs` the IVS bit. PAD, UNPAD and NOP keep the bits they ignore, so that a term stands for exactly one word
(log 15). -/
inductive Instr where
  /-- ENC.ECB (42_ecb.md R143); XPORT and IVS are ignored (R142) -/
  | encEcb (alg : Nat) (xport ivs : Bool)
  /-- DEC.ECB (42_ecb.md R144); XPORT and IVS are ignored (R142) -/
  | decEcb (alg : Nat) (xport ivs : Bool)
  /-- ENC.CBC (43_cbc.md R154) -/
  | encCbc (alg : Nat) (xport ivs : Bool)
  /-- DEC.CBC (43_cbc.md R155) -/
  | decCbc (alg : Nat) (xport ivs : Bool)
  /-- ENC.CFB (44_cfb.md R169) -/
  | encCfb (alg : Nat) (xport ivs : Bool)
  /-- DEC.CFB (44_cfb.md R170) -/
  | decCfb (alg : Nat) (xport ivs : Bool)
  /-- ENC.OFB (45_ofb.md R182) -/
  | encOfb (alg : Nat) (xport ivs : Bool)
  /-- DEC.OFB (45_ofb.md R183) -/
  | decOfb (alg : Nat) (xport ivs : Bool)
  /-- ENC.CTR (46_ctr.md R193) -/
  | encCtr (alg : Nat) (xport ivs : Bool)
  /-- DEC.CTR (46_ctr.md R194) -/
  | decCtr (alg : Nat) (xport ivs : Bool)
  /-- PAD (41_padding.md R127); MODE, ALG, XPORT and IVS are ignored -/
  | pad (mode alg : Nat) (xport ivs : Bool)
  /-- UNPAD (41_padding.md R128); MODE, ALG, XPORT and IVS are ignored -/
  | unpad (mode alg : Nat) (xport ivs : Bool)
  /-- NOP (47_multiplexer.md R207); bits [31:4] are ignored and kept in `rest` -/
  | nop (rest : Nat)
  deriving DecidableEq, Repr

end Sys2Proof
end

