-- ==== Sys2Proof/WellFormed.lean ====
section
/-! DEFINITION. Which terms stand for a command word: every field fits its bits (spec/30_encoding.md R91). -/

namespace Sys2Proof

/-- ALG is two bits (30_encoding.md R91, R94). -/
def algFits (alg : Nat) : Bool := alg < 4

/-- MODE is three bits (30_encoding.md R91, R93). -/
def modeFits (mode : Nat) : Bool := mode < 8

/-- The ignored bits [31:4] of a NOP are 28 bits (30_encoding.md R98). -/
def restFits (rest : Nat) : Bool := rest < 2 ^ 28

/-- The term is the reading of some command word. -/
def Instr.wellFormed : Instr → Bool
  | .encEcb alg _ _ => algFits alg
  | .decEcb alg _ _ => algFits alg
  | .encCbc alg _ _ => algFits alg
  | .decCbc alg _ _ => algFits alg
  | .encCfb alg _ _ => algFits alg
  | .decCfb alg _ _ => algFits alg
  | .encOfb alg _ _ => algFits alg
  | .decOfb alg _ _ => algFits alg
  | .encCtr alg _ _ => algFits alg
  | .decCtr alg _ _ => algFits alg
  | .pad mode alg _ _ => modeFits mode && algFits alg
  | .unpad mode alg _ _ => modeFits mode && algFits alg
  | .nop rest => restFits rest

end Sys2Proof
end

