-- ==== Sys2Proof/Decode.lean ====
section
/-! DEFINITION. Decoding and encoding of the 32-bit command word (spec/30_encoding.md R90 to R98, R102). Decoding is
total: every word is one term or is rejected by name. -/

namespace Sys2Proof

/-- The field OPC, bits [3:0] (R91). -/
def fieldOpc (w : Word) : Nat := (w.extractLsb' 0 4).toNat

/-- The field MODE, bits [6:4] (R91). -/
def fieldMode (w : Word) : Nat := (w.extractLsb' 4 3).toNat

/-- The field ALG, bits [9:8] (R91). -/
def fieldAlg (w : Word) : Nat := (w.extractLsb' 8 2).toNat

/-- The bit XPORT, bit [10] (R91). -/
def fieldXport (w : Word) : Bool := w.getLsbD 10

/-- The bit IVS, bit [11] (R91). -/
def fieldIvs (w : Word) : Bool := w.getLsbD 11

/-- Bits [31:4], which a NOP ignores (R98). -/
def fieldRest (w : Word) : Nat := (w.extractLsb' 4 28).toNat

/-- A reserved bit, [7] or one of [31:12], is set (R97). -/
def reservedBitSet (w : Word) : Bool := w.getLsbD 7 || w.extractLsb' 12 20 != 0

/-- Why a word is no row of spec/opcode_table.json. The three cases are those of R98 and R100 with no row; each is
accepted by the block and completes with an error (`Sys2Proof.Machine.execRejected`). -/
inductive Reject where
  /-- OPC is not 0 and a reserved bit is set (R97): IllegalCommand -/
  | reservedBits
  /-- OPC is 5 to 15 (R92): IllegalCommand -/
  | reservedOpcode
  /-- ENC or DEC with MODE 5 to 7 (R93): InvalidArgument, unless IN_LEN > MAX_LEN -/
  | unsupportedMode
  deriving DecidableEq, Repr

/-- The ENC forms by MODE (R93). -/
def decodeEnc (mode alg : Nat) (xport ivs : Bool) : Except Reject Instr :=
  match mode with
  | 0 => .ok (.encEcb alg xport ivs)
  | 1 => .ok (.encCbc alg xport ivs)
  | 2 => .ok (.encCfb alg xport ivs)
  | 3 => .ok (.encOfb alg xport ivs)
  | 4 => .ok (.encCtr alg xport ivs)
  | _ => .error .unsupportedMode

/-- The DEC forms by MODE (R93). -/
def decodeDec (mode alg : Nat) (xport ivs : Bool) : Except Reject Instr :=
  match mode with
  | 0 => .ok (.decEcb alg xport ivs)
  | 1 => .ok (.decCbc alg xport ivs)
  | 2 => .ok (.decCfb alg xport ivs)
  | 3 => .ok (.decOfb alg xport ivs)
  | 4 => .ok (.decCtr alg xport ivs)
  | _ => .error .unsupportedMode

/-- `decode` of R98, check by check in its order. -/
def decode (w : Word) : Except Reject Instr :=
  if fieldOpc w = 0 then .ok (.nop (fieldRest w))
  else if reservedBitSet w then .error .reservedBits
  else
    match fieldOpc w with
    | 1 => decodeEnc (fieldMode w) (fieldAlg w) (fieldXport w) (fieldIvs w)
    | 2 => decodeDec (fieldMode w) (fieldAlg w) (fieldXport w) (fieldIvs w)
    | 3 => .ok (.pad (fieldMode w) (fieldAlg w) (fieldXport w) (fieldIvs w))
    | 4 => .ok (.unpad (fieldMode w) (fieldAlg w) (fieldXport w) (fieldIvs w))
    | _ => .error .reservedOpcode

/-- A command word laid out from its fields: `OPC | MODE << 4 | ALG << 8 | XPORT << 10 | IVS << 11` (R91, R102), each
field taken at its width. -/
def commandWord (opc mode alg : Nat) (xport ivs : Bool) : Word :=
  BitVec.ofNat 32 (opc % 16 + 16 * (mode % 8) + 256 * (alg % 4) + 1024 * xport.toNat + 2048 * ivs.toNat)

/-- The word of a command form (R92, R93, R102). -/
def encode : Instr → Word
  | .encEcb alg xport ivs => commandWord 1 0 alg xport ivs
  | .decEcb alg xport ivs => commandWord 2 0 alg xport ivs
  | .encCbc alg xport ivs => commandWord 1 1 alg xport ivs
  | .decCbc alg xport ivs => commandWord 2 1 alg xport ivs
  | .encCfb alg xport ivs => commandWord 1 2 alg xport ivs
  | .decCfb alg xport ivs => commandWord 2 2 alg xport ivs
  | .encOfb alg xport ivs => commandWord 1 3 alg xport ivs
  | .decOfb alg xport ivs => commandWord 2 3 alg xport ivs
  | .encCtr alg xport ivs => commandWord 1 4 alg xport ivs
  | .decCtr alg xport ivs => commandWord 2 4 alg xport ivs
  | .pad mode alg xport ivs => commandWord 3 mode alg xport ivs
  | .unpad mode alg xport ivs => commandWord 4 mode alg xport ivs
  | .nop rest => BitVec.ofNat 32 (16 * rest)

/-- The command word whose low `nbits` bits are those of `w` and whose other bits are 0. -/
def tableWord (nbits w : Nat) : Word := BitVec.ofNat 32 (w % 2 ^ nbits)

/-- What the decoder reads from a word given as opcode_table.json numbers its bits. A command word is one 32-bit
value (R90), so its bit numbers are the table's. -/
def decodeTableWord (nbits w : Nat) : Option Instr :=
  match decode (tableWord nbits w) with
  | .ok i => some i
  | .error _ => none

end Sys2Proof
end

