-- ==== Sys2Proof/Machine/Operands.lean ====
section
/-! DEFINITION. The operands of a command and the checks on them, in the order of spec/47_multiplexer.md R209, and the
IV transport unit (spec/48_iv_transport.md R235 to R242). -/

namespace Sys2Proof.Machine

/-- Encryption or decryption: OPC 1 or 2 (30_encoding.md R92). -/
inductive Dir where
  | enc
  | dec
  deriving DecidableEq, Repr

/-- The input must fit the buffer (47_multiplexer.md R211). -/
def checkLength (env : Env) (snap : Snapshot) : Except ErrCode Unit :=
  if env.maxLen < snap.inLen.toNat then .error .illegalCommand else .ok ()

/-- ALG must be on the allow-list (47_multiplexer.md R212). -/
def checkAlg (alg : Nat) : Except ErrCode Unit :=
  if alg ≠ 0 then .error .invalidArgument else .ok ()

/-- The key, whose length must be 16 (47_multiplexer.md R214). -/
def checkKey (snap : Snapshot) : Except ErrCode Block :=
  if snap.keyLen ≠ 16 then .error .invalidKey else .ok snap.key

/-- A supplied IV must have 16 bytes, and in raw mode an IV must be supplied (47_multiplexer.md R215, R216). -/
def checkIv (snap : Snapshot) (xport ivs : Bool) : Except ErrCode Unit :=
  if ivs = true ∧ snap.ivLen ≠ 16 then .error .invalidArgument
  else if xport = false ∧ ivs = false then .error .invalidArgument
  else .ok ()

/-- The checks of an ECB command: length, algorithm, key (47_multiplexer.md R209). -/
def construct (env : Env) (snap : Snapshot) (alg : Nat) : Except ErrCode Block := do
  checkLength env snap
  checkAlg alg
  checkKey snap

/-- The construction checks of a command of an IV mode (47_multiplexer.md R209). -/
def constructIv (env : Env) (snap : Snapshot) (alg : Nat) (xport ivs : Bool) : Except ErrCode Block := do
  let key ← construct env snap alg
  checkIv snap xport ivs
  return key

/-- What the transform of an IV mode works on: the IV, the body, and the header put before the output. -/
structure IvPlan where
  iv : Block
  body : Bytes
  header : Bytes
  deriving DecidableEq, Repr

/-- `TransportPrepare` (48_iv_transport.md R242); `rng` is the answer of the draw. -/
def transportPrepare (dir : Dir) (ivs : Bool) (snap : Snapshot) (rng : Option Block) : Except ErrCode IvPlan :=
  match dir, ivs with
  | .enc, true => .ok { iv := snap.iv, body := snap.data, header := blockBytes snap.iv }
  | .enc, false =>
    match rng with
    | none => .error .entropyFailure
    | some iv => .ok { iv := iv, body := snap.data, header := blockBytes iv }
  | .dec, true => .ok { iv := snap.iv, body := snap.data, header := [] }
  | .dec, false =>
    if snap.data.length < 16 then .error .fileError
    else .ok { iv := blockOf (snap.data.take 16), body := snap.data.drop 16, header := [] }

/-- The IV, body and header of a command of an IV mode: raw mode takes the IV register and the whole input
(47_multiplexer.md R209, 30_encoding.md R95). -/
def prepareIv (dir : Dir) (xport ivs : Bool) (snap : Snapshot) (rng : Option Block) : Except ErrCode IvPlan :=
  if xport then transportPrepare dir ivs snap rng
  else .ok { iv := snap.iv, body := snap.data, header := [] }

/-- An encryption of an IV mode draws exactly when every construction check passed, in transport mode with no IV
supplied (48_iv_transport.md R236). -/
def drawsIv (alg : Nat) (xport ivs : Bool) (env : Env) (snap : Snapshot) : Bool :=
  xport && !ivs && (constructIv env snap alg xport ivs).isOk

/-- The result of an encryption of an IV mode (47_multiplexer.md R209). -/
def encIvResult (transform : Primitive → Block → Block → Bytes → Bytes) (alg : Nat) (xport ivs : Bool) (env : Env)
    (snap : Snapshot) : Except ErrCode Bytes := do
  let key ← constructIv env snap alg xport ivs
  let plan ← prepareIv .enc xport ivs snap env.rng
  return plan.header ++ transform env.bp key plan.iv plan.body

/-- The result of a decryption of an IV mode (47_multiplexer.md R209). -/
def decIvResult (transform : Primitive → Block → Block → Bytes → Except ErrCode Bytes) (alg : Nat) (xport ivs : Bool)
    (env : Env) (snap : Snapshot) : Except ErrCode Bytes := do
  let key ← constructIv env snap alg xport ivs
  let plan ← prepareIv .dec xport ivs snap env.rng
  transform env.bp key plan.iv plan.body

/-- `RequireBlocks` (47_multiplexer.md R218). -/
def requireBlocks (c : Bytes) : Except ErrCode Unit :=
  if c.length = 0 ∨ c.length % 16 ≠ 0 then .error .crypto else .ok ()

end Sys2Proof.Machine
end

