-- ==== Sys2Proof/Machine/Padding.lean ====
section
/-! DEFINITION. The padding unit and its commands PAD and UNPAD (spec/41_padding.md). -/

namespace Sys2Proof.Machine

/-- The number of padding bytes for an input length: 1 to 16, never 0 (R120, R121). -/
def padCount (len : Nat) : Nat := 16 - len % 16

/-- `Pad16` (R120). -/
def pad16 (d : Bytes) : Bytes := d ++ List.replicate (padCount d.length) (BitVec.ofNat 8 (padCount d.length))

/-- The OR of all differences between the bytes of a string and `x`, with no early exit (R122, R124). -/
def mismatch (x : Byte) (tail : Bytes) : Byte := tail.foldl (fun diff y => diff ||| (y ^^^ x)) 0

/-- `Unpad16` (R122); the empty string is rejected (R123). -/
def unpad16 (q : Bytes) : Except ErrCode Bytes :=
  match q.getLast? with
  | none => .error .paddingError
  | some x =>
    if x.toNat = 0 ∨ 16 < x.toNat ∨ q.length < x.toNat then .error .paddingError
    else if mismatch x (q.drop (q.length - x.toNat)) ≠ 0 then .error .paddingError
    else .ok (q.take (q.length - x.toNat))

/-- The result of PAD (R127): only the length is checked. -/
def padResult (env : Env) (snap : Snapshot) : Except ErrCode Bytes := do
  checkLength env snap
  return pad16 snap.data

/-- The result of UNPAD (R128): only the length is checked before `Unpad16`. -/
def unpadResult (env : Env) (snap : Snapshot) : Except ErrCode Bytes := do
  checkLength env snap
  unpad16 snap.data

/-- PAD (R127); MODE, ALG, XPORT and IVS are ignored. -/
def execPad (_mode _alg : Nat) (_xport _ivs : Bool) (s : State) : Host.Outcome State Fault Refusal :=
  s.runCommand noDraw padResult

/-- UNPAD (R128); MODE, ALG, XPORT and IVS are ignored. -/
def execUnpad (_mode _alg : Nat) (_xport _ivs : Bool) (s : State) : Host.Outcome State Fault Refusal :=
  s.runCommand noDraw unpadResult

end Sys2Proof.Machine
end

