-- ==== Sys2Proof/Machine/Cbc.lean ====
section
/-! DEFINITION. CBC mode: CHAIN holds `previous_block` (spec/43_cbc.md). -/

namespace Sys2Proof.Machine

/-- One block of a CBC encryption: the output is the new CHAIN (R151, R153). -/
def cbcEncTurn (bp : Primitive) (key : Block) (d : Datapath) (q : Bytes) : Datapath :=
  let c := bp.enc key (xorBlock (blockOf q) d.chain)
  d.emit c (blockBytes c)

/-- One block of a CBC decryption: the raw input is the new CHAIN (R152, R153). -/
def cbcDecTurn (bp : Primitive) (key : Block) (d : Datapath) (c : Bytes) : Datapath :=
  d.emit (blockOf c) (blockBytes (xorBlock (bp.dec key (blockOf c)) d.chain))

/-- `CBC_Enc` (R151). -/
def cbcEnc (bp : Primitive) (key iv : Block) (p : Bytes) : Bytes :=
  (runChunks (cbcEncTurn bp key) iv (chunks (pad16 p))).out

/-- `CBC_Dec` (R152). -/
def cbcDec (bp : Primitive) (key iv : Block) (c : Bytes) : Except ErrCode Bytes := do
  requireBlocks c
  unpad16 (runChunks (cbcDecTurn bp key) iv (chunks c)).out

/-- ENC.CBC (R154). -/
def execEncCbc (alg : Nat) (xport ivs : Bool) (s : State) : Host.Outcome State Fault Refusal :=
  s.runCommand (drawsIv alg xport ivs) (encIvResult cbcEnc alg xport ivs)

/-- DEC.CBC (R155). -/
def execDecCbc (alg : Nat) (xport ivs : Bool) (s : State) : Host.Outcome State Fault Refusal :=
  s.runCommand noDraw (decIvResult cbcDec alg xport ivs)

end Sys2Proof.Machine
end

