-- ==== Sys2Proof/Machine/Cfb.lean ====
section
/-! DEFINITION. CFB mode: CHAIN holds `feedback`, the whole previous ciphertext chunk (spec/44_cfb.md). -/

namespace Sys2Proof.Machine

/-- One chunk of a CFB encryption: the feedback is the output chunk (R165, R166). -/
def cfbEncTurn (bp : Primitive) (key : Block) (d : Datapath) (p : Bytes) : Datapath :=
  let c := xorBytes p (blockBytes (bp.enc key d.chain))
  d.emit (blockOf c) c

/-- One chunk of a CFB decryption: the feedback is the input chunk, and the primitive encrypts (R167). -/
def cfbDecTurn (bp : Primitive) (key : Block) (d : Datapath) (c : Bytes) : Datapath :=
  d.emit (blockOf c) (xorBytes c (blockBytes (bp.enc key d.chain)))

/-- `CFB_Enc` (R166). -/
def cfbEnc (bp : Primitive) (key iv : Block) (p : Bytes) : Bytes :=
  (runChunks (cfbEncTurn bp key) iv (chunks p)).out

/-- `CFB_Dec` (R167). -/
def cfbDec (bp : Primitive) (key iv : Block) (c : Bytes) : Bytes :=
  (runChunks (cfbDecTurn bp key) iv (chunks c)).out

/-- ENC.CFB (R169). -/
def execEncCfb (alg : Nat) (xport ivs : Bool) (s : State) : Host.Outcome State Fault Refusal :=
  s.runCommand (drawsIv alg xport ivs) (encIvResult cfbEnc alg xport ivs)

/-- DEC.CFB (R170). -/
def execDecCfb (alg : Nat) (xport ivs : Bool) (s : State) : Host.Outcome State Fault Refusal :=
  s.runCommand noDraw (decIvResult (fun bp key iv c => .ok (cfbDec bp key iv c)) alg xport ivs)

end Sys2Proof.Machine
end

