-- ==== Sys2Proof/Machine/Ctr.lean ====
section
/-! DEFINITION. CTR mode: CHAIN holds the 128-bit `counter`, big-endian (spec/46_ctr.md). -/

namespace Sys2Proof.Machine

/-- The next counter block, modulo 2^128 (R191). -/
def nextCounter (b : Block) : Block := toBe16 ((be128 b + 1) % 2 ^ 128)

/-- One chunk: the counter block is encrypted and XORed on the chunk, then incremented (R192). -/
def ctrTurn (bp : Primitive) (key : Block) (d : Datapath) (x : Bytes) : Datapath :=
  d.emit (nextCounter d.chain) (xorBytes x (blockBytes (bp.enc key d.chain)))

/-- `CTR`, one function for both directions (R192, R195). -/
def ctr (bp : Primitive) (key iv : Block) (x : Bytes) : Bytes :=
  (runChunks (ctrTurn bp key) iv (chunks x)).out

/-- ENC.CTR (R193). -/
def execEncCtr (alg : Nat) (xport ivs : Bool) (s : State) : Host.Outcome State Fault Refusal :=
  s.runCommand (drawsIv alg xport ivs) (encIvResult ctr alg xport ivs)

/-- DEC.CTR (R194). -/
def execDecCtr (alg : Nat) (xport ivs : Bool) (s : State) : Host.Outcome State Fault Refusal :=
  s.runCommand noDraw (decIvResult (fun bp key iv c => .ok (ctr bp key iv c)) alg xport ivs)

end Sys2Proof.Machine
end

