-- ==== Sys2Proof/Machine/Ecb.lean ====
section
/-! DEFINITION. ECB mode (spec/42_ecb.md): no chaining, no IV. -/

namespace Sys2Proof.Machine

/-- One block of an ECB encryption; CHAIN is not used (R140, 10_state.md R46). -/
def ecbEncTurn (bp : Primitive) (key : Block) (d : Datapath) (q : Bytes) : Datapath :=
  d.emit d.chain (blockBytes (bp.enc key (blockOf q)))

/-- One block of an ECB decryption (R141). -/
def ecbDecTurn (bp : Primitive) (key : Block) (d : Datapath) (c : Bytes) : Datapath :=
  d.emit d.chain (blockBytes (bp.dec key (blockOf c)))

/-- `ECB_Enc` (R140). -/
def ecbEnc (bp : Primitive) (key : Block) (p : Bytes) : Bytes :=
  (runChunks (ecbEncTurn bp key) zeroBlock (chunks (pad16 p))).out

/-- `ECB_Dec` (R141). -/
def ecbDec (bp : Primitive) (key : Block) (c : Bytes) : Except ErrCode Bytes := do
  requireBlocks c
  unpad16 (runChunks (ecbDecTurn bp key) zeroBlock (chunks c)).out

/-- The result of ENC.ECB (R143). -/
def encEcbResult (alg : Nat) (env : Env) (snap : Snapshot) : Except ErrCode Bytes := do
  let key ← construct env snap alg
  return ecbEnc env.bp key snap.data

/-- The result of DEC.ECB (R144). -/
def decEcbResult (alg : Nat) (env : Env) (snap : Snapshot) : Except ErrCode Bytes := do
  let key ← construct env snap alg
  ecbDec env.bp key snap.data

/-- ENC.ECB (R143); XPORT and IVS are ignored (R142). -/
def execEncEcb (alg : Nat) (_xport _ivs : Bool) (s : State) : Host.Outcome State Fault Refusal :=
  s.runCommand noDraw (encEcbResult alg)

/-- DEC.ECB (R144); XPORT and IVS are ignored (R142). -/
def execDecEcb (alg : Nat) (_xport _ivs : Bool) (s : State) : Host.Outcome State Fault Refusal :=
  s.runCommand noDraw (decEcbResult alg)

end Sys2Proof.Machine
end

