-- ==== Sys2Proof/Machine/Ofb.lean ====
section
/-! DEFINITION. OFB mode: CHAIN holds `keystream`, which never sees the data (spec/45_ofb.md). -/

namespace Sys2Proof.Machine

/-- One chunk: CHAIN is re-encrypted first, then XORed on the chunk (R180, R181). -/
def ofbTurn (bp : Primitive) (key : Block) (d : Datapath) (x : Bytes) : Datapath :=
  let ks := bp.enc key d.chain
  d.emit ks (xorBytes x (blockBytes ks))

/-- `OFB`, one function for both directions (R181, R184). -/
def ofb (bp : Primitive) (key iv : Block) (x : Bytes) : Bytes :=
  (runChunks (ofbTurn bp key) iv (chunks x)).out

/-- ENC.OFB (R182). -/
def execEncOfb (alg : Nat) (xport ivs : Bool) (s : State) : Host.Outcome State Fault Refusal :=
  s.runCommand (drawsIv alg xport ivs) (encIvResult ofb alg xport ivs)

/-- DEC.OFB (R183). -/
def execDecOfb (alg : Nat) (xport ivs : Bool) (s : State) : Host.Outcome State Fault Refusal :=
  s.runCommand noDraw (decIvResult (fun bp key iv c => .ok (ofb bp key iv c)) alg xport ivs)

end Sys2Proof.Machine
end

