-- ==== Sys2Proof/Machine/Multiplexer.lean ====
section
/-! DEFINITION. The cipher-mode multiplexer (spec/47_multiplexer.md): NOP, the words that are no row of the opcode table,
the capability interface of the modes, and the function `Exec` of R209 written as the spec writes it. -/

namespace Sys2Proof.Machine

/-- NOP changes no state (R207). -/
def execNop (_rest : Nat) (s : State) : Host.Outcome State Fault Refusal := .next s

/-- The result of an accepted word that is no row of the opcode table: IllegalCommand for a reserved bit or opcode
(R210); for an unsupported mode the length is checked first, then InvalidArgument, whatever ALG is (R211 to R213). -/
def rejectedResult (r : Reject) (env : Env) (snap : Snapshot) : Except ErrCode Bytes :=
  match r with
  | .reservedBits => .error .illegalCommand
  | .reservedOpcode => .error .illegalCommand
  | .unsupportedMode => do
    checkLength env snap
    .error .invalidArgument

/-- The engine step of an accepted word that is no row of the opcode table (30_encoding.md R100, log 14). -/
def execRejected (r : Reject) (s : State) : Host.Outcome State Fault Refusal :=
  s.runCommand noDraw (rejectedResult r)

/-! ### The modes and their capabilities -/

/-- The five modes (30_encoding.md R93). -/
inductive Mode where
  | ecb
  | cbc
  | cfb
  | ofb
  | ctr
  deriving DecidableEq, Repr

/-- The MODE code (30_encoding.md R93). -/
def Mode.code : Mode → Nat
  | .ecb => 0
  | .cbc => 1
  | .cfb => 2
  | .ofb => 3
  | .ctr => 4

/-- `requires_padding()` (41_padding.md R125, R222). -/
def Mode.requiresPadding : Mode → Bool
  | .ecb => true
  | .cbc => true
  | .cfb => false
  | .ofb => false
  | .ctr => false

/-- The mode takes an IV (10_state.md R39). -/
def Mode.needsIv : Mode → Bool
  | .ecb => false
  | .cbc => true
  | .cfb => true
  | .ofb => true
  | .ctr => true

/-- `ModeEnc` (R217). ECB is dispatched before it in `Exec` and stands here for totality. -/
def modeEnc (m : Mode) (bp : Primitive) (key iv : Block) (p : Bytes) : Bytes :=
  match m with
  | .ecb => ecbEnc bp key p
  | .cbc => cbcEnc bp key iv p
  | .cfb => cfbEnc bp key iv p
  | .ofb => ofb bp key iv p
  | .ctr => ctr bp key iv p

/-- `ModeDec` (R217). -/
def modeDec (m : Mode) (bp : Primitive) (key iv : Block) (c : Bytes) : Except ErrCode Bytes :=
  match m with
  | .ecb => ecbDec bp key c
  | .cbc => cbcDec bp key iv c
  | .cfb => .ok (cfbDec bp key iv c)
  | .ofb => .ok (ofb bp key iv c)
  | .ctr => .ok (ctr bp key iv c)

/-- The mode of a MODE field, if it is one (30_encoding.md R93). -/
def modeOf (mode : Nat) : Option Mode :=
  match mode with
  | 0 => some .ecb
  | 1 => some .cbc
  | 2 => some .cfb
  | 3 => some .ofb
  | 4 => some .ctr
  | _ => none

/-- `Exec(w, S, rng)` read off the command word field by field, in the order of R209. The step does not call it: it is
the reference that the meanings of the single command forms are held against. -/
def muxExec (env : Env) (w : Word) (snap : Snapshot) : Except ErrCode Bytes :=
  if reservedBitSet w = true ∨ 5 ≤ fieldOpc w then .error .illegalCommand
  else if env.maxLen < snap.inLen.toNat then .error .illegalCommand
  else if fieldOpc w = 3 then .ok (pad16 snap.data)
  else if fieldOpc w = 4 then unpad16 snap.data
  else if fieldAlg w ≠ 0 then .error .invalidArgument
  else
    match modeOf (fieldMode w) with
    | none => .error .invalidArgument
    | some m =>
      if snap.keyLen ≠ 16 then .error .invalidKey
      else if m = .ecb then
        if fieldOpc w = 1 then .ok (ecbEnc env.bp snap.key snap.data) else ecbDec env.bp snap.key snap.data
      else if fieldIvs w = true ∧ snap.ivLen ≠ 16 then .error .invalidArgument
      else if fieldXport w = false ∧ fieldIvs w = false then .error .invalidArgument
      else if fieldOpc w = 1 then
        match prepareIv .enc (fieldXport w) (fieldIvs w) snap env.rng with
        | .error e => .error e
        | .ok plan => .ok (plan.header ++ modeEnc m env.bp snap.key plan.iv plan.body)
      else
        match prepareIv .dec (fieldXport w) (fieldIvs w) snap env.rng with
        | .error e => .error e
        | .ok plan => modeDec m env.bp snap.key plan.iv plan.body

end Sys2Proof.Machine
end

