-- ==== Sys2Proof/Machine/Dispatch.lean ====
section
/-! DEFINITION. The meaning of each command form: what the engine step does with an accepted command
(spec/47_multiplexer.md R220; log 3). -/

namespace Sys2Proof.Machine

def exec (i : Instr) (s : State) : Host.Outcome State Fault Refusal :=
  match i with
  | .encEcb alg xport ivs => Sys2Proof.Machine.execEncEcb alg xport ivs s
  | .decEcb alg xport ivs => Sys2Proof.Machine.execDecEcb alg xport ivs s
  | .encCbc alg xport ivs => Sys2Proof.Machine.execEncCbc alg xport ivs s
  | .decCbc alg xport ivs => Sys2Proof.Machine.execDecCbc alg xport ivs s
  | .encCfb alg xport ivs => Sys2Proof.Machine.execEncCfb alg xport ivs s
  | .decCfb alg xport ivs => Sys2Proof.Machine.execDecCfb alg xport ivs s
  | .encOfb alg xport ivs => Sys2Proof.Machine.execEncOfb alg xport ivs s
  | .decOfb alg xport ivs => Sys2Proof.Machine.execDecOfb alg xport ivs s
  | .encCtr alg xport ivs => Sys2Proof.Machine.execEncCtr alg xport ivs s
  | .decCtr alg xport ivs => Sys2Proof.Machine.execDecCtr alg xport ivs s
  | .pad mode alg xport ivs => Sys2Proof.Machine.execPad mode alg xport ivs s
  | .unpad mode alg xport ivs => Sys2Proof.Machine.execUnpad mode alg xport ivs s
  | .nop rest => Sys2Proof.Machine.execNop rest s

end Sys2Proof.Machine
end

