-- ==== Sys2Proof/Machine/Sequencer.lean ====
section
/-! DEFINITION. The command sequencer: command requests, the engine's turn, and the other events
(spec/47_multiplexer.md R205 to R208, R220; spec/20_memory.md R66 to R72). -/

namespace Sys2Proof.Machine

/-- The command word that a host write requests: a 32-bit write to CMD (10_state.md R24, 20_memory.md R63). -/
def requestOf (n : Width) (a : Offset) (v : Word) : Option Word :=
  if n = .four ∧ alignDown n a = Reg.cmd.offset then some v else none

/-- A command request while IDLE: a NOP is run at once, with no effect (R207); any other word is ignored while FATAL
(R208), and else accepted (R206). -/
def State.request (s : State) (w : Word) : Host.Outcome State Fault Refusal :=
  match decode w with
  | .ok (.nop rest) => exec (.nop rest) s
  | _ => if s.status.fatal then .next s else .next (s.accept w)

/-- The engine's turn: while BUSY it runs the pending command; while IDLE nothing happens (R220, 60_exceptions.md
R270). -/
def State.engineTurn (s : State) : Host.Outcome State Fault Refusal :=
  match s.phase with
  | .idle => .next s
  | .busy w _ =>
    match decode w with
    | .ok i => exec i s
    | .error r => execRejected r s

/-- A host write: while BUSY every write is dropped, a command request too (R205, 20_memory.md R68). -/
def State.hostWrite (s : State) (n : Width) (a : Offset) (v : Word) : Host.Outcome State Fault Refusal :=
  if s.busy then .next (s.busWrite n a v)
  else
    match requestOf n a v with
    | some w => s.request w
    | none => .next (s.busWrite n a v)

/-- A host read: nothing changes but what the port shows (20_memory.md R66; log 13). -/
def State.hostRead (s : State) (n : Width) (a : Offset) : Host.Outcome State Fault Refusal :=
  .next (s.withRdata (s.busRead n a))

/-- One event of the one total order of 20_memory.md R72. -/
def State.handle (s : State) (e : Event) : Host.Outcome State Fault Refusal :=
  match e with
  | .write n a v => s.hostWrite n a v
  | .read n a => s.hostRead n a
  | .engine => s.engineTurn
  | .reset => .next s.hardReset

/-- The accepted state in which the engine moves next on the word `w`; for a NOP, which is never accepted, the state in
which the host's write of it to CMD comes next (log 4). -/
def State.awaiting (s : State) (w : Word) : State :=
  if fieldOpc w = 0 then ({ s with phase := .idle }).withSchedule (.write .four 0 w :: s.schedule)
  else (s.accept w).withSchedule (.engine :: s.schedule)

end Sys2Proof.Machine
end

