-- ==== Sys2Proof/Machine/Step.lean ====
section
/-! DEFINITION. One step of the block: the next event of the schedule, or, when none is scheduled, the engine's turn
(log 1, log 2). -/

namespace Sys2Proof.Machine

/-- One step. An event is taken off the schedule and handled; with nothing scheduled the engine moves, so that a pending
command completes after finitely many steps (spec/70_reset_and_hazards.md R288). -/
def step (s : State) : Host.Outcome State Fault Refusal :=
  match s.schedule with
  | [] => s.engineTurn
  | e :: es => (s.withSchedule es).handle e

/-- `s` with the command word placed so that the very next step runs it (log 4). -/
def State.withFetchWord (s : State) (nbits w : Nat) : State := s.awaiting (tableWord nbits w)

end Sys2Proof.Machine
end

