-- ==== Sys2Proof/Safety.lean ====
section
/-! DEFINITION. What counts as a safe state of the block, and the words claims use about one step: how a completion
looks, and what the engine leaves alone. -/

namespace Sys2Proof.Machine

/-- What every state of a run meets: the invariants the spec states and the ones its rules imply. -/
structure State.Inv (s : State) : Prop where
  /-- IN_BUF is in canonical form inside its window (log 10, 10_state.md R43) -/
  inBuf_wf : s.inBuf.wf
  inBuf_within : s.inBuf.within inBase (inBase + Config.maxLen)
  /-- OUT_BUF is in canonical form inside its window (log 10, 10_state.md R44) -/
  outBuf_wf : s.outBuf.wf
  outBuf_within : s.outBuf.within outBase (outBase + outCapacity)
  /-- "BUSY = 1 implies DONE = 0" (10_state.md R27) -/
  busy_not_done : s.busy = true → s.status.done = false
  /-- "ERR = 1 implies DONE = 1 and ERRCODE != 0" (10_state.md R28) -/
  err_done : s.status.err = true → s.status.done = true ∧ s.status.errCode ≠ 0
  /-- "ERR = 0 implies ERRCODE = 0" (10_state.md R28) -/
  no_err_no_code : s.status.err = false → s.status.errCode = 0
  /-- codes 8 to 15 are "never written by the block" (60_exceptions.md R251) -/
  code_named : s.status.errCode.toNat ≤ 7
  /-- OUT_LEN is at most MAX_LEN + 32 (10_state.md R36) -/
  outLen_fits : s.outLen.toNat ≤ outCapacity
  /-- while a command runs nothing of its output is stored (20_memory.md R69, R71) -/
  busy_clear : s.busy = true → s.outBuf = Memory.zeroed ∧ s.outLen = 0
  /-- after an error there is no output (60_exceptions.md R253) -/
  err_clear : s.status.err = true → s.outBuf = Memory.zeroed ∧ s.outLen = 0
  /-- before the first acceptance there is no output, and after it OUT_BUF is 0x00 from OUT_LEN on (70_reset_and_hazards.md
  R285) -/
  out_tail : s.outBuf.background = .zero → s.outBuf.within outBase (outBase + s.outLen.toNat)
  out_none : s.outBuf.background ≠ .zero → s.outLen = 0 ∧ s.outBuf.cells = []
  /-- no command runs while FATAL (60_exceptions.md R259) -/
  fatal_idle : s.status.fatal = true → s.busy = false
  /-- between steps the datapath is at rest: CHAIN is 16 x 0x00 (10_state.md R48) -/
  datapath_rest : s.datapath = Datapath.rest
  /-- the pending command is an accepted word, kept in LAST_CMD, with a snapshot equal to the live registers
  (47_multiplexer.md R205, R206) -/
  pending : ∀ w snap, s.phase = .busy w snap → fieldOpc w ≠ 0 ∧ s.lastCmd = w ∧ snap = s.snapshot

/-- Several steps, one after the other. -/
def runSteps : Nat → State → Host.Outcome State Fault Refusal
  | 0, s => .next s
  | n + 1, s =>
    match step s with
    | .next t => runSteps n t
    | .fault f => .fault f
    | .refused r => .refused r

/-- The string is `d` followed by `n` bytes of value `n`, for an `n` from 1 to 16 (41_padding.md R120, R122). -/
def PaddedAs (q d : Bytes) : Prop := ∃ n, 1 ≤ n ∧ n ≤ 16 ∧ q = d ++ List.replicate n (BitVec.ofNat 8 n)

/-- The engine changed nothing that belongs to the host: the inputs, CTRL, LAST_CMD and OVR (20_memory.md R70,
60_exceptions.md R253), nor the model's own fields but the count of draws. -/
structure EngineFrame (s t : State) : Prop where
  ie : t.ie = s.ie
  keyLen : t.keyLen = s.keyLen
  ivLen : t.ivLen = s.ivLen
  inLen : t.inLen = s.inLen
  lastCmd : t.lastCmd = s.lastCmd
  key : t.key = s.key
  iv : t.iv = s.iv
  inBytes : ∀ a, t.inBuf.read a = s.inBuf.read a
  ovr : t.status.ovr = s.status.ovr
  epoch : t.epoch = s.epoch
  schedule : t.schedule = s.schedule
  rdata : t.rdata = s.rdata

/-- From `s` the engine completed its command with the output `out` (47_multiplexer.md R219): OUT_BUF holds it and 0x00
after it, OUT_LEN its length, CHAIN is 0, DONE is set, ERR and ERRCODE are 0, FATAL keeps its value, the engine is
IDLE. -/
structure CompletedOk (s t : State) (out : Bytes) : Prop where
  output : ∀ i, i < outCapacity → t.outByte i = out.getD i 0
  outLen : t.outLen.toNat = out.length
  chain : t.datapath.chain = zeroBlock
  done : t.status.done = true
  err : t.status.err = false
  errCode : t.status.errCode = 0
  fatal : t.status.fatal = s.status.fatal
  idle : t.phase = .idle

/-- From `s` the engine completed its command with the error `e` (60_exceptions.md R253): OUT_BUF is 0x00, OUT_LEN 0,
CHAIN 0, DONE and ERR are set, ERRCODE holds the code, FATAL is set by EntropyFailure and else keeps its value, the
engine is IDLE. -/
structure CompletedErr (s t : State) (e : ErrCode) : Prop where
  output : ∀ i, i < outCapacity → t.outByte i = 0
  outLen : t.outLen = 0
  chain : t.datapath.chain = zeroBlock
  done : t.status.done = true
  err : t.status.err = true
  errCode : t.status.errCode = e.code
  fatal : t.status.fatal = (s.status.fatal || e == .entropyFailure)
  idle : t.phase = .idle

/-- From `s` to `t` the engine took `draws` draws of RNG (48_iv_transport.md R236). -/
structure Drew (s t : State) (draws : Nat) : Prop where
  count : t.rngDraws = s.rngDraws + draws
  entropy : t.entropy = s.entropy.drop draws

/-- A whole engine step that ends in the output `out`: the completion, the draws it took, and nothing else. -/
structure EndsOk (s t : State) (draws : Nat) (out : Bytes) : Prop where
  completed : CompletedOk s t out
  drew : Drew s t draws
  frame : EngineFrame s t

/-- A whole engine step that ends in the error `e`: the completion, the draws it took, and nothing else. -/
structure EndsErr (s t : State) (draws : Nat) (e : ErrCode) : Prop where
  completed : CompletedErr s t e
  drew : Drew s t draws
  frame : EngineFrame s t

/-- A whole engine step that ends in a result. -/
def EndsWith (s t : State) (draws : Nat) : Except ErrCode Bytes → Prop
  | .ok out => EndsOk s t draws out
  | .error e => EndsErr s t draws e

/-- The engine holds an accepted command, in a safe state, whose input fits the buffer (47_multiplexer.md R211). -/
structure Accepted (s : State) (snap : Snapshot) : Prop where
  inv : s.Inv
  busy : ∃ w, s.phase = .busy w snap
  fits : snap.inLen.toNat ≤ Config.maxLen

end Sys2Proof.Machine
end

