-- ==== Sys2Proof/Certificates/Slice0/Obligations.lean ====
section
/-! DEFINITION. The statements for the provers, from the numbered rules of the spec. First the words they share, then the
statements in the order of spec/. -/

namespace Sys2Proof.Machine

/-! ### Words the statements share -/

/-- The `i`-th 16 bytes of a string as a block, zeros after its end. -/
def blockAt (d : Bytes) (i : Nat) : Block := blockOf ((d.drop (16 * i)).take 16)

/-- The header that transport mode puts before a ciphertext (48_iv_transport.md R238). -/
def headerOf (xport : Bool) (iv : Block) : Bytes := if xport then blockBytes iv else []

/-- The IV and body of a decryption: the IV register and the whole input when an IV was supplied (R240, R244), the
first 16 bytes and the rest when transport mode reads it from the input (R241). -/
def DecInput (snap : Snapshot) (xport ivs : Bool) (iv : Block) (body : Bytes) : Prop :=
  (ivs = true ∧ snap.ivLen = 16 ∧ iv = snap.iv ∧ body = snap.data) ∨
  (ivs = false ∧ xport = true ∧ 16 ≤ snap.data.length ∧ iv = blockOf (snap.data.take 16) ∧ body = snap.data.drop 16)

/-- The fields ALG, XPORT, IVS of an ENC or DEC form; PAD, UNPAD and NOP have none that count. -/
def cipherFields : Instr → Option (Nat × Bool × Bool)
  | .encEcb alg xport ivs => some (alg, xport, ivs)
  | .decEcb alg xport ivs => some (alg, xport, ivs)
  | .encCbc alg xport ivs => some (alg, xport, ivs)
  | .decCbc alg xport ivs => some (alg, xport, ivs)
  | .encCfb alg xport ivs => some (alg, xport, ivs)
  | .decCfb alg xport ivs => some (alg, xport, ivs)
  | .encOfb alg xport ivs => some (alg, xport, ivs)
  | .decOfb alg xport ivs => some (alg, xport, ivs)
  | .encCtr alg xport ivs => some (alg, xport, ivs)
  | .decCtr alg xport ivs => some (alg, xport, ivs)
  | .pad _ _ _ _ => none
  | .unpad _ _ _ _ => none
  | .nop _ => none

/-- The form is an ENC or DEC of an IV mode: CBC, CFB, OFB or CTR (00_scope.md section 5). -/
def isIvForm : Instr → Bool
  | .encCbc _ _ _ => true
  | .decCbc _ _ _ => true
  | .encCfb _ _ _ => true
  | .decCfb _ _ _ => true
  | .encOfb _ _ _ => true
  | .decOfb _ _ _ => true
  | .encCtr _ _ _ => true
  | .decCtr _ _ _ => true
  | .encEcb _ _ _ => false
  | .decEcb _ _ _ => false
  | .pad _ _ _ _ => false
  | .unpad _ _ _ _ => false
  | .nop _ => false

/-- The `match` and `mask` of the row of spec/opcode_table.json that a constructor stands for. -/
def tableRow : Instr → Word × Word
  | .encEcb _ _ _ => (0x00000001, 0xFFFFF0FF)
  | .decEcb _ _ _ => (0x00000002, 0xFFFFF0FF)
  | .encCbc _ _ _ => (0x00000011, 0xFFFFF0FF)
  | .decCbc _ _ _ => (0x00000012, 0xFFFFF0FF)
  | .encCfb _ _ _ => (0x00000021, 0xFFFFF0FF)
  | .decCfb _ _ _ => (0x00000022, 0xFFFFF0FF)
  | .encOfb _ _ _ => (0x00000031, 0xFFFFF0FF)
  | .decOfb _ _ _ => (0x00000032, 0xFFFFF0FF)
  | .encCtr _ _ _ => (0x00000041, 0xFFFFF0FF)
  | .decCtr _ _ _ => (0x00000042, 0xFFFFF0FF)
  | .pad _ _ _ _ => (0x00000003, 0xFFFFF08F)
  | .unpad _ _ _ _ => (0x00000004, 0xFFFFF08F)
  | .nop _ => (0x00000000, 0x0000000F)

/-- The rows of spec/opcode_table.json, as (match, mask). -/
def tableRows : List (Word × Word) :=
  [(0x00000001, 0xFFFFF0FF), (0x00000002, 0xFFFFF0FF), (0x00000011, 0xFFFFF0FF), (0x00000012, 0xFFFFF0FF),
   (0x00000021, 0xFFFFF0FF), (0x00000022, 0xFFFFF0FF), (0x00000031, 0xFFFFF0FF), (0x00000032, 0xFFFFF0FF),
   (0x00000041, 0xFFFFF0FF), (0x00000042, 0xFFFFF0FF), (0x00000003, 0xFFFFF08F), (0x00000004, 0xFFFFF08F),
   (0x00000000, 0x0000000F)]

/-- The word asks for a draw of RNG on a snapshot: a transport-mode encryption of an IV mode with no IV supplied, after
every check of the construction passed (48_iv_transport.md R236). -/
def AsksForDraw (w : Word) (snap : Snapshot) : Prop :=
  reservedBitSet w = false ∧ fieldOpc w = 1 ∧ 1 ≤ fieldMode w ∧ fieldMode w ≤ 4 ∧ fieldXport w = true ∧ fieldIvs w = false ∧
    snap.inLen.toNat ≤ Config.maxLen ∧ fieldAlg w = 0 ∧ snap.keyLen = 16

/-- The event is a 32-bit write of `v` to STATUS. -/
def IsStatusWrite (e : Event) (v : Word) : Prop := ∃ a, e = .write .four a v ∧ alignDown .four a = Reg.status.offset

end Sys2Proof.Machine

open Sys2Proof Sys2Proof.Machine

/-! ### 30_encoding.md -/

/-- R91, R102: no bit of a command word is dropped between the encoder and the decoder. -/
def Obligations.DecodeOfEncodeGivesTheTermBack : Prop :=
  ∀ i : Instr, i.wellFormed = true → decode (encode i) = .ok i

/-- R98: a word that decodes is the encoding of what it decodes to, which is well-formed, so every word has one meaning. -/
def Obligations.EncodeOfDecodeGivesTheWordBack : Prop :=
  ∀ (w : Word) (i : Instr), decode w = .ok i → i.wellFormed = true ∧ encode i = w

/-- R98: a word is the form of a row of spec/opcode_table.json exactly when `w AND mask = match` for that row, and it
matches no row exactly when it is Illegal or an ENC or DEC with MODE 5 to 7. -/
def Obligations.DecodeFollowsTheOpcodeTable : Prop :=
  (∀ (w : Word) (i : Instr), decode w = .ok i → w &&& (tableRow i).2 = (tableRow i).1) ∧
  (∀ (w : Word) (row : Word × Word), row ∈ tableRows → w &&& row.2 = row.1 → ∃ i, decode w = .ok i ∧ tableRow i = row) ∧
  (∀ w : Word, (∀ row ∈ tableRows, w &&& row.2 ≠ row.1) ↔
    fieldOpc w ≠ 0 ∧ (reservedBitSet w = true ∨ 5 ≤ fieldOpc w ∨ fieldOpc w ≤ 2 ∧ 5 ≤ fieldMode w))

/-- R102: example words of the mnemonics, written out. -/
def Obligations.ExampleWordsDecodeToTheirMnemonics : Prop :=
  decode 0x00000001 = .ok (.encEcb 0 false false) ∧ decode 0x00000002 = .ok (.decEcb 0 false false) ∧
  decode 0x00000C11 = .ok (.encCbc 0 true true) ∧ decode 0x00000412 = .ok (.decCbc 0 true false) ∧
  decode 0x00000821 = .ok (.encCfb 0 false true) ∧ decode 0x00000832 = .ok (.decOfb 0 false true) ∧
  decode 0x00000442 = .ok (.decCtr 0 true false) ∧ decode 0x00000003 = .ok (.pad 0 0 false false) ∧
  decode 0x00000004 = .ok (.unpad 0 0 false false) ∧ decode 0x00000000 = .ok (.nop 0)

/-! ### 10_state.md and 20_memory.md: registers and the bus -/

/-- R25: the layout of STATUS, its reserved bits included. -/
def Obligations.StatusWordHasItsFields : Prop :=
  ∀ (busy : Bool) (f : Status),
    (statusWord busy f).getLsbD 0 = busy ∧ (statusWord busy f).getLsbD 1 = f.done ∧ (statusWord busy f).getLsbD 2 = f.err ∧
    (statusWord busy f).getLsbD 3 = f.ovr ∧ (statusWord busy f).getLsbD 4 = f.fatal ∧
    (statusWord busy f).extractLsb' 5 3 = 0 ∧ (statusWord busy f).extractLsb' 8 4 = f.errCode ∧
    (statusWord busy f).extractLsb' 12 20 = 0

/-- R24, R25, R32 to R39, R65: what a 32-bit read of each control register returns, OUT_LEN while IDLE, and that a
reserved one reads 0; CAPS tells the block size and, for every mode, whether it pads and whether it takes an IV. -/
def Obligations.ControlRegistersReadTheirValues : Prop :=
  ∀ s : State,
    s.busRead .four 0x00000 = 0 ∧ s.busRead .four 0x00004 = statusWord s.busy s.status ∧
    (s.busRead .four 0x00008).toNat = s.ie.toNat ∧ (s.busRead .four 0x0000C).toNat = s.keyLen.toNat ∧
    (s.busRead .four 0x00010).toNat = s.ivLen.toNat ∧ (s.busRead .four 0x00014).toNat = s.inLen.toNat ∧
    (s.busy = false → (s.busRead .four 0x00018).toNat = s.outLen.toNat) ∧ s.busRead .four 0x0001C = s.lastCmd ∧
    (s.busRead .four 0x00020).toNat = Config.maxLen ∧ s.busRead .four 0x00024 = 0x001E0310 ∧
    ((s.busRead .four 0x00024).extractLsb' 0 8).toNat = 16 ∧
    (∀ m : Mode, (s.busRead .four 0x00024).getLsbD (8 + m.code) = m.requiresPadding ∧
      (s.busRead .four 0x00024).getLsbD (16 + m.code) = m.needsIv) ∧
    (∀ a : Offset, 0x28 ≤ a.toNat → a.toNat < 0x40 → s.busRead .four a = 0)

/-- R41: KEY is write-only: a read of any width in its sixteen bytes returns 0, and what any read returns does not depend
on it. -/
def Obligations.NoReadRevealsTheKey : Prop :=
  (∀ (s : State) (n : Width) (a : Offset), 0x40 ≤ a.toNat → a.toNat < 0x50 → s.busRead n a = 0) ∧
  (∀ (s : State) (k : Block) (n : Width) (a : Offset), ({ s with key := k }).busRead n a = s.busRead n a)

/-- R62, R63: an access acts on the offset rounded down to its width; lane `k` of a read is the byte at that offset plus
`k`, and the lanes above the width are 0. R41 to R44, R65: the byte at an offset of KEY reads 0, of IV and IN_BUF the stored
byte, of OUT_BUF the stored byte while IDLE (and 0 while BUSY, R69); every reserved offset reads 0, in the control region
too, and so do IN_BUF at or above MAX_LEN and OUT_BUF at or above MAX_LEN + 32. -/
def Obligations.ReadsAreAlignedAndLittleEndian : Prop :=
  (∀ (s : State) (n : Width) (a : Offset) (k : Nat), k < 4 →
    lane (s.busRead n a) k = if k < n.bytes then s.readByte (a.toNat - a.toNat % n.bytes + k) else 0) ∧
  (∀ (s : State) (i : Nat),
    (i < 16 → s.readByte (0x40 + i) = 0) ∧
    (i < 16 → s.readByte (0x50 + i) = blockGet s.iv i) ∧
    (i < Config.maxLen → s.readByte (0x10000 + i) = s.inByte i) ∧
    (i < Config.maxLen + 32 → s.readByte (0x20000 + i) = if s.busy then 0 else s.outByte i)) ∧
  (∀ (s : State) (a : Nat),
    0x28 ≤ a ∧ a < 0x40 ∨ 0x60 ≤ a ∧ a < 0x10000 ∨ 0x10000 + Config.maxLen ≤ a ∧ a < 0x20000 ∨
      0x20000 + (Config.maxLen + 32) ≤ a ∧ a < 0x40000 →
    s.readByte a = 0)

/-- R62 to R65: while IDLE a write of a width outside the control region stores its lanes at the aligned offsets, in
KEY, IV and IN_BUF; OUT_BUF and reserved offsets ignore it, byte by byte; every other byte, and every register, stays. -/
def Obligations.BufferWritesStoreTheirLanes : Prop :=
  ∀ (s : State) (n : Width) (a : Offset) (v : Word), s.busy = false → 0x40 ≤ a.toNat →
    ∃ t, s.hostWrite n a v = .next t ∧
      (∀ i, i < 16 → blockGet t.key i =
        if alignDown n a ≤ 0x40 + i ∧ 0x40 + i < alignDown n a + n.bytes then lane v (0x40 + i - alignDown n a)
        else blockGet s.key i) ∧
      (∀ i, i < 16 → blockGet t.iv i =
        if alignDown n a ≤ 0x50 + i ∧ 0x50 + i < alignDown n a + n.bytes then lane v (0x50 + i - alignDown n a)
        else blockGet s.iv i) ∧
      (∀ i, i < Config.maxLen → t.inByte i =
        if alignDown n a ≤ 0x10000 + i ∧ 0x10000 + i < alignDown n a + n.bytes then lane v (0x10000 + i - alignDown n a)
        else s.inByte i) ∧
      t.outBuf = s.outBuf ∧ t.status = s.status ∧ t.ie = s.ie ∧ t.keyLen = s.keyLen ∧ t.ivLen = s.ivLen ∧
      t.inLen = s.inLen ∧ t.outLen = s.outLen ∧ t.lastCmd = s.lastCmd ∧ t.phase = s.phase ∧ t.datapath = s.datapath ∧
      t.schedule = s.schedule ∧ t.rngDraws = s.rngDraws ∧ t.entropy = s.entropy ∧ t.epoch = s.epoch ∧ t.rdata = s.rdata

/-- R64: a write of fewer than 32 bits to the control region, a command request among them, changes nothing while
IDLE. -/
def Obligations.NarrowControlWritesAreIgnored : Prop :=
  ∀ (s : State) (n : Width) (a : Offset) (v : Word), s.busy = false → n ≠ .four → a.toNat < 0x40 →
    s.hostWrite n a v = .next s

/-- R32 to R35, R63, R65: what a 32-bit write to each control register does while IDLE, at every offset that rounds down to
the register's; a read-only or reserved one ignores it. (CMD and STATUS have statements of their own.) -/
def Obligations.ControlWritesStoreTheirFields : Prop :=
  ∀ (s : State) (a : Offset) (v : Word), s.busy = false →
    (0x08 ≤ a.toNat → a.toNat < 0x0C → s.hostWrite .four a v = .next { s with ie := v.getLsbD 0 }) ∧
    (0x0C ≤ a.toNat → a.toNat < 0x10 →
      s.hostWrite .four a v = .next { s with keyLen := BitVec.ofNat 8 (v.toNat % 256) }) ∧
    (0x10 ≤ a.toNat → a.toNat < 0x14 →
      s.hostWrite .four a v = .next { s with ivLen := BitVec.ofNat 8 (v.toNat % 256) }) ∧
    (0x14 ≤ a.toNat → a.toNat < 0x18 →
      s.hostWrite .four a v = .next { s with inLen := BitVec.ofNat 16 (v.toNat % 65536) }) ∧
    (0x18 ≤ a.toNat → a.toNat < 0x40 → s.hostWrite .four a v = .next s)

/-- R258: a 32-bit write to STATUS while IDLE clears DONE, ERR and ERRCODE by bit 1 and OVR by bit 3; BUSY, FATAL and
every other register keep their values, and writing 0 changes nothing. A narrower write changes nothing; while BUSY any
write is dropped and sets OVR. -/
def Obligations.StatusWriteClearsWhatItsBitsSay : Prop :=
  ∀ (s : State) (a : Offset) (v : Word), 4 ≤ a.toNat → a.toNat < 8 →
    (s.busy = false →
      ∃ f : Status, s.hostWrite .four a v = .next { s with status := f } ∧
        (v.getLsbD 1 = true → f.done = false ∧ f.err = false ∧ f.errCode = 0) ∧
        (v.getLsbD 1 = false → f.done = s.status.done ∧ f.err = s.status.err ∧ f.errCode = s.status.errCode) ∧
        (v.getLsbD 3 = true → f.ovr = false) ∧ (v.getLsbD 3 = false → f.ovr = s.status.ovr) ∧
        f.fatal = s.status.fatal) ∧
    (s.busy = false → s.hostWrite .four a 0 = .next s) ∧
    (∀ n, s.busy = false → n ≠ .four → s.hostWrite n a v = .next s) ∧
    (∀ n, s.busy = true → s.hostWrite n a v = .next { s with status := { s.status with ovr := true } })

/-- R66: a read changes nothing but what the port shows, which is a field of the model's own (log 13). -/
def Obligations.ReadsHaveNoSideEffect : Prop :=
  ∀ (s : State) (n : Width) (a : Offset), s.hostRead n a = .next { s with rdata := s.busRead n a }

/-- R68: while BUSY every write, of every width at any offset, is dropped and sets OVR, and nothing else changes. -/
def Obligations.BusyWritesAreDroppedWithOvr : Prop :=
  ∀ (s : State) (n : Width) (a : Offset) (v : Word), s.busy = true →
    s.hostWrite n a v = .next { s with status := { s.status with ovr := true } }

/-- R69: while BUSY every byte of OUT_BUF and of OUT_LEN reads 0, in every width, so what reads return does not depend on
the stored output, the pending command, its snapshot or the datapath. -/
def Obligations.NoReadRevealsOutputWhileBusy : Prop :=
  (∀ (s : State) (n : Width) (a : Offset), s.busy = true →
    (0x20000 ≤ a.toNat ∧ a.toNat < 0x30000 ∨ 0x18 ≤ a.toNat ∧ a.toNat < 0x1C) → s.busRead n a = 0) ∧
  (∀ (s : State) (n : Width) (a : Offset) (w : Word) (snap : Snapshot) (d : Datapath) (m : Memory) (len : BitVec 17),
    s.busy = true →
      ({ s with phase := .busy w snap, datapath := d, outBuf := m, outLen := len }).busRead n a = s.busRead n a)

/-- R60, R61, R78: a system bus access at `BASE + a` reaches the block as an access at offset `a`, and one outside the
block's 0x40000 bytes does not reach it (log 9). -/
def Obligations.SystemBusReachesTheBlockAtBase : Prop :=
  (∀ (a : Offset) (n : Width) (v : Word),
    Event.ofMemWrite (Config.base + a.toNat) n v = some (.write n a v) ∧
    Event.ofMemRead (Config.base + a.toNat) n = some (.read n a)) ∧
  (∀ (busAddr : Nat) (n : Width) (v : Word), busAddr < Config.base ∨ Config.base + 0x40000 ≤ busAddr →
    Event.ofMemWrite busAddr n v = none ∧ Event.ofMemRead busAddr n = none)

/-! ### 47_multiplexer.md: acceptance and the engine -/

/-- A step takes the next event off the schedule: a host write or read, a reset, or the engine's turn, which is also what
comes when nothing is scheduled. The engine's turn on a pending word runs the meaning of the form it decodes to; while
IDLE it does nothing (R205, R207, R220, 20_memory.md R72). A NOP word written to CMD while IDLE is run at once. That the
inputs stand in a schedule, and that an empty one lets the engine move, is the model's choice (log 1, log 2). -/
def Obligations.StepRunsTheDecodedCommand : Prop :=
  (∀ (s : State) (es : List Event),
    (∀ n a v, s.schedule = .write n a v :: es → step s = (s.withSchedule es).hostWrite n a v) ∧
    (∀ n a, s.schedule = .read n a :: es → step s = (s.withSchedule es).hostRead n a) ∧
    (s.schedule = .reset :: es → step s = .next (s.withSchedule es).hardReset) ∧
    (s.schedule = .engine :: es → step s = (s.withSchedule es).engineTurn)) ∧
  (∀ s : State, s.schedule = [] → step s = s.engineTurn) ∧
  (∀ (s : State) (w : Word) (snap : Snapshot) (i : Instr), s.phase = .busy w snap → decode w = .ok i →
    s.engineTurn = exec i s) ∧
  (∀ s : State, s.phase = .idle → s.engineTurn = .next s) ∧
  (∀ (s : State) (w : Word) (rest : Nat) (a : Offset), s.busy = false → decode w = .ok (.nop rest) → a.toNat < 4 →
    s.hostWrite .four a w = exec (.nop rest) s)

/-- R206: acceptance. A 32-bit write to CMD of a word with OPC not 0, while IDLE and not FATAL, clears DONE, ERR,
ERRCODE, OUT_LEN and OUT_BUF, records LAST_CMD, takes the snapshot and sets BUSY; nothing else changes. While the command
runs neither the snapshot nor the live registers it was taken from change. -/
def Obligations.AcceptanceTakesTheSnapshotAndClearsTheResult : Prop :=
  (∀ (s : State) (w : Word) (a : Offset), s.busy = false → s.status.fatal = false → fieldOpc w ≠ 0 → a.toNat < 4 →
    ∃ t snap, s.hostWrite .four a w = .next t ∧ t.phase = .busy w snap ∧
      snap.key = s.key ∧ snap.keyLen = s.keyLen ∧ snap.iv = s.iv ∧ snap.ivLen = s.ivLen ∧ snap.inLen = s.inLen ∧
      snap.data.length = min s.inLen.toNat Config.maxLen ∧ (∀ i, i < snap.data.length → snap.data.getD i 0 = s.inByte i) ∧
      t.status = { s.status with done := false, err := false, errCode := 0 } ∧ t.outLen = 0 ∧
      (∀ i, i < outCapacity → t.outByte i = 0) ∧ t.lastCmd = w ∧
      t.ie = s.ie ∧ t.keyLen = s.keyLen ∧ t.ivLen = s.ivLen ∧ t.inLen = s.inLen ∧ t.key = s.key ∧ t.iv = s.iv ∧
      t.inBuf = s.inBuf ∧ t.datapath = s.datapath ∧ t.schedule = s.schedule ∧ t.rngDraws = s.rngDraws ∧
      t.entropy = s.entropy ∧ t.epoch = s.epoch ∧ t.rdata = s.rdata) ∧
  (∀ (s t : State) (e : Event), s.busy = true → s.handle e = .next t → t.busy = true →
    t.phase = s.phase ∧ t.key = s.key ∧ t.keyLen = s.keyLen ∧ t.iv = s.iv ∧ t.ivLen = s.ivLen ∧ t.inLen = s.inLen ∧
      t.inBuf = s.inBuf)

/-- R207: a NOP written to CMD while IDLE, whatever its other bits and whether FATAL or not, changes no state. -/
def Obligations.NopChangesNoState : Prop :=
  (∀ (rest : Nat) (s : State), exec (.nop rest) s = .next s) ∧
  (∀ (s : State) (w : Word) (a : Offset), s.busy = false → fieldOpc w = 0 → a.toNat < 4 →
    s.hostWrite .four a w = .next s)

/-- R208: while FATAL a command word written to CMD changes no state, OVR is not set; and only reset makes the block accept
commands again: no other event clears FATAL or starts a command. -/
def Obligations.FatalIgnoresCommands : Prop :=
  (∀ (s : State) (w : Word) (a : Offset), s.busy = false → s.status.fatal = true → fieldOpc w ≠ 0 → a.toNat < 4 →
    s.hostWrite .four a w = .next s) ∧
  (∀ (s t : State) (e : Event), s.busy = false → s.status.fatal = true → e ≠ .reset → s.handle e = .next t →
    t.busy = false ∧ t.status.fatal = true)

/-- R209, R220: the engine's turn on any accepted word, whichever form it decodes to or if it is rejected, completes with
the result of `Exec` as R209 writes it, and takes a draw exactly when R236 says. -/
def Obligations.EngineCompletesWithExec : Prop :=
  ∀ (s : State) (w : Word) (snap : Snapshot), s.Inv → s.phase = .busy w snap →
    ∃ t draws, s.engineTurn = .next t ∧ EndsWith s t draws (muxExec s.env w snap) ∧
      (draws = 1 ∧ AsksForDraw w snap ∨ draws = 0 ∧ ¬ AsksForDraw w snap)

/-- R210, R213: an accepted word with a reserved bit or a reserved opcode completes with IllegalCommand; an ENC or DEC
with MODE 5 to 7, with an input that fits, completes with InvalidArgument, and the raw word is in LAST_CMD. No draw is
taken. -/
def Obligations.UnlistedWordsCompleteWithTheirError : Prop :=
  ∀ (s : State) (w : Word) (snap : Snapshot), s.Inv → s.phase = .busy w snap →
    (reservedBitSet w = true ∨ 5 ≤ fieldOpc w →
      ∃ t, s.engineTurn = .next t ∧ EndsErr s t 0 .illegalCommand) ∧
    (reservedBitSet w = false → fieldOpc w = 1 ∨ fieldOpc w = 2 → 5 ≤ fieldMode w → snap.inLen.toNat ≤ Config.maxLen →
      ∃ t, s.engineTurn = .next t ∧ EndsErr s t 0 .invalidArgument ∧ t.lastCmd = w)

/-- R211: every command, whatever its opcode, whose IN_LEN exceeds MAX_LEN completes with IllegalCommand, before any check
of its algorithm, mode, key or IV: so does the engine's turn on every accepted word, and so every command form but NOP. -/
def Obligations.LongInputIsIllegal : Prop :=
  ∀ (s : State) (w : Word) (snap : Snapshot), s.phase = .busy w snap → Config.maxLen < snap.inLen.toNat →
    (fieldOpc w ≠ 0 → ∃ t, s.engineTurn = .next t ∧ EndsErr s t 0 .illegalCommand) ∧
    (∀ i : Instr, (∀ rest, i ≠ .nop rest) → ∃ t, exec i s = .next t ∧ EndsErr s t 0 .illegalCommand)

/-- R212, R214: an ENC or DEC with ALG other than 0 completes with InvalidArgument; with ALG 0 and KEY_LEN other than 16,
with InvalidKey. -/
def Obligations.AlgorithmIsCheckedBeforeKeyLength : Prop :=
  ∀ (i : Instr) (alg : Nat) (xport ivs : Bool) (s : State) (snap : Snapshot), cipherFields i = some (alg, xport, ivs) →
    Accepted s snap →
    (alg ≠ 0 → ∃ t, exec i s = .next t ∧ EndsErr s t 0 .invalidArgument) ∧
    (alg = 0 → snap.keyLen ≠ 16 → ∃ t, exec i s = .next t ∧ EndsErr s t 0 .invalidKey)

/-- R215, R216: an ENC or DEC of an IV mode whose algorithm and key pass completes with InvalidArgument when an IV is
supplied whose length is not 16, in raw and in transport mode, and when raw mode is given no IV. -/
def Obligations.IvModesCheckTheSuppliedIv : Prop :=
  ∀ (i : Instr) (xport ivs : Bool) (s : State) (snap : Snapshot), isIvForm i = true → cipherFields i = some (0, xport, ivs) →
    Accepted s snap → snap.keyLen = 16 →
    (ivs = true ∧ snap.ivLen ≠ 16 ∨ xport = false ∧ ivs = false) →
    ∃ t, exec i s = .next t ∧ EndsErr s t 0 .invalidArgument

/-- R218: DEC.ECB and DEC.CBC complete with Crypto when the ciphertext is empty or no multiple of 16, before any block is
decrypted. -/
def Obligations.BlockDecryptionsRequireWholeBlocks : Prop :=
  ∀ (s : State) (snap : Snapshot) (xport ivs : Bool), Accepted s snap → snap.keyLen = 16 →
    (snap.data.length = 0 ∨ snap.data.length % 16 ≠ 0 →
      ∃ t, exec (.decEcb 0 xport ivs) s = .next t ∧ EndsErr s t 0 .crypto) ∧
    (∀ iv body, DecInput snap xport ivs iv body → body.length = 0 ∨ body.length % 16 ≠ 0 →
      ∃ t, exec (.decCbc 0 xport ivs) s = .next t ∧ EndsErr s t 0 .crypto)

/-- R241: a transport-mode decryption that must read its IV from fewer than 16 bytes of input completes with
FileError. -/
def Obligations.ShortInputHoldsNoIv : Prop :=
  ∀ (s : State) (snap : Snapshot), Accepted s snap → snap.keyLen = 16 → snap.data.length < 16 →
    (∃ t, exec (.decCbc 0 true false) s = .next t ∧ EndsErr s t 0 .fileError) ∧
    (∃ t, exec (.decCfb 0 true false) s = .next t ∧ EndsErr s t 0 .fileError) ∧
    (∃ t, exec (.decOfb 0 true false) s = .next t ∧ EndsErr s t 0 .fileError) ∧
    (∃ t, exec (.decCtr 0 true false) s = .next t ∧ EndsErr s t 0 .fileError)

/-- R237: when the draw of a transport-mode encryption answers Fail, the command completes with EntropyFailure, which
sets FATAL; the one draw was taken and none is retried. -/
def Obligations.FailedDrawIsFatal : Prop :=
  ∀ (s : State) (snap : Snapshot), Accepted s snap → snap.keyLen = 16 → s.rngAnswer = none →
    (∃ t, exec (.encCbc 0 true false) s = .next t ∧ EndsErr s t 1 .entropyFailure ∧ t.status.fatal = true) ∧
    (∃ t, exec (.encCfb 0 true false) s = .next t ∧ EndsErr s t 1 .entropyFailure ∧ t.status.fatal = true) ∧
    (∃ t, exec (.encOfb 0 true false) s = .next t ∧ EndsErr s t 1 .entropyFailure ∧ t.status.fatal = true) ∧
    (∃ t, exec (.encCtr 0 true false) s = .next t ∧ EndsErr s t 1 .entropyFailure ∧ t.status.fatal = true)

/-! ### 41_padding.md to 46_ctr.md: what each command form computes -/

/-- R120, R121: PAD, whatever its ignored fields and the key, appends `n` bytes of value `n`, where
`n = 16 - (len mod 16)`. -/
def Obligations.PadAppendsItsCount : Prop :=
  ∀ (s : State) (snap : Snapshot) (mode alg : Nat) (xport ivs : Bool), Accepted s snap →
    ∃ t, exec (.pad mode alg xport ivs) s = .next t ∧
      EndsOk s t 0 (snap.data ++ List.replicate (16 - snap.data.length % 16) (BitVec.ofNat 8 (16 - snap.data.length % 16)))

/-- R122, R123: UNPAD, whatever its ignored fields and the key, gives the bytes before a tail of `n` bytes of value `n`,
1 to 16 of them, and completes with PaddingError when the input has no such tail, so too when it is empty. -/
def Obligations.UnpadStripsExactlyAPaddingTail : Prop :=
  ∀ (s : State) (snap : Snapshot) (mode alg : Nat) (xport ivs : Bool), Accepted s snap →
    (∀ d, PaddedAs snap.data d → ∃ t, exec (.unpad mode alg xport ivs) s = .next t ∧ EndsOk s t 0 d) ∧
    ((∀ d, ¬ PaddedAs snap.data d) →
      ∃ t, exec (.unpad mode alg xport ivs) s = .next t ∧ EndsErr s t 0 .paddingError)

/-- R140, R142: ENC.ECB, whatever XPORT and IVS, encrypts each block of the padded input on its own. -/
def Obligations.EncEcbEncryptsEachPaddedBlock : Prop :=
  ∀ (s : State) (snap : Snapshot) (xport ivs : Bool), Accepted s snap → snap.keyLen = 16 →
    ∃ t out, exec (.encEcb 0 xport ivs) s = .next t ∧ EndsOk s t 0 out ∧ out.length = 16 * (snap.data.length / 16 + 1) ∧
      ∀ i, i ≤ snap.data.length / 16 → blockAt out i = Config.bp.enc snap.key (blockAt (pad16 snap.data) i)

/-- R141, R142, R144: DEC.ECB, whatever XPORT and IVS, decrypts each block of a whole number of blocks on its own and gives
the bytes before the padding tail, or completes with PaddingError when there is no such tail. -/
def Obligations.DecEcbDecryptsEachBlockAndStrips : Prop :=
  ∀ (s : State) (snap : Snapshot) (xport ivs : Bool), Accepted s snap → snap.keyLen = 16 → snap.data.length ≠ 0 →
    snap.data.length % 16 = 0 →
    let plain := (List.range (snap.data.length / 16)).flatMap fun i =>
      blockBytes (Config.bp.dec snap.key (blockAt snap.data i))
    (∀ d, PaddedAs plain d → ∃ t, exec (.decEcb 0 xport ivs) s = .next t ∧ EndsOk s t 0 d) ∧
    ((∀ d, ¬ PaddedAs plain d) → ∃ t, exec (.decEcb 0 xport ivs) s = .next t ∧ EndsErr s t 0 .paddingError)

/-- R151, R154: ENC.CBC computes `C_i = E(P_i XOR C_{i-1})` with `C_0 = IV` over the padded input. The IV is the register's
when supplied, else in transport mode the drawn one; transport mode puts it before the ciphertext. -/
def Obligations.EncCbcChainsOnTheCiphertext : Prop :=
  ∀ (s : State) (snap : Snapshot) (xport ivs : Bool) (iv : Block), Accepted s snap → snap.keyLen = 16 →
    (ivs = true ∧ snap.ivLen = 16 ∧ iv = snap.iv ∨ ivs = false ∧ xport = true ∧ s.rngAnswer = some iv) →
    ∃ t c, exec (.encCbc 0 xport ivs) s = .next t ∧ EndsOk s t (if ivs then 0 else 1) (headerOf xport iv ++ c) ∧
      c.length = 16 * (snap.data.length / 16 + 1) ∧
      ∀ i, i ≤ snap.data.length / 16 → blockAt c i =
        Config.bp.enc snap.key (xorBlock (blockAt (pad16 snap.data) i) (if i = 0 then iv else blockAt c (i - 1)))

/-- R152, R155: DEC.CBC computes `P_i = D(C_i) XOR C_{i-1}` with `C_0 = IV` and gives the bytes before the padding tail, or
completes with PaddingError when there is no such tail. -/
def Obligations.DecCbcChainsOnTheInput : Prop :=
  ∀ (s : State) (snap : Snapshot) (xport ivs : Bool) (iv : Block) (body : Bytes), Accepted s snap → snap.keyLen = 16 →
    DecInput snap xport ivs iv body → body.length ≠ 0 → body.length % 16 = 0 →
    let plain := (List.range (body.length / 16)).flatMap fun i =>
      blockBytes (xorBlock (Config.bp.dec snap.key (blockAt body i)) (if i = 0 then iv else blockAt body (i - 1)))
    (∀ d, PaddedAs plain d → ∃ t, exec (.decCbc 0 xport ivs) s = .next t ∧ EndsOk s t 0 d) ∧
    ((∀ d, ¬ PaddedAs plain d) → ∃ t, exec (.decCbc 0 xport ivs) s = .next t ∧ EndsErr s t 0 .paddingError)

/-- R166, R169: ENC.CFB XORs each chunk with the encrypted previous ciphertext chunk, the IV first; the last chunk may be
short and the length stays. -/
def Obligations.EncCfbFeedsBackTheCiphertext : Prop :=
  ∀ (s : State) (snap : Snapshot) (xport ivs : Bool) (iv : Block), Accepted s snap → snap.keyLen = 16 →
    (ivs = true ∧ snap.ivLen = 16 ∧ iv = snap.iv ∨ ivs = false ∧ xport = true ∧ s.rngAnswer = some iv) →
    ∃ t c, exec (.encCfb 0 xport ivs) s = .next t ∧ EndsOk s t (if ivs then 0 else 1) (headerOf xport iv ++ c) ∧
      c.length = snap.data.length ∧
      ∀ j, j < snap.data.length → c.getD j 0 = snap.data.getD j 0 ^^^
        blockGet (Config.bp.enc snap.key (if j < 16 then iv else blockAt c (j / 16 - 1))) (j % 16)

/-- R167, R170: DEC.CFB uses the primitive in the encrypt direction and feeds back the input chunk; any length is
accepted, zero included. -/
def Obligations.DecCfbFeedsBackTheInput : Prop :=
  ∀ (s : State) (snap : Snapshot) (xport ivs : Bool) (iv : Block) (body : Bytes), Accepted s snap → snap.keyLen = 16 →
    DecInput snap xport ivs iv body →
    ∃ t p, exec (.decCfb 0 xport ivs) s = .next t ∧ EndsOk s t 0 p ∧ p.length = body.length ∧
      ∀ j, j < body.length → p.getD j 0 = body.getD j 0 ^^^
        blockGet (Config.bp.enc snap.key (if j < 16 then iv else blockAt body (j / 16 - 1))) (j % 16)

/-- R180, R181, R182: ENC.OFB XORs chunk `i` with the keystream `K_i = E(K_{i-1})`, `K_0 = IV`. -/
def Obligations.EncOfbXorsTheIteratedKeystream : Prop :=
  ∀ (s : State) (snap : Snapshot) (xport ivs : Bool) (iv : Block), Accepted s snap → snap.keyLen = 16 →
    (ivs = true ∧ snap.ivLen = 16 ∧ iv = snap.iv ∨ ivs = false ∧ xport = true ∧ s.rngAnswer = some iv) →
    ∃ t c, exec (.encOfb 0 xport ivs) s = .next t ∧ EndsOk s t (if ivs then 0 else 1) (headerOf xport iv ++ c) ∧
      c.length = snap.data.length ∧
      ∀ j, j < snap.data.length → c.getD j 0 = snap.data.getD j 0 ^^^
        blockGet ((Config.bp.enc snap.key)^[j / 16 + 1] iv) (j % 16)

/-- R181, R183: DEC.OFB is the same function of its body; any length is accepted. -/
def Obligations.DecOfbXorsTheIteratedKeystream : Prop :=
  ∀ (s : State) (snap : Snapshot) (xport ivs : Bool) (iv : Block) (body : Bytes), Accepted s snap → snap.keyLen = 16 →
    DecInput snap xport ivs iv body →
    ∃ t p, exec (.decOfb 0 xport ivs) s = .next t ∧ EndsOk s t 0 p ∧ p.length = body.length ∧
      ∀ j, j < body.length → p.getD j 0 = body.getD j 0 ^^^
        blockGet ((Config.bp.enc snap.key)^[j / 16 + 1] iv) (j % 16)

/-- R190 to R193: ENC.CTR XORs chunk `i` (from 0) with the encryption of the big-endian counter `be128(IV) + i` modulo
2^128. -/
def Obligations.EncCtrXorsTheEncryptedCounter : Prop :=
  ∀ (s : State) (snap : Snapshot) (xport ivs : Bool) (iv : Block), Accepted s snap → snap.keyLen = 16 →
    (ivs = true ∧ snap.ivLen = 16 ∧ iv = snap.iv ∨ ivs = false ∧ xport = true ∧ s.rngAnswer = some iv) →
    ∃ t c, exec (.encCtr 0 xport ivs) s = .next t ∧ EndsOk s t (if ivs then 0 else 1) (headerOf xport iv ++ c) ∧
      c.length = snap.data.length ∧
      ∀ j, j < snap.data.length → c.getD j 0 = snap.data.getD j 0 ^^^
        blockGet (Config.bp.enc snap.key (toBe16 ((be128 iv + j / 16) % 2 ^ 128))) (j % 16)

/-- R192, R194: DEC.CTR is the same function of its body; any length is accepted. -/
def Obligations.DecCtrXorsTheEncryptedCounter : Prop :=
  ∀ (s : State) (snap : Snapshot) (xport ivs : Bool) (iv : Block) (body : Bytes), Accepted s snap → snap.keyLen = 16 →
    DecInput snap xport ivs iv body →
    ∃ t p, exec (.decCtr 0 xport ivs) s = .next t ∧ EndsOk s t 0 p ∧ p.length = body.length ∧
      ∀ j, j < body.length → p.getD j 0 = body.getD j 0 ^^^
        blockGet (Config.bp.enc snap.key (toBe16 ((be128 iv + j / 16) % 2 ^ 128))) (j % 16)

/-- R70, R253, 20_memory.md R71: the frame of every command form. Nothing of the host's changes, FATAL changes only with
EntropyFailure, and every byte of OUT_BUF outside the output stored at `outBase` reads as before. While IDLE no engine
step is enabled, and the meaning changes nothing (log 3). -/
def Obligations.CommandsChangeOnlyTheirResult : Prop :=
  ∀ (i : Instr) (s t : State), s.Inv → exec i s = .next t →
    EngineFrame s t ∧
    (t.status.fatal ≠ s.status.fatal → t.status.errCode = ErrCode.entropyFailure.code) ∧
    (s.busy = true → ∀ a, a < outBase ∨ outBase + t.outLen.toNat ≤ a → t.outBuf.read a = s.outBuf.read a) ∧
    (s.busy = false → t = s)

/-! ### Properties of the padding unit and of the modes -/

/-- 00_scope.md section 4, R190: `be128` and `to_be16` are inverse, byte 0 most significant. -/
def Obligations.CounterBytesAreBigEndian : Prop :=
  (∀ b : Block, be128 b < 2 ^ 128 ∧ toBe16 (be128 b) = b) ∧ (∀ n, n < 2 ^ 128 → be128 (toBe16 n) = n) ∧
  (∀ (n j : Nat), n < 2 ^ 128 → j < 16 → (blockGet (toBe16 n) j).toNat = n / 256 ^ (15 - j) % 256)

/-- R126: Unpad16 undoes Pad16 on every byte string, and Pad16's length is the next multiple of 16. -/
def Obligations.UnpadUndoesPad : Prop :=
  ∀ d : Bytes, unpad16 (pad16 d) = .ok d ∧ (pad16 d).length = 16 * (d.length / 16 + 1)

/-- R156: changing ciphertext block `i` of a CBC decryption, before any padding is stripped, changes plaintext block `i`
to `D(C_i') XOR C_{i-1}`, flips in block `i + 1` exactly the bits flipped, and leaves every other block unchanged. -/
def Obligations.CbcErrorReachesOnlyTheNextBlock : Prop :=
  ∀ (bp : Primitive) (key iv : Block) (cs : List Block) (i : Nat) (c' : Block), i < cs.length →
    let plain := fun (l : List Block) =>
      (runChunks (cbcDecTurn bp key) iv (chunks (l.flatMap blockBytes))).out
    blockAt (plain (cs.set i c')) i = xorBlock (bp.dec key c') (if i = 0 then iv else cs.getD (i - 1) zeroBlock) ∧
    (i + 1 < cs.length → blockAt (plain (cs.set i c')) (i + 1) =
      xorBlock (blockAt (plain cs) (i + 1)) (xorBlock (cs.getD i zeroBlock) c')) ∧
    (∀ j, j < cs.length → j ≠ i → j ≠ i + 1 → blockAt (plain (cs.set i c')) j = blockAt (plain cs) j)

/-- R157, R171, R184, R195 and the same for ECB: under a lawful primitive every mode's decryption undoes its
encryption. -/
def Obligations.EveryModeRoundTrips : Prop :=
  ∀ (m : Mode) (bp : Primitive) (key iv : Block) (p : Bytes), bp.Lawful →
    modeDec m bp key iv (modeEnc m bp key iv p) = .ok p

/-- The source's property E6 at the level of commands: if an ENC command gives an output, and that output fits as the
input of the matching DEC command (raw with the same IV, or transport reading the IV from it), the DEC command gives the
input back, in every mode. -/
def Obligations.DecryptingAnEncryptionGivesTheInputBack : Prop :=
  ∀ (env env' : Env) (w w' : Word) (snap : Snapshot) (out : Bytes), env.bp.Lawful → env'.bp = env.bp →
    env'.maxLen = env.maxLen → fieldOpc w = 1 → fieldOpc w' = 2 → reservedBitSet w' = false → fieldMode w' = fieldMode w →
    fieldAlg w' = fieldAlg w →
    (fieldXport w = false ∧ fieldXport w' = false ∧ fieldIvs w' = true ∨
      fieldXport w = true ∧ fieldXport w' = true ∧ fieldIvs w' = false) →
    muxExec env w snap = .ok out → out.length ≤ env.maxLen → out.length < 2 ^ 16 →
    muxExec env' w' { snap with data := out, inLen := BitVec.ofNat 16 out.length } = .ok snap.data

/-! ### 60_exceptions.md and 70_reset_and_hazards.md: whole-machine rules -/

/-- R49, R257: irq is bit 0 of CTRL and bit 1 of STATUS as a host reads them; and a step raises it only by completing a
command or by a host write that enables it. -/
def Obligations.IrqFollowsEnableAndDone : Prop :=
  (∀ s : State, s.irq = ((s.busRead .four 0x00008).getLsbD 0 && (s.busRead .four 0x00004).getLsbD 1)) ∧
  (∀ s t : State, step s = .next t → s.irq = false → t.irq = true →
    s.busy = true ∧ t.busy = false ∨ s.ie = false ∧ ∃ n a v, s.schedule.head? = some (.write n a v))

/-- R30, R259, R282: a step clears FATAL only by the reset input, and sets it only by completing with EntropyFailure. -/
def Obligations.OnlyResetClearsFatal : Prop :=
  ∀ s t : State, step s = .next t →
    (s.status.fatal = true → s.schedule.head? ≠ some .reset → t.status.fatal = true) ∧
    (s.status.fatal = false → t.status.fatal = true →
      s.busy = true ∧ t.busy = false ∧ t.status.errCode = ErrCode.entropyFailure.code)

/-- R29: a step sets OVR only by dropping a host write while BUSY, and clears it only by a 32-bit write to STATUS with bit
3 set while IDLE, or by reset. -/
def Obligations.OvrMarksDroppedWrites : Prop :=
  ∀ s t : State, step s = .next t →
    (s.status.ovr = false → t.status.ovr = true → s.busy = true ∧ ∃ n a v, s.schedule.head? = some (.write n a v)) ∧
    (s.status.ovr = true → t.status.ovr = false →
      s.schedule.head? = some .reset ∨
      s.busy = false ∧ ∃ e v, s.schedule.head? = some e ∧ IsStatusWrite e v ∧ v.getLsbD 3 = true)

/-- R27: a step sets DONE only by a completion, and clears it only by an acceptance, by a 32-bit write to STATUS with bit
1 set while IDLE, or by reset. -/
def Obligations.DoneMarksCompletions : Prop :=
  ∀ s t : State, step s = .next t →
    (s.status.done = false → t.status.done = true → s.busy = true ∧ t.busy = false) ∧
    (s.status.done = true → t.status.done = false →
      s.schedule.head? = some .reset ∨ s.busy = false ∧ t.busy = true ∨
      s.busy = false ∧ ∃ e v, s.schedule.head? = some e ∧ IsStatusWrite e v ∧ v.getLsbD 1 = true)

/-- R70: only host writes and reset change the inputs, and a write only while IDLE; the engine never does. -/
def Obligations.EngineNeverWritesTheInputs : Prop :=
  ∀ s t : State, step s = .next t → s.schedule.head? ≠ some .reset →
    (s.busy = true ∨ ∀ n a v, s.schedule.head? ≠ some (.write n a v)) →
    t.key = s.key ∧ t.keyLen = s.keyLen ∧ t.iv = s.iv ∧ t.ivLen = s.ivLen ∧ t.inLen = s.inLen ∧ t.inBuf = s.inBuf

/-- R71: besides reset, OUT_BUF and OUT_LEN change at exactly two instants of a command: acceptance and completion. -/
def Obligations.OutputChangesOnlyAtAcceptanceAndCompletion : Prop :=
  ∀ s t : State, step s = .next t → s.schedule.head? ≠ some .reset →
    (t.outBuf ≠ s.outBuf ∨ t.outLen ≠ s.outLen) →
    s.busy = false ∧ t.busy = true ∧ t.outBuf = Memory.zeroed ∧ t.outLen = 0 ∨ s.busy = true ∧ t.busy = false

/-- R221: two engine turns on the same word and snapshot that would get the same answer from RNG give the same output,
length and flags, FATAL among them, and leave the block IDLE, whatever else differs; with the same OVR, which no command
changes (R29), they give the same STATUS. -/
def Obligations.ResultDependsOnlyOnTheSnapshot : Prop :=
  ∀ (s s' t t' : State) (w : Word) (snap : Snapshot), s.Inv → s'.Inv → s.phase = .busy w snap → s'.phase = .busy w snap →
    s.rngAnswer = s'.rngAnswer → s.engineTurn = .next t → s'.engineTurn = .next t' →
    t.outBuf = t'.outBuf ∧ t.outLen = t'.outLen ∧ t.status.done = t'.status.done ∧ t.status.err = t'.status.err ∧
      t.status.errCode = t'.status.errCode ∧ t.status.fatal = t'.status.fatal ∧ t.phase = .idle ∧ t'.phase = .idle ∧
      (s.status.ovr = s'.status.ovr → statusWord t.busy t.status = statusWord t'.busy t'.status)

/-- R220, R288: no result depends on the latency: a host access between acceptance and completion, read or write, leaves
the completion what it would have been, but for OVR and what the port shows (log 13). -/
def Obligations.LatencyDoesNotChangeTheResult : Prop :=
  ∀ (s t u : State) (e : Event), s.busy = true → e ≠ .reset → e ≠ .engine → s.handle e = .next t →
    s.engineTurn = .next u →
    ∃ u', t.engineTurn = .next u' ∧
      u' = { u with status := { u.status with ovr := t.status.ovr }, rdata := t.rdata }

/-- R288: an accepted command completes: when the schedule has run out and the engine had one more turn, the block is
IDLE, whatever the schedule held. The schedule and its end are the model's choice (log 1, log 2). -/
def Obligations.EveryScheduleEndsIdle : Prop :=
  ∀ s : State, s.Inv → ∃ t, runSteps (s.schedule.length + 1) s = .next t ∧ t.phase = .idle ∧ t.schedule = []

/-- R250, R67: no step of the block stops: every access, command and event completes (log 17). -/
def Obligations.EveryStepAnswersANextState : Prop :=
  ∀ s : State, ∃ t, step s = .next t

/-- R280, R281: the reset input, a running command or not, sets every register to its reset value, aborts the command
without completing it, and fills the buffers with fresh draws. That the model's own fields of the environment go on is
the model's choice (log 19). -/
def Obligations.ResetInputClearsTheBlock : Prop :=
  ∀ (s : State) (es : List Event), s.schedule = .reset :: es →
    ∃ t, step s = .next t ∧ statusWord t.busy t.status = 0 ∧ t.ie = false ∧ t.keyLen = 0 ∧ t.ivLen = 0 ∧ t.inLen = 0 ∧
      t.outLen = 0 ∧ t.lastCmd = 0 ∧ t.key = zeroBlock ∧ t.iv = zeroBlock ∧ t.datapath.chain = zeroBlock ∧ t.phase = .idle ∧
      t.irq = false ∧ (∀ i, t.inByte i = Config.bufInit (s.epoch + 1) (0x10000 + i)) ∧
      (∀ i, t.outByte i = Config.bufInit (s.epoch + 1) (0x20000 + i)) ∧
      t.schedule = es ∧ t.rngDraws = s.rngDraws ∧ t.entropy = s.entropy ∧ t.rdata = s.rdata

/-- R283, R280: right after reset, at power-on or by the reset input, the block is IDLE and accepts a command at once, which
runs on the reset values: an ENC or DEC form with ALG 0 fails with InvalidKey, PAD gives sixteen bytes 0x10, UNPAD fails
with PaddingError. -/
def Obligations.CommandsRightAfterResetRunOnResetValues : Prop :=
  ∀ r : State, r = State.reset ∨ (∃ s : State, r = s.hardReset) →
    r.phase = .idle ∧
    (∀ (w : Word) (a : Offset), fieldOpc w ≠ 0 → a.toNat < 4 → r.hostWrite .four a w = .next (r.accept w)) ∧
    (∀ (i : Instr) (xport ivs : Bool) (w : Word), cipherFields i = some (0, xport, ivs) →
      ∃ t, exec i (r.accept w) = .next t ∧ EndsErr (r.accept w) t 0 .invalidKey) ∧
    (∀ (mode alg : Nat) (xport ivs : Bool) (w : Word),
      ∃ t, exec (.pad mode alg xport ivs) (r.accept w) = .next t ∧
        EndsOk (r.accept w) t 0 (List.replicate 16 0x10)) ∧
    (∀ (mode alg : Nat) (xport ivs : Bool) (w : Word),
      ∃ t, exec (.unpad mode alg xport ivs) (r.accept w) = .next t ∧ EndsErr (r.accept w) t 0 .paddingError)

/-- R50, R280: the state after power-on reset holds the values of R50's table, the buffers the draws of BUF_INIT (log 6),
and meets the invariant. Of the invariant, that the position is 0 and the pending output empty (log 11), and the canonical
form of the buffers (log 10), are the model's choice. -/
def Obligations.ResetMeetsTheInvariant : Prop :=
  State.reset.Inv ∧ statusWord State.reset.busy State.reset.status = 0 ∧ State.reset.ie = false ∧
    State.reset.keyLen = 0 ∧ State.reset.ivLen = 0 ∧ State.reset.inLen = 0 ∧ State.reset.outLen = 0 ∧
    State.reset.lastCmd = 0 ∧ State.reset.key = zeroBlock ∧ State.reset.iv = zeroBlock ∧
    State.reset.datapath.chain = zeroBlock ∧ State.reset.phase = .idle ∧ State.reset.irq = false ∧
    (∀ i, State.reset.inByte i = Config.bufInit 0 (0x10000 + i)) ∧
    (∀ i, State.reset.outByte i = Config.bufInit 0 (0x20000 + i))

/-- R27, R28, R36, R43, R44, R48, R206, R251, R259, R285: every step from a state that meets the invariant gives a state that
meets it. Of the invariant, that the position is 0 and the pending output empty between steps (log 11; R48 gives CHAIN
only), and the canonical form of the buffers (log 10), are the model's choice. -/
def Obligations.EveryStepKeepsTheInvariant : Prop :=
  ∀ s t : State, s.Inv → step s = .next t → t.Inv
end

