-- ==== Sys2Proof/Laws/Blocks.lean ====
section
/-! SUPPORT. Lengths and small facts of byte strings, blocks, chunks and the datapath, one spec lemma per function. -/

namespace Sys2Proof.Machine

/-! ### Blocks -/

@[simp] theorem blockBytes_length (b : Block) : (blockBytes b).length = 16 := by simp [blockBytes]

/-- A block is its bytes. -/
theorem blockBytes_inj {a b : Block} (h : blockBytes a = blockBytes b) : a = b := by
  exact Vector.toList_inj.1 h

theorem blockBytes_blockOf (c : Bytes) : blockBytes (blockOf c) = (c ++ List.replicate 16 0).take 16 := rfl

/-- A chunk of 16 bytes is its block's bytes. -/
theorem blockBytes_blockOf_full {c : Bytes} (h : c.length = 16) : blockBytes (blockOf c) = c := by
  rw [blockBytes_blockOf, List.take_append_of_le_length (by omega), List.take_of_length_le (by omega)]

@[simp] theorem blockOf_blockBytes (b : Block) : blockOf (blockBytes b) = b :=
  blockBytes_inj (blockBytes_blockOf_full (blockBytes_length b))

@[simp] theorem xorBytes_length (a b : Bytes) : (xorBytes a b).length = min a.length b.length := by
  simp [xorBytes]

@[simp] theorem xorBytes_nil (b : Bytes) : xorBytes [] b = [] := rfl

theorem blockBytes_xorBlock (a b : Block) : blockBytes (xorBlock a b) = xorBytes (blockBytes a) (blockBytes b) :=
  blockBytes_blockOf_full (by simp)

/-- Truncating XOR with the same string twice gives the chunk back. -/
theorem xorBytes_cancel {a b : Bytes} (h : a.length ≤ b.length) : xorBytes (xorBytes a b) b = a := by
  apply List.ext_getElem
  · simp; omega
  · intro i h1 h2
    simp [xorBytes]

/-- XOR with the same block twice gives the block back. -/
theorem xorBlock_cancel (a b : Block) : xorBlock (xorBlock a b) b = a :=
  blockBytes_inj (by rw [blockBytes_xorBlock, blockBytes_xorBlock, xorBytes_cancel (by simp)])

/-- The XOR of two differences that share a middle block is the outer difference. -/
theorem xorBlock_telescope (a b c : Block) : xorBlock (xorBlock a b) (xorBlock b c) = xorBlock a c := by
  apply blockBytes_inj
  rw [blockBytes_xorBlock, blockBytes_xorBlock, blockBytes_xorBlock, blockBytes_xorBlock]
  apply List.ext_getElem (by simp)
  intro i h1 h2
  simp only [xorBytes, List.getElem_zipWith, BitVec.xor_assoc]
  rw [← BitVec.xor_assoc ((blockBytes b)[i]'(by simp at h1 ⊢; omega)), BitVec.xor_self, BitVec.zero_xor]

/-! ### Chunks -/

@[simp] theorem chunks_nil : chunks [] = [] := rfl

theorem chunksUpTo_append {n : Nat} {d : Bytes} (h : d.length ≤ n) : (chunksUpTo n d).flatten = d := by
  induction n generalizing d with
  | zero => simp [List.length_eq_zero_iff.1 (Nat.le_zero.1 h), chunksUpTo]
  | succ n ih =>
    cases d with
    | nil => rfl
    | cons x xs =>
      simp only [List.length_cons] at h
      rw [chunksUpTo, List.flatten_cons, ih (by simp; omega), List.take_append_drop]

/-- The chunks of a string put together are the string. -/
theorem chunks_flatten (d : Bytes) : (chunks d).flatten = d := chunksUpTo_append (Nat.le_refl _)

theorem chunksUpTo_enough {n m : Nat} {d : Bytes} (hn : d.length ≤ n) (hm : d.length ≤ m) :
    chunksUpTo n d = chunksUpTo m d := by
  induction n generalizing m d with
  | zero =>
    obtain rfl := List.length_eq_zero_iff.1 (Nat.le_zero.1 hn)
    cases m <;> rfl
  | succ n ih =>
    cases d with
    | nil => cases m <;> rfl
    | cons x xs =>
      simp only [List.length_cons] at hn hm
      cases m with
      | zero => omega
      | succ m =>
        rw [chunksUpTo, chunksUpTo, ih (m := m) (by simp; omega) (by simp; omega)]

/-- A non-empty string's chunks are its first 16 bytes and the chunks of the rest. -/
theorem chunks_step {d : Bytes} (h : d ≠ []) : chunks d = d.take 16 :: chunks (d.drop 16) := by
  cases d with
  | nil => exact absurd rfl h
  | cons x xs =>
    show chunksUpTo (xs.length + 1) (x :: xs) = _
    rw [chunksUpTo]
    unfold chunks
    rw [chunksUpTo_enough (m := ((x :: xs).drop 16).length) (by simp) (Nat.le_refl _)]

/-- A first whole chunk splits off. -/
theorem chunks_append {c d : Bytes} (h : c.length = 16) : chunks (c ++ d) = c :: chunks d := by
  have hne : c ++ d ≠ [] := by intro e; rw [List.append_eq_nil_iff] at e; simp [e.1] at h
  rw [chunks_step hne, List.take_append_of_le_length (by omega), List.drop_append_of_le_length (by omega)]
  rw [List.take_of_length_le (by omega), List.drop_of_length_le (by omega), List.nil_append]

/-- Every chunk has at most 16 bytes. -/
theorem chunks_length_le {d : Bytes} {c : Bytes} (h : c ∈ chunks d) : c.length ≤ 16 := by
  have key : ∀ n, ∀ d : Bytes, c ∈ chunksUpTo n d → c.length ≤ 16 := by
    intro n
    induction n with
    | zero => intro d h; simp [chunksUpTo] at h
    | succ n ih =>
      intro d h
      cases d with
      | nil => simp [chunksUpTo] at h
      | cons x xs =>
        rw [chunksUpTo, List.mem_cons] at h
        rcases h with rfl | h
        · simp
        · exact ih _ h
  exact key _ _ h

/-- Every chunk of a string of whole blocks has 16 bytes. -/
theorem chunks_length_eq {d : Bytes} (hd : d.length % 16 = 0) {c : Bytes} (h : c ∈ chunks d) : c.length = 16 := by
  have key : ∀ n, ∀ d : Bytes, d.length % 16 = 0 → c ∈ chunksUpTo n d → c.length = 16 := by
    intro n
    induction n with
    | zero => intro d _ h; simp [chunksUpTo] at h
    | succ n ih =>
      intro d hd h
      cases d with
      | nil => simp [chunksUpTo] at h
      | cons x xs =>
        rw [chunksUpTo, List.mem_cons] at h
        rcases h with rfl | h
        · simp only [List.length_cons] at hd
          simp; omega
        · refine ih _ ?_ h
          simp only [List.length_cons] at hd
          simp; omega
  exact key _ _ hd h

/-! ### The datapath -/

@[simp] theorem emit_chain (d : Datapath) (c : Block) (o : Bytes) : (d.emit c o).chain = c := rfl
@[simp] theorem emit_next (d : Datapath) (c : Block) (o : Bytes) : (d.emit c o).next = d.next + 1 := rfl
@[simp] theorem emit_out (d : Datapath) (c : Block) (o : Bytes) : (d.emit c o).out = d.out ++ o := rfl

/-- A turn that puts out `size x` bytes for each chunk `x` puts out the sum of them for all chunks. -/
theorem foldl_out_length {turn : Datapath → Bytes → Datapath} {size : Bytes → Nat} (xs : List Bytes) (d : Datapath)
    (h : ∀ d x, x ∈ xs → (turn d x).out.length = d.out.length + size x) :
    (xs.foldl turn d).out.length = d.out.length + (xs.map size).sum := by
  induction xs generalizing d with
  | nil => simp
  | cons x xs ih =>
    rw [List.foldl_cons, ih _ (fun d y hy => h d y (List.mem_cons_of_mem _ hy)), h d x List.mem_cons_self]
    simp [Nat.add_assoc]

theorem sum_map_length (xs : List Bytes) : (xs.map List.length).sum = xs.flatten.length := by
  simp [List.length_flatten]

/-- A transform whose turns put out as many bytes as the chunk has keeps the length. -/
theorem runChunks_out_length {turn : Datapath → Bytes → Datapath} (seed : Block) (d : Bytes)
    (h : ∀ p x, x ∈ chunks d → (turn p x).out.length = p.out.length + x.length) :
    (runChunks turn seed (chunks d)).out.length = d.length := by
  unfold runChunks
  rw [foldl_out_length (size := List.length) _ _ h, sum_map_length, chunks_flatten]
  simp

/-! ### Lengths of the transforms -/

theorem pad16_length (d : Bytes) : (pad16 d).length = 16 * (d.length / 16 + 1) := by
  simp only [pad16, padCount, List.length_append, List.length_replicate]
  omega

@[simp] theorem ecbEnc_length (bp : Primitive) (key : Block) (p : Bytes) :
    (ecbEnc bp key p).length = 16 * (p.length / 16 + 1) := by
  unfold ecbEnc
  rw [runChunks_out_length, pad16_length]
  intro d x hx
  simp [ecbEncTurn, chunks_length_eq (by rw [pad16_length]; omega) hx]

@[simp] theorem cbcEnc_length (bp : Primitive) (key iv : Block) (p : Bytes) :
    (cbcEnc bp key iv p).length = 16 * (p.length / 16 + 1) := by
  unfold cbcEnc
  rw [runChunks_out_length, pad16_length]
  intro d x hx
  simp [cbcEncTurn, chunks_length_eq (by rw [pad16_length]; omega) hx]

@[simp] theorem cfbEnc_length (bp : Primitive) (key iv : Block) (p : Bytes) : (cfbEnc bp key iv p).length = p.length := by
  unfold cfbEnc
  rw [runChunks_out_length]
  intro d x hx
  simp [cfbEncTurn, chunks_length_le hx]

@[simp] theorem cfbDec_length (bp : Primitive) (key iv : Block) (c : Bytes) : (cfbDec bp key iv c).length = c.length := by
  unfold cfbDec
  rw [runChunks_out_length]
  intro d x hx
  simp [cfbDecTurn, chunks_length_le hx]

@[simp] theorem ofb_length (bp : Primitive) (key iv : Block) (x : Bytes) : (ofb bp key iv x).length = x.length := by
  unfold ofb
  rw [runChunks_out_length]
  intro d x hx
  simp [ofbTurn, chunks_length_le hx]

@[simp] theorem ctr_length (bp : Primitive) (key iv : Block) (x : Bytes) : (ctr bp key iv x).length = x.length := by
  unfold ctr
  rw [runChunks_out_length]
  intro d x hx
  simp [ctrTurn, chunks_length_le hx]

/-- What Unpad16 gives is no longer than its input. -/
theorem unpad16_length_le {q d : Bytes} (h : unpad16 q = .ok d) : d.length ≤ q.length := by
  unfold unpad16 at h
  split at h
  · cases h
  · split at h
    · cases h
    · split at h
      · cases h
      · cases h; simp

end Sys2Proof.Machine
end

