-- ==== Sys2Proof/Laws/Config.lean ====
section
/-! SUPPORT. What the spec assumes of the parameters (spec/00_scope.md R8, spec/40_block_primitive.md R111). -/

namespace Sys2Proof

/-- MAX_LEN is a multiple of 16 from 32 to 65504 (R8). -/
theorem maxLen_range : Config.maxLen % 16 = 0 ∧ 32 ≤ Config.maxLen ∧ Config.maxLen ≤ 65504 := by
  have h := Config.capacityIndex.isLt
  unfold Config.maxLen
  omega

/-- BP is a permutation for every key (40_block_primitive.md R111). -/
theorem bp_lawful : Config.bp.Lawful :=
  ⟨fun k x => (Config.permutation k).symm_apply_apply x, fun k y => (Config.permutation k).apply_symm_apply y⟩

/-- BASE is a multiple of 0x40000 (20_memory.md R61). -/
theorem base_multiple : Config.base % 0x40000 = 0 := by
  unfold Config.base
  omega

@[simp] theorem env_maxLen (a : Option Block) : (Config.env a).maxLen = Config.maxLen := rfl
@[simp] theorem env_bp (a : Option Block) : (Config.env a).bp = Config.bp := rfl
@[simp] theorem env_rng (a : Option Block) : (Config.env a).rng = a := rfl

end Sys2Proof
end

