-- ==== Sys2Proof/Laws/Memory.lean ====
section
/-! SUPPORT. The laws of the buffers: a read after a write, a write leaves every other offset alone, and every
operation keeps the canonical form. -/

namespace Sys2Proof.Machine

/-! ### Cells -/

@[simp] theorem cellsGet_put_same (a : Nat) (x : Byte) (cs : List Host.Cell) :
    cellsGet (cellsPut a x cs) a = some x := by
  induction cs with
  | nil => simp [cellsPut, cellsGet]
  | cons c cs ih =>
    obtain ⟨b, y⟩ := c
    by_cases h1 : a < b
    · simp [cellsPut, cellsGet, h1]
    · by_cases h2 : a = b
      · simp [cellsPut, cellsGet, h2]
      · simp [cellsPut, cellsGet, h1, h2, Ne.symm h2, ih]

theorem cellsGet_put_other {a b : Nat} (h : b ≠ a) (x : Byte) (cs : List Host.Cell) :
    cellsGet (cellsPut a x cs) b = cellsGet cs b := by
  induction cs with
  | nil => simp [cellsPut, cellsGet, h.symm]
  | cons c cs ih =>
    obtain ⟨b', y⟩ := c
    by_cases h1 : a < b'
    · simp [cellsPut, cellsGet, h1, h.symm]
    · by_cases h2 : a = b'
      · subst h2; simp [cellsPut, cellsGet, h.symm]
      · simp [cellsPut, cellsGet, h1, h2, ih]

theorem cellsDrop_cons (a b : Nat) (y : Byte) (cs : List Host.Cell) :
    cellsDrop a ((b, y) :: cs) = if b = a then cellsDrop a cs else (b, y) :: cellsDrop a cs := by
  by_cases h : b = a <;> simp [cellsDrop, h]

@[simp] theorem cellsGet_drop_same (a : Nat) (cs : List Host.Cell) : cellsGet (cellsDrop a cs) a = none := by
  induction cs with
  | nil => rfl
  | cons c cs ih =>
    obtain ⟨b, y⟩ := c
    by_cases h : b = a <;> simp [cellsDrop_cons, cellsGet, h, ih]

theorem cellsGet_drop_other {a b : Nat} (h : b ≠ a) (cs : List Host.Cell) :
    cellsGet (cellsDrop a cs) b = cellsGet cs b := by
  induction cs with
  | nil => rfl
  | cons c cs ih =>
    obtain ⟨b', y⟩ := c
    by_cases h1 : b' = a
    · subst h1; simp [cellsDrop_cons, cellsGet, h.symm, ih]
    · by_cases h2 : b' = b <;> simp [cellsDrop_cons, cellsGet, h1, h2, h, ih]

/-- A cell of the list with `x` put at `a` is the new one or an old one at another offset. -/
theorem mem_cellsPut {a : Nat} {x : Byte} {cs : List Host.Cell} {c : Host.Cell} (h : c ∈ cellsPut a x cs) :
    c = (a, x) ∨ c ∈ cs := by
  induction cs with
  | nil => simpa [cellsPut] using h
  | cons d ds ih =>
    obtain ⟨b, y⟩ := d
    unfold cellsPut at h
    split at h
    · simpa using h
    · split at h
      · simp only [List.mem_cons] at h ⊢; tauto
      · rw [List.mem_cons] at h
        rcases h with h | h
        · exact .inr (h ▸ List.mem_cons_self)
        · exact (ih h).imp id (List.mem_cons_of_mem _)

theorem cellsPut_sorted {a : Nat} {x : Byte} {cs : List Host.Cell} (h : cs.Pairwise (fun c d => c.1 < d.1)) :
    (cellsPut a x cs).Pairwise (fun c d => c.1 < d.1) := by
  induction cs with
  | nil => simp [cellsPut]
  | cons c cs ih =>
    obtain ⟨b, y⟩ := c
    rw [List.pairwise_cons] at h
    unfold cellsPut
    split
    · rename_i hab
      refine List.pairwise_cons.2 ⟨?_, List.pairwise_cons.2 h⟩
      intro d hd
      rcases List.mem_cons.1 hd with rfl | hd
      · exact hab
      · exact Nat.lt_trans hab (h.1 d hd)
    · split
      · rename_i hab
        subst hab
        exact List.pairwise_cons.2 h
      · refine List.pairwise_cons.2 ⟨?_, ih h.2⟩
        intro d hd
        rcases mem_cellsPut hd with rfl | hd
        · simp only; omega
        · exact h.1 d hd

/-! ### Reading and writing one byte -/

@[simp] theorem write_background (m : Memory) (a : Nat) (x : Byte) : (m.write a x).background = m.background := rfl

@[simp] theorem write_unlisted (m : Memory) (a b : Nat) (x : Byte) : (m.write a x).unlisted b = m.unlisted b := rfl

/-- A read after a write to the same offset gives the byte written. -/
@[simp] theorem read_write_same (m : Memory) (a : Nat) (x : Byte) : (m.write a x).read a = x := by
  unfold Memory.read
  rw [write_unlisted]
  unfold Memory.write
  by_cases h : x = m.unlisted a <;> simp [h]

/-- A write leaves every other offset alone. -/
theorem read_write_other {a b : Nat} (h : b ≠ a) (m : Memory) (x : Byte) : (m.write a x).read b = m.read b := by
  unfold Memory.read
  rw [write_unlisted]
  unfold Memory.write
  by_cases hx : x = m.unlisted a <;> simp [hx, cellsGet_put_other h, cellsGet_drop_other h]

/-- A write keeps the canonical form. -/
theorem write_wf {m : Memory} (h : m.wf) (a : Nat) (x : Byte) : (m.write a x).wf := by
  obtain ⟨hs, hn⟩ := h
  by_cases hx : x = m.unlisted a
  · have e : (m.write a x).cells = cellsDrop a m.cells := by simp [Memory.write, hx]
    refine ⟨e ▸ hs.filter _, fun c hc => ?_⟩
    rw [e] at hc
    exact hn c (List.mem_of_mem_filter hc)
  · have e : (m.write a x).cells = cellsPut a x m.cells := by simp [Memory.write, hx]
    refine ⟨e ▸ cellsPut_sorted hs, fun c hc => ?_⟩
    rw [e] at hc
    rcases mem_cellsPut hc with rfl | hc
    · exact hx
    · exact hn c hc

/-- A write inside a window keeps every cell in the window. -/
theorem write_within {m : Memory} {lo hi : Nat} (h : m.within lo hi) {a : Nat} (ha : lo ≤ a ∧ a < hi) (x : Byte) :
    (m.write a x).within lo hi := by
  intro c hc
  by_cases hx : x = m.unlisted a
  · have e : (m.write a x).cells = cellsDrop a m.cells := by simp [Memory.write, hx]
    rw [e] at hc
    exact h c (List.mem_of_mem_filter hc)
  · have e : (m.write a x).cells = cellsPut a x m.cells := by simp [Memory.write, hx]
    rw [e] at hc
    rcases mem_cellsPut hc with rfl | hc
    · exact ha
    · exact h c hc

/-! ### Byte strings -/

@[simp] theorem writeBytes_nil (m : Memory) (a : Nat) : m.writeBytes a [] = m := rfl

@[simp] theorem writeBytes_background (m : Memory) (a : Nat) (xs : Bytes) :
    (m.writeBytes a xs).background = m.background := by
  induction xs generalizing m a with
  | nil => rfl
  | cons x xs ih => simp [Memory.writeBytes, ih]

/-- Bytes below the string written keep their values. -/
theorem read_writeBytes_below {m : Memory} {a b : Nat} (h : b < a) (xs : Bytes) :
    (m.writeBytes a xs).read b = m.read b := by
  induction xs generalizing m a with
  | nil => rfl
  | cons x xs ih =>
    rw [Memory.writeBytes, ih (by omega), read_write_other (by omega)]

/-- Byte `i` of the string written reads back; from its end on, bytes keep their values. -/
theorem read_writeBytes (m : Memory) (a i : Nat) (xs : Bytes) :
    (m.writeBytes a xs).read (a + i) = if h : i < xs.length then xs[i] else m.read (a + i) := by
  induction xs generalizing m a i with
  | nil => simp
  | cons x xs ih =>
    cases i with
    | zero => rw [Memory.writeBytes, Nat.add_zero, read_writeBytes_below (by omega)]; simp
    | succ i =>
      have e : a + (i + 1) = a + 1 + i := by omega
      rw [Memory.writeBytes, e, ih]
      simp only [List.length_cons, Nat.add_lt_add_iff_right, List.getElem_cons_succ]
      split
      · rfl
      · exact read_write_other (by omega) _ _

theorem writeBytes_wf {m : Memory} (h : m.wf) (a : Nat) (xs : Bytes) : (m.writeBytes a xs).wf := by
  induction xs generalizing m a with
  | nil => exact h
  | cons x xs ih => exact ih (write_wf h a x) (a + 1)

theorem writeBytes_within {m : Memory} {lo hi : Nat} (h : m.within lo hi) {a : Nat} (xs : Bytes)
    (ha : lo ≤ a ∧ a + xs.length ≤ hi) : (m.writeBytes a xs).within lo hi := by
  induction xs generalizing m a with
  | nil => exact h
  | cons x xs ih =>
    simp only [List.length_cons] at ha
    exact ih (write_within h (by omega) x) (by omega)

@[simp] theorem readBytes_length (m : Memory) (a n : Nat) : (m.readBytes a n).length = n := by
  simp [Memory.readBytes]

theorem readBytes_getElem (m : Memory) (a n i : Nat) (h : i < (m.readBytes a n).length) :
    (m.readBytes a n)[i] = m.read (a + i) := by
  simp [Memory.readBytes]

/-! ### Cleared and fresh buffers -/

@[simp] theorem zeroed_background : Memory.zeroed.background = .zero := rfl

@[simp] theorem zeroed_read (a : Nat) : Memory.zeroed.read a = 0 := rfl

theorem zeroed_wf : Memory.zeroed.wf := ⟨List.Pairwise.nil, fun _ h => by simp [Memory.zeroed] at h⟩

theorem zeroed_within (lo hi : Nat) : Memory.zeroed.within lo hi := by simp [Memory.zeroed]

@[simp] theorem drawn_read (epoch a : Nat) : (Memory.drawn epoch).read a = Config.bufInit epoch a := rfl

theorem drawn_wf (epoch : Nat) : (Memory.drawn epoch).wf :=
  ⟨List.Pairwise.nil, fun _ h => by simp [Memory.drawn] at h⟩

theorem drawn_within (epoch lo hi : Nat) : (Memory.drawn epoch).within lo hi := by simp [Memory.drawn]

theorem reset_inBuf_wf : State.reset.inBuf.wf := drawn_wf 0

theorem reset_outBuf_wf : State.reset.outBuf.wf := drawn_wf 0

end Sys2Proof.Machine
end

