-- ==== Sys2Proof/Laws/State.lean ====
section
/-! SUPPORT. What each named update of the state does to each field, and each flag operation to each flag: one lemma
per field per update, so that no later proof unfolds a record update. -/

namespace Sys2Proof.Machine


/-! ### Acceptance (R206) -/

@[simp] theorem accept_status (s : State) (w : Word) : (s.accept w).status = s.status.accepted := rfl
@[simp] theorem accept_ie (s : State) (w : Word) : (s.accept w).ie = s.ie := rfl
@[simp] theorem accept_keyLen (s : State) (w : Word) : (s.accept w).keyLen = s.keyLen := rfl
@[simp] theorem accept_ivLen (s : State) (w : Word) : (s.accept w).ivLen = s.ivLen := rfl
@[simp] theorem accept_inLen (s : State) (w : Word) : (s.accept w).inLen = s.inLen := rfl
@[simp] theorem accept_outLen (s : State) (w : Word) : (s.accept w).outLen = 0 := rfl
@[simp] theorem accept_lastCmd (s : State) (w : Word) : (s.accept w).lastCmd = w := rfl
@[simp] theorem accept_key (s : State) (w : Word) : (s.accept w).key = s.key := rfl
@[simp] theorem accept_iv (s : State) (w : Word) : (s.accept w).iv = s.iv := rfl
@[simp] theorem accept_inBuf (s : State) (w : Word) : (s.accept w).inBuf = s.inBuf := rfl
@[simp] theorem accept_outBuf (s : State) (w : Word) : (s.accept w).outBuf = Memory.zeroed := rfl
@[simp] theorem accept_phase (s : State) (w : Word) : (s.accept w).phase = .busy w s.snapshot := rfl
@[simp] theorem accept_datapath (s : State) (w : Word) : (s.accept w).datapath = s.datapath := rfl
@[simp] theorem accept_rngDraws (s : State) (w : Word) : (s.accept w).rngDraws = s.rngDraws := rfl
@[simp] theorem accept_entropy (s : State) (w : Word) : (s.accept w).entropy = s.entropy := rfl
@[simp] theorem accept_epoch (s : State) (w : Word) : (s.accept w).epoch = s.epoch := rfl
@[simp] theorem accept_schedule (s : State) (w : Word) : (s.accept w).schedule = s.schedule := rfl
@[simp] theorem accept_rdata (s : State) (w : Word) : (s.accept w).rdata = s.rdata := rfl

/-! ### Completion with a result (R219) -/

@[simp] theorem completeOk_status (s : State) (out : Bytes) : (s.completeOk out).status = s.status.completedOk := rfl
@[simp] theorem completeOk_ie (s : State) (out : Bytes) : (s.completeOk out).ie = s.ie := rfl
@[simp] theorem completeOk_keyLen (s : State) (out : Bytes) : (s.completeOk out).keyLen = s.keyLen := rfl
@[simp] theorem completeOk_ivLen (s : State) (out : Bytes) : (s.completeOk out).ivLen = s.ivLen := rfl
@[simp] theorem completeOk_inLen (s : State) (out : Bytes) : (s.completeOk out).inLen = s.inLen := rfl
@[simp] theorem completeOk_outLen (s : State) (out : Bytes) :
    (s.completeOk out).outLen = BitVec.ofNat 17 out.length := rfl
@[simp] theorem completeOk_lastCmd (s : State) (out : Bytes) : (s.completeOk out).lastCmd = s.lastCmd := rfl
@[simp] theorem completeOk_key (s : State) (out : Bytes) : (s.completeOk out).key = s.key := rfl
@[simp] theorem completeOk_iv (s : State) (out : Bytes) : (s.completeOk out).iv = s.iv := rfl
@[simp] theorem completeOk_inBuf (s : State) (out : Bytes) : (s.completeOk out).inBuf = s.inBuf := rfl
@[simp] theorem completeOk_outBuf (s : State) (out : Bytes) :
    (s.completeOk out).outBuf = s.outBuf.writeBytes outBase out := rfl
@[simp] theorem completeOk_phase (s : State) (out : Bytes) : (s.completeOk out).phase = .idle := rfl
@[simp] theorem completeOk_datapath (s : State) (out : Bytes) : (s.completeOk out).datapath = Datapath.rest := rfl
@[simp] theorem completeOk_rngDraws (s : State) (out : Bytes) : (s.completeOk out).rngDraws = s.rngDraws := rfl
@[simp] theorem completeOk_entropy (s : State) (out : Bytes) : (s.completeOk out).entropy = s.entropy := rfl
@[simp] theorem completeOk_epoch (s : State) (out : Bytes) : (s.completeOk out).epoch = s.epoch := rfl
@[simp] theorem completeOk_schedule (s : State) (out : Bytes) : (s.completeOk out).schedule = s.schedule := rfl
@[simp] theorem completeOk_rdata (s : State) (out : Bytes) : (s.completeOk out).rdata = s.rdata := rfl

/-! ### Completion with an error (R253) -/

@[simp] theorem completeErr_status (s : State) (e : ErrCode) : (s.completeErr e).status = s.status.completedErr e := rfl
@[simp] theorem completeErr_ie (s : State) (e : ErrCode) : (s.completeErr e).ie = s.ie := rfl
@[simp] theorem completeErr_keyLen (s : State) (e : ErrCode) : (s.completeErr e).keyLen = s.keyLen := rfl
@[simp] theorem completeErr_ivLen (s : State) (e : ErrCode) : (s.completeErr e).ivLen = s.ivLen := rfl
@[simp] theorem completeErr_inLen (s : State) (e : ErrCode) : (s.completeErr e).inLen = s.inLen := rfl
@[simp] theorem completeErr_outLen (s : State) (e : ErrCode) : (s.completeErr e).outLen = 0 := rfl
@[simp] theorem completeErr_lastCmd (s : State) (e : ErrCode) : (s.completeErr e).lastCmd = s.lastCmd := rfl
@[simp] theorem completeErr_key (s : State) (e : ErrCode) : (s.completeErr e).key = s.key := rfl
@[simp] theorem completeErr_iv (s : State) (e : ErrCode) : (s.completeErr e).iv = s.iv := rfl
@[simp] theorem completeErr_inBuf (s : State) (e : ErrCode) : (s.completeErr e).inBuf = s.inBuf := rfl
@[simp] theorem completeErr_outBuf (s : State) (e : ErrCode) : (s.completeErr e).outBuf = Memory.zeroed := rfl
@[simp] theorem completeErr_phase (s : State) (e : ErrCode) : (s.completeErr e).phase = .idle := rfl
@[simp] theorem completeErr_datapath (s : State) (e : ErrCode) : (s.completeErr e).datapath = Datapath.rest := rfl
@[simp] theorem completeErr_rngDraws (s : State) (e : ErrCode) : (s.completeErr e).rngDraws = s.rngDraws := rfl
@[simp] theorem completeErr_entropy (s : State) (e : ErrCode) : (s.completeErr e).entropy = s.entropy := rfl
@[simp] theorem completeErr_epoch (s : State) (e : ErrCode) : (s.completeErr e).epoch = s.epoch := rfl
@[simp] theorem completeErr_schedule (s : State) (e : ErrCode) : (s.completeErr e).schedule = s.schedule := rfl
@[simp] theorem completeErr_rdata (s : State) (e : ErrCode) : (s.completeErr e).rdata = s.rdata := rfl

/-! ### Either completion -/

@[simp] theorem complete_ie (s : State) (r : Except ErrCode Bytes) : (s.complete r).ie = s.ie := by cases r <;> rfl
@[simp] theorem complete_keyLen (s : State) (r : Except ErrCode Bytes) :
    (s.complete r).keyLen = s.keyLen := by cases r <;> rfl
@[simp] theorem complete_ivLen (s : State) (r : Except ErrCode Bytes) :
    (s.complete r).ivLen = s.ivLen := by cases r <;> rfl
@[simp] theorem complete_inLen (s : State) (r : Except ErrCode Bytes) :
    (s.complete r).inLen = s.inLen := by cases r <;> rfl
@[simp] theorem complete_lastCmd (s : State) (r : Except ErrCode Bytes) :
    (s.complete r).lastCmd = s.lastCmd := by cases r <;> rfl
@[simp] theorem complete_key (s : State) (r : Except ErrCode Bytes) : (s.complete r).key = s.key := by cases r <;> rfl
@[simp] theorem complete_iv (s : State) (r : Except ErrCode Bytes) : (s.complete r).iv = s.iv := by cases r <;> rfl
@[simp] theorem complete_inBuf (s : State) (r : Except ErrCode Bytes) :
    (s.complete r).inBuf = s.inBuf := by cases r <;> rfl
@[simp] theorem complete_phase (s : State) (r : Except ErrCode Bytes) :
    (s.complete r).phase = .idle := by cases r <;> rfl
@[simp] theorem complete_datapath (s : State) (r : Except ErrCode Bytes) :
    (s.complete r).datapath = Datapath.rest := by cases r <;> rfl
@[simp] theorem complete_rngDraws (s : State) (r : Except ErrCode Bytes) :
    (s.complete r).rngDraws = s.rngDraws := by cases r <;> rfl
@[simp] theorem complete_entropy (s : State) (r : Except ErrCode Bytes) :
    (s.complete r).entropy = s.entropy := by cases r <;> rfl
@[simp] theorem complete_epoch (s : State) (r : Except ErrCode Bytes) :
    (s.complete r).epoch = s.epoch := by cases r <;> rfl
@[simp] theorem complete_schedule (s : State) (r : Except ErrCode Bytes) :
    (s.complete r).schedule = s.schedule := by cases r <;> rfl
@[simp] theorem complete_rdata (s : State) (r : Except ErrCode Bytes) :
    (s.complete r).rdata = s.rdata := by cases r <;> rfl
@[simp] theorem complete_ok (s : State) (out : Bytes) : s.complete (.ok out) = s.completeOk out := rfl
@[simp] theorem complete_error (s : State) (e : ErrCode) : s.complete (.error e) = s.completeErr e := rfl

/-! ### A draw of RNG (R236) -/

@[simp] theorem takeDraw_status (s : State) (b : Bool) : (s.takeDraw b).status = s.status := rfl
@[simp] theorem takeDraw_ie (s : State) (b : Bool) : (s.takeDraw b).ie = s.ie := rfl
@[simp] theorem takeDraw_keyLen (s : State) (b : Bool) : (s.takeDraw b).keyLen = s.keyLen := rfl
@[simp] theorem takeDraw_ivLen (s : State) (b : Bool) : (s.takeDraw b).ivLen = s.ivLen := rfl
@[simp] theorem takeDraw_inLen (s : State) (b : Bool) : (s.takeDraw b).inLen = s.inLen := rfl
@[simp] theorem takeDraw_outLen (s : State) (b : Bool) : (s.takeDraw b).outLen = s.outLen := rfl
@[simp] theorem takeDraw_lastCmd (s : State) (b : Bool) : (s.takeDraw b).lastCmd = s.lastCmd := rfl
@[simp] theorem takeDraw_key (s : State) (b : Bool) : (s.takeDraw b).key = s.key := rfl
@[simp] theorem takeDraw_iv (s : State) (b : Bool) : (s.takeDraw b).iv = s.iv := rfl
@[simp] theorem takeDraw_inBuf (s : State) (b : Bool) : (s.takeDraw b).inBuf = s.inBuf := rfl
@[simp] theorem takeDraw_outBuf (s : State) (b : Bool) : (s.takeDraw b).outBuf = s.outBuf := rfl
@[simp] theorem takeDraw_phase (s : State) (b : Bool) : (s.takeDraw b).phase = s.phase := rfl
@[simp] theorem takeDraw_datapath (s : State) (b : Bool) : (s.takeDraw b).datapath = s.datapath := rfl
@[simp] theorem takeDraw_rngDraws (s : State) (b : Bool) : (s.takeDraw b).rngDraws = s.rngDraws + b.toNat := rfl
@[simp] theorem takeDraw_entropy (s : State) (b : Bool) : (s.takeDraw b).entropy = s.entropy.drop b.toNat := rfl
@[simp] theorem takeDraw_epoch (s : State) (b : Bool) : (s.takeDraw b).epoch = s.epoch := rfl
@[simp] theorem takeDraw_schedule (s : State) (b : Bool) : (s.takeDraw b).schedule = s.schedule := rfl
@[simp] theorem takeDraw_rdata (s : State) (b : Bool) : (s.takeDraw b).rdata = s.rdata := rfl
@[simp] theorem takeDraw_false (s : State) : s.takeDraw false = s := rfl

/-! ### Power-on reset (R50) -/

@[simp] theorem reset_status : State.reset.status = Status.reset := rfl
@[simp] theorem reset_ie : State.reset.ie = false := rfl
@[simp] theorem reset_keyLen : State.reset.keyLen = 0 := rfl
@[simp] theorem reset_ivLen : State.reset.ivLen = 0 := rfl
@[simp] theorem reset_inLen : State.reset.inLen = 0 := rfl
@[simp] theorem reset_outLen : State.reset.outLen = 0 := rfl
@[simp] theorem reset_lastCmd : State.reset.lastCmd = 0 := rfl
@[simp] theorem reset_key : State.reset.key = Vector.replicate 16 0 := rfl
@[simp] theorem reset_iv : State.reset.iv = Vector.replicate 16 0 := rfl
@[simp] theorem reset_phase : State.reset.phase = .idle := rfl
@[simp] theorem reset_datapath : State.reset.datapath = Datapath.rest := rfl
@[simp] theorem reset_inBuf : State.reset.inBuf = Memory.drawn 0 := rfl
@[simp] theorem reset_outBuf : State.reset.outBuf = Memory.drawn 0 := rfl
@[simp] theorem reset_rngDraws : State.reset.rngDraws = 0 := rfl
@[simp] theorem reset_entropy : State.reset.entropy = [] := rfl
@[simp] theorem reset_epoch : State.reset.epoch = 0 := rfl
@[simp] theorem reset_schedule : State.reset.schedule = [] := rfl
@[simp] theorem reset_rdata : State.reset.rdata = 0 := rfl

/-! ### The reset input (R280) -/

@[simp] theorem hardReset_status (s : State) : (s.hardReset).status = Status.reset := rfl
@[simp] theorem hardReset_ie (s : State) : (s.hardReset).ie = false := rfl
@[simp] theorem hardReset_keyLen (s : State) : (s.hardReset).keyLen = 0 := rfl
@[simp] theorem hardReset_ivLen (s : State) : (s.hardReset).ivLen = 0 := rfl
@[simp] theorem hardReset_inLen (s : State) : (s.hardReset).inLen = 0 := rfl
@[simp] theorem hardReset_outLen (s : State) : (s.hardReset).outLen = 0 := rfl
@[simp] theorem hardReset_lastCmd (s : State) : (s.hardReset).lastCmd = 0 := rfl
@[simp] theorem hardReset_key (s : State) : (s.hardReset).key = Vector.replicate 16 0 := rfl
@[simp] theorem hardReset_iv (s : State) : (s.hardReset).iv = Vector.replicate 16 0 := rfl
@[simp] theorem hardReset_inBuf (s : State) : (s.hardReset).inBuf = Memory.drawn (s.epoch + 1) := rfl
@[simp] theorem hardReset_outBuf (s : State) : (s.hardReset).outBuf = Memory.drawn (s.epoch + 1) := rfl
@[simp] theorem hardReset_phase (s : State) : (s.hardReset).phase = .idle := rfl
@[simp] theorem hardReset_datapath (s : State) : (s.hardReset).datapath = Datapath.rest := rfl
@[simp] theorem hardReset_rngDraws (s : State) : (s.hardReset).rngDraws = s.rngDraws := rfl
@[simp] theorem hardReset_entropy (s : State) : (s.hardReset).entropy = s.entropy := rfl
@[simp] theorem hardReset_epoch (s : State) : (s.hardReset).epoch = s.epoch + 1 := rfl
@[simp] theorem hardReset_schedule (s : State) : (s.hardReset).schedule = s.schedule := rfl
@[simp] theorem hardReset_rdata (s : State) : (s.hardReset).rdata = s.rdata := rfl

/-! ### The schedule (log 1) -/

@[simp] theorem withSchedule_status (s : State) (es : List Event) : (s.withSchedule es).status = s.status := rfl
@[simp] theorem withSchedule_ie (s : State) (es : List Event) : (s.withSchedule es).ie = s.ie := rfl
@[simp] theorem withSchedule_keyLen (s : State) (es : List Event) : (s.withSchedule es).keyLen = s.keyLen := rfl
@[simp] theorem withSchedule_ivLen (s : State) (es : List Event) : (s.withSchedule es).ivLen = s.ivLen := rfl
@[simp] theorem withSchedule_inLen (s : State) (es : List Event) : (s.withSchedule es).inLen = s.inLen := rfl
@[simp] theorem withSchedule_outLen (s : State) (es : List Event) : (s.withSchedule es).outLen = s.outLen := rfl
@[simp] theorem withSchedule_lastCmd (s : State) (es : List Event) : (s.withSchedule es).lastCmd = s.lastCmd := rfl
@[simp] theorem withSchedule_key (s : State) (es : List Event) : (s.withSchedule es).key = s.key := rfl
@[simp] theorem withSchedule_iv (s : State) (es : List Event) : (s.withSchedule es).iv = s.iv := rfl
@[simp] theorem withSchedule_inBuf (s : State) (es : List Event) : (s.withSchedule es).inBuf = s.inBuf := rfl
@[simp] theorem withSchedule_outBuf (s : State) (es : List Event) : (s.withSchedule es).outBuf = s.outBuf := rfl
@[simp] theorem withSchedule_phase (s : State) (es : List Event) : (s.withSchedule es).phase = s.phase := rfl
@[simp] theorem withSchedule_datapath (s : State) (es : List Event) : (s.withSchedule es).datapath = s.datapath := rfl
@[simp] theorem withSchedule_rngDraws (s : State) (es : List Event) : (s.withSchedule es).rngDraws = s.rngDraws := rfl
@[simp] theorem withSchedule_entropy (s : State) (es : List Event) : (s.withSchedule es).entropy = s.entropy := rfl
@[simp] theorem withSchedule_epoch (s : State) (es : List Event) : (s.withSchedule es).epoch = s.epoch := rfl
@[simp] theorem withSchedule_schedule (s : State) (es : List Event) : (s.withSchedule es).schedule = es := rfl
@[simp] theorem withSchedule_rdata (s : State) (es : List Event) : (s.withSchedule es).rdata = s.rdata := rfl

/-! ### The read port (log 13) -/

@[simp] theorem withRdata_status (s : State) (v : Word) : (s.withRdata v).status = s.status := rfl
@[simp] theorem withRdata_ie (s : State) (v : Word) : (s.withRdata v).ie = s.ie := rfl
@[simp] theorem withRdata_keyLen (s : State) (v : Word) : (s.withRdata v).keyLen = s.keyLen := rfl
@[simp] theorem withRdata_ivLen (s : State) (v : Word) : (s.withRdata v).ivLen = s.ivLen := rfl
@[simp] theorem withRdata_inLen (s : State) (v : Word) : (s.withRdata v).inLen = s.inLen := rfl
@[simp] theorem withRdata_outLen (s : State) (v : Word) : (s.withRdata v).outLen = s.outLen := rfl
@[simp] theorem withRdata_lastCmd (s : State) (v : Word) : (s.withRdata v).lastCmd = s.lastCmd := rfl
@[simp] theorem withRdata_key (s : State) (v : Word) : (s.withRdata v).key = s.key := rfl
@[simp] theorem withRdata_iv (s : State) (v : Word) : (s.withRdata v).iv = s.iv := rfl
@[simp] theorem withRdata_inBuf (s : State) (v : Word) : (s.withRdata v).inBuf = s.inBuf := rfl
@[simp] theorem withRdata_outBuf (s : State) (v : Word) : (s.withRdata v).outBuf = s.outBuf := rfl
@[simp] theorem withRdata_phase (s : State) (v : Word) : (s.withRdata v).phase = s.phase := rfl
@[simp] theorem withRdata_datapath (s : State) (v : Word) : (s.withRdata v).datapath = s.datapath := rfl
@[simp] theorem withRdata_rngDraws (s : State) (v : Word) : (s.withRdata v).rngDraws = s.rngDraws := rfl
@[simp] theorem withRdata_entropy (s : State) (v : Word) : (s.withRdata v).entropy = s.entropy := rfl
@[simp] theorem withRdata_epoch (s : State) (v : Word) : (s.withRdata v).epoch = s.epoch := rfl
@[simp] theorem withRdata_schedule (s : State) (v : Word) : (s.withRdata v).schedule = s.schedule := rfl
@[simp] theorem withRdata_rdata (s : State) (v : Word) : (s.withRdata v).rdata = v := rfl

/-! ### A dropped write (R68) -/

@[simp] theorem dropWrite_status (s : State) : (s.dropWrite).status = s.status.dropped := rfl
@[simp] theorem dropWrite_ie (s : State) : (s.dropWrite).ie = s.ie := rfl
@[simp] theorem dropWrite_keyLen (s : State) : (s.dropWrite).keyLen = s.keyLen := rfl
@[simp] theorem dropWrite_ivLen (s : State) : (s.dropWrite).ivLen = s.ivLen := rfl
@[simp] theorem dropWrite_inLen (s : State) : (s.dropWrite).inLen = s.inLen := rfl
@[simp] theorem dropWrite_outLen (s : State) : (s.dropWrite).outLen = s.outLen := rfl
@[simp] theorem dropWrite_lastCmd (s : State) : (s.dropWrite).lastCmd = s.lastCmd := rfl
@[simp] theorem dropWrite_key (s : State) : (s.dropWrite).key = s.key := rfl
@[simp] theorem dropWrite_iv (s : State) : (s.dropWrite).iv = s.iv := rfl
@[simp] theorem dropWrite_inBuf (s : State) : (s.dropWrite).inBuf = s.inBuf := rfl
@[simp] theorem dropWrite_outBuf (s : State) : (s.dropWrite).outBuf = s.outBuf := rfl
@[simp] theorem dropWrite_phase (s : State) : (s.dropWrite).phase = s.phase := rfl
@[simp] theorem dropWrite_datapath (s : State) : (s.dropWrite).datapath = s.datapath := rfl
@[simp] theorem dropWrite_rngDraws (s : State) : (s.dropWrite).rngDraws = s.rngDraws := rfl
@[simp] theorem dropWrite_entropy (s : State) : (s.dropWrite).entropy = s.entropy := rfl
@[simp] theorem dropWrite_epoch (s : State) : (s.dropWrite).epoch = s.epoch := rfl
@[simp] theorem dropWrite_schedule (s : State) : (s.dropWrite).schedule = s.schedule := rfl
@[simp] theorem dropWrite_rdata (s : State) : (s.dropWrite).rdata = s.rdata := rfl

/-! ### A write to a control register (R32 to R37, R258) -/

@[simp] theorem writeReg_outLen (s : State) (r : Reg) (v : Word) :
    (s.writeReg r v).outLen = s.outLen := by cases r <;> rfl
@[simp] theorem writeReg_lastCmd (s : State) (r : Reg) (v : Word) :
    (s.writeReg r v).lastCmd = s.lastCmd := by cases r <;> rfl
@[simp] theorem writeReg_key (s : State) (r : Reg) (v : Word) : (s.writeReg r v).key = s.key := by cases r <;> rfl
@[simp] theorem writeReg_iv (s : State) (r : Reg) (v : Word) : (s.writeReg r v).iv = s.iv := by cases r <;> rfl
@[simp] theorem writeReg_inBuf (s : State) (r : Reg) (v : Word) : (s.writeReg r v).inBuf = s.inBuf := by cases r <;> rfl
@[simp] theorem writeReg_outBuf (s : State) (r : Reg) (v : Word) :
    (s.writeReg r v).outBuf = s.outBuf := by cases r <;> rfl
@[simp] theorem writeReg_phase (s : State) (r : Reg) (v : Word) : (s.writeReg r v).phase = s.phase := by cases r <;> rfl
@[simp] theorem writeReg_datapath (s : State) (r : Reg) (v : Word) :
    (s.writeReg r v).datapath = s.datapath := by cases r <;> rfl
@[simp] theorem writeReg_rngDraws (s : State) (r : Reg) (v : Word) :
    (s.writeReg r v).rngDraws = s.rngDraws := by cases r <;> rfl
@[simp] theorem writeReg_entropy (s : State) (r : Reg) (v : Word) :
    (s.writeReg r v).entropy = s.entropy := by cases r <;> rfl
@[simp] theorem writeReg_epoch (s : State) (r : Reg) (v : Word) : (s.writeReg r v).epoch = s.epoch := by cases r <;> rfl
@[simp] theorem writeReg_schedule (s : State) (r : Reg) (v : Word) :
    (s.writeReg r v).schedule = s.schedule := by cases r <;> rfl
@[simp] theorem writeReg_rdata (s : State) (r : Reg) (v : Word) : (s.writeReg r v).rdata = s.rdata := by cases r <;> rfl
@[simp] theorem writeReg_status_eq (s : State) (v : Word) :
    s.writeReg .status v = { s with status := s.status.written v } := rfl
@[simp] theorem writeReg_ctrl_eq (s : State) (v : Word) : s.writeReg .ctrl v = { s with ie := v.getLsbD 0 } := rfl
@[simp] theorem writeReg_keyLen_eq (s : State) (v : Word) :
    s.writeReg .keyLen v = { s with keyLen := v.extractLsb' 0 8 } := rfl
@[simp] theorem writeReg_ivLen_eq (s : State) (v : Word) :
    s.writeReg .ivLen v = { s with ivLen := v.extractLsb' 0 8 } := rfl
@[simp] theorem writeReg_inLen_eq (s : State) (v : Word) :
    s.writeReg .inLen v = { s with inLen := v.extractLsb' 0 16 } := rfl

/-! ### A write of one byte, and of several (R41 to R44) -/

@[simp] theorem writeByte_status (s : State) (a : Nat) (x : Byte) :
    (s.writeByte a x).status = s.status := by
  unfold State.writeByte; split <;> rfl
@[simp] theorem writeByte_ie (s : State) (a : Nat) (x : Byte) :
    (s.writeByte a x).ie = s.ie := by
  unfold State.writeByte; split <;> rfl
@[simp] theorem writeByte_keyLen (s : State) (a : Nat) (x : Byte) :
    (s.writeByte a x).keyLen = s.keyLen := by
  unfold State.writeByte; split <;> rfl
@[simp] theorem writeByte_ivLen (s : State) (a : Nat) (x : Byte) :
    (s.writeByte a x).ivLen = s.ivLen := by
  unfold State.writeByte; split <;> rfl
@[simp] theorem writeByte_inLen (s : State) (a : Nat) (x : Byte) :
    (s.writeByte a x).inLen = s.inLen := by
  unfold State.writeByte; split <;> rfl
@[simp] theorem writeByte_outLen (s : State) (a : Nat) (x : Byte) :
    (s.writeByte a x).outLen = s.outLen := by
  unfold State.writeByte; split <;> rfl
@[simp] theorem writeByte_lastCmd (s : State) (a : Nat) (x : Byte) :
    (s.writeByte a x).lastCmd = s.lastCmd := by
  unfold State.writeByte; split <;> rfl
@[simp] theorem writeByte_outBuf (s : State) (a : Nat) (x : Byte) :
    (s.writeByte a x).outBuf = s.outBuf := by
  unfold State.writeByte; split <;> rfl
@[simp] theorem writeByte_phase (s : State) (a : Nat) (x : Byte) :
    (s.writeByte a x).phase = s.phase := by
  unfold State.writeByte; split <;> rfl
@[simp] theorem writeByte_datapath (s : State) (a : Nat) (x : Byte) :
    (s.writeByte a x).datapath = s.datapath := by
  unfold State.writeByte; split <;> rfl
@[simp] theorem writeByte_rngDraws (s : State) (a : Nat) (x : Byte) :
    (s.writeByte a x).rngDraws = s.rngDraws := by
  unfold State.writeByte; split <;> rfl
@[simp] theorem writeByte_entropy (s : State) (a : Nat) (x : Byte) :
    (s.writeByte a x).entropy = s.entropy := by
  unfold State.writeByte; split <;> rfl
@[simp] theorem writeByte_epoch (s : State) (a : Nat) (x : Byte) :
    (s.writeByte a x).epoch = s.epoch := by
  unfold State.writeByte; split <;> rfl
@[simp] theorem writeByte_schedule (s : State) (a : Nat) (x : Byte) :
    (s.writeByte a x).schedule = s.schedule := by
  unfold State.writeByte; split <;> rfl
@[simp] theorem writeByte_rdata (s : State) (a : Nat) (x : Byte) :
    (s.writeByte a x).rdata = s.rdata := by
  unfold State.writeByte; split <;> rfl
@[simp] theorem writeLanes_status (s : State) (a : Nat) (xs : Bytes) :
    (s.writeLanes a xs).status = s.status := by
  induction xs generalizing s a with
  | nil => rfl
  | cons x xs ih => rw [State.writeLanes, ih, writeByte_status]
@[simp] theorem writeLanes_ie (s : State) (a : Nat) (xs : Bytes) :
    (s.writeLanes a xs).ie = s.ie := by
  induction xs generalizing s a with
  | nil => rfl
  | cons x xs ih => rw [State.writeLanes, ih, writeByte_ie]
@[simp] theorem writeLanes_keyLen (s : State) (a : Nat) (xs : Bytes) :
    (s.writeLanes a xs).keyLen = s.keyLen := by
  induction xs generalizing s a with
  | nil => rfl
  | cons x xs ih => rw [State.writeLanes, ih, writeByte_keyLen]
@[simp] theorem writeLanes_ivLen (s : State) (a : Nat) (xs : Bytes) :
    (s.writeLanes a xs).ivLen = s.ivLen := by
  induction xs generalizing s a with
  | nil => rfl
  | cons x xs ih => rw [State.writeLanes, ih, writeByte_ivLen]
@[simp] theorem writeLanes_inLen (s : State) (a : Nat) (xs : Bytes) :
    (s.writeLanes a xs).inLen = s.inLen := by
  induction xs generalizing s a with
  | nil => rfl
  | cons x xs ih => rw [State.writeLanes, ih, writeByte_inLen]
@[simp] theorem writeLanes_outLen (s : State) (a : Nat) (xs : Bytes) :
    (s.writeLanes a xs).outLen = s.outLen := by
  induction xs generalizing s a with
  | nil => rfl
  | cons x xs ih => rw [State.writeLanes, ih, writeByte_outLen]
@[simp] theorem writeLanes_lastCmd (s : State) (a : Nat) (xs : Bytes) :
    (s.writeLanes a xs).lastCmd = s.lastCmd := by
  induction xs generalizing s a with
  | nil => rfl
  | cons x xs ih => rw [State.writeLanes, ih, writeByte_lastCmd]
@[simp] theorem writeLanes_outBuf (s : State) (a : Nat) (xs : Bytes) :
    (s.writeLanes a xs).outBuf = s.outBuf := by
  induction xs generalizing s a with
  | nil => rfl
  | cons x xs ih => rw [State.writeLanes, ih, writeByte_outBuf]
@[simp] theorem writeLanes_phase (s : State) (a : Nat) (xs : Bytes) :
    (s.writeLanes a xs).phase = s.phase := by
  induction xs generalizing s a with
  | nil => rfl
  | cons x xs ih => rw [State.writeLanes, ih, writeByte_phase]
@[simp] theorem writeLanes_datapath (s : State) (a : Nat) (xs : Bytes) :
    (s.writeLanes a xs).datapath = s.datapath := by
  induction xs generalizing s a with
  | nil => rfl
  | cons x xs ih => rw [State.writeLanes, ih, writeByte_datapath]
@[simp] theorem writeLanes_rngDraws (s : State) (a : Nat) (xs : Bytes) :
    (s.writeLanes a xs).rngDraws = s.rngDraws := by
  induction xs generalizing s a with
  | nil => rfl
  | cons x xs ih => rw [State.writeLanes, ih, writeByte_rngDraws]
@[simp] theorem writeLanes_entropy (s : State) (a : Nat) (xs : Bytes) :
    (s.writeLanes a xs).entropy = s.entropy := by
  induction xs generalizing s a with
  | nil => rfl
  | cons x xs ih => rw [State.writeLanes, ih, writeByte_entropy]
@[simp] theorem writeLanes_epoch (s : State) (a : Nat) (xs : Bytes) :
    (s.writeLanes a xs).epoch = s.epoch := by
  induction xs generalizing s a with
  | nil => rfl
  | cons x xs ih => rw [State.writeLanes, ih, writeByte_epoch]
@[simp] theorem writeLanes_schedule (s : State) (a : Nat) (xs : Bytes) :
    (s.writeLanes a xs).schedule = s.schedule := by
  induction xs generalizing s a with
  | nil => rfl
  | cons x xs ih => rw [State.writeLanes, ih, writeByte_schedule]
@[simp] theorem writeLanes_rdata (s : State) (a : Nat) (xs : Bytes) :
    (s.writeLanes a xs).rdata = s.rdata := by
  induction xs generalizing s a with
  | nil => rfl
  | cons x xs ih => rw [State.writeLanes, ih, writeByte_rdata]

/-! ### The flags (R206, R219, R253, R68) -/

@[simp] theorem accepted_done (f : Status) : (f.accepted).done = false := rfl
@[simp] theorem accepted_err (f : Status) : (f.accepted).err = false := rfl
@[simp] theorem accepted_ovr (f : Status) : (f.accepted).ovr = f.ovr := rfl
@[simp] theorem accepted_fatal (f : Status) : (f.accepted).fatal = f.fatal := rfl
@[simp] theorem accepted_errCode (f : Status) : (f.accepted).errCode = 0 := rfl
@[simp] theorem completedOk_done (f : Status) : (f.completedOk).done = true := rfl
@[simp] theorem completedOk_err (f : Status) : (f.completedOk).err = false := rfl
@[simp] theorem completedOk_ovr (f : Status) : (f.completedOk).ovr = f.ovr := rfl
@[simp] theorem completedOk_fatal (f : Status) : (f.completedOk).fatal = f.fatal := rfl
@[simp] theorem completedOk_errCode (f : Status) : (f.completedOk).errCode = 0 := rfl
@[simp] theorem completedErr_done (f : Status) (e : ErrCode) : (f.completedErr e).done = true := rfl
@[simp] theorem completedErr_err (f : Status) (e : ErrCode) : (f.completedErr e).err = true := rfl
@[simp] theorem completedErr_ovr (f : Status) (e : ErrCode) : (f.completedErr e).ovr = f.ovr := rfl
@[simp] theorem completedErr_fatal (f : Status) (e : ErrCode) :
    (f.completedErr e).fatal = (f.fatal || e == .entropyFailure) := rfl
@[simp] theorem completedErr_errCode (f : Status) (e : ErrCode) : (f.completedErr e).errCode = e.code := rfl
@[simp] theorem dropped_done (f : Status) : (f.dropped).done = f.done := rfl
@[simp] theorem dropped_err (f : Status) : (f.dropped).err = f.err := rfl
@[simp] theorem dropped_ovr (f : Status) : (f.dropped).ovr = true := rfl
@[simp] theorem dropped_fatal (f : Status) : (f.dropped).fatal = f.fatal := rfl
@[simp] theorem dropped_errCode (f : Status) : (f.dropped).errCode = f.errCode := rfl

end Sys2Proof.Machine
end

