-- ==== Sys2Proof/Laws/Step.lean ====
section
/-! SUPPORT. What one step can do, said once: what the engine step does, what each event does, and that a step always
answers a next state. -/

namespace Sys2Proof.Machine

/-- While BUSY the engine step computes the result and completes the command (R220). -/
theorem runCommand_busy {s : State} {w : Word} {snap : Snapshot} (h : s.phase = .busy w snap)
    (drawn : Env → Snapshot → Bool) (result : Env → Snapshot → Except ErrCode Bytes) :
    s.runCommand drawn result =
      .next ((s.takeDraw (drawn s.env snap)).complete (result s.env snap)) := by
  simp [State.runCommand, h]

/-- While IDLE the engine step does nothing (R220, R270). -/
theorem runCommand_idle {s : State} (h : s.phase = .idle) (drawn : Env → Snapshot → Bool)
    (result : Env → Snapshot → Except ErrCode Bytes) : s.runCommand drawn result = .next s := by
  simp [State.runCommand, h]

/-- Everything the engine step can do. -/
theorem runCommand_cases {s t : State} {drawn : Env → Snapshot → Bool} {result : Env → Snapshot → Except ErrCode Bytes}
    (h : s.runCommand drawn result = .next t) :
    (s.phase = .idle ∧ t = s) ∨
      ∃ w snap, s.phase = .busy w snap ∧
        t = (s.takeDraw (drawn s.env snap)).complete (result s.env snap) := by
  cases hp : s.phase with
  | idle => rw [runCommand_idle hp] at h; cases h; exact .inl ⟨rfl, rfl⟩
  | busy w snap => rw [runCommand_busy hp] at h; cases h; exact .inr ⟨w, snap, rfl, rfl⟩

/-- The draw and the result of a command form on an accepted command. -/
def armDraw : Instr → Env → Snapshot → Bool
  | .encEcb _ _ _ => noDraw
  | .decEcb _ _ _ => noDraw
  | .encCbc alg xport ivs => drawsIv alg xport ivs
  | .decCbc _ _ _ => noDraw
  | .encCfb alg xport ivs => drawsIv alg xport ivs
  | .decCfb _ _ _ => noDraw
  | .encOfb alg xport ivs => drawsIv alg xport ivs
  | .decOfb _ _ _ => noDraw
  | .encCtr alg xport ivs => drawsIv alg xport ivs
  | .decCtr _ _ _ => noDraw
  | .pad _ _ _ _ => noDraw
  | .unpad _ _ _ _ => noDraw
  | .nop _ => noDraw

/-- The result of a command form on an accepted command; a NOP is never accepted. -/
def armResult : Instr → Env → Snapshot → Except ErrCode Bytes
  | .encEcb alg _ _ => encEcbResult alg
  | .decEcb alg _ _ => decEcbResult alg
  | .encCbc alg xport ivs => encIvResult cbcEnc alg xport ivs
  | .decCbc alg xport ivs => decIvResult cbcDec alg xport ivs
  | .encCfb alg xport ivs => encIvResult cfbEnc alg xport ivs
  | .decCfb alg xport ivs => decIvResult (fun bp key iv c => .ok (cfbDec bp key iv c)) alg xport ivs
  | .encOfb alg xport ivs => encIvResult ofb alg xport ivs
  | .decOfb alg xport ivs => decIvResult (fun bp key iv c => .ok (ofb bp key iv c)) alg xport ivs
  | .encCtr alg xport ivs => encIvResult ctr alg xport ivs
  | .decCtr alg xport ivs => decIvResult (fun bp key iv c => .ok (ctr bp key iv c)) alg xport ivs
  | .pad _ _ _ _ => padResult
  | .unpad _ _ _ _ => unpadResult
  | .nop _ => fun _ _ => .ok []

/-- Every command form but NOP is one engine step with its own draw and result. -/
theorem exec_eq_runCommand {i : Instr} (h : ∀ rest, i ≠ .nop rest) (s : State) :
    exec i s = s.runCommand (armDraw i) (armResult i) := by
  cases i with
  | nop rest => exact absurd rfl (h rest)
  | _ => rfl

@[simp] theorem exec_nop (rest : Nat) (s : State) : exec (.nop rest) s = .next s := rfl

/-- A command form always answers a next state. -/
theorem exec_next (i : Instr) (s : State) : ∃ t, exec i s = .next t := by
  by_cases h : ∃ rest, i = .nop rest
  · obtain ⟨rest, rfl⟩ := h; exact ⟨s, rfl⟩
  · rw [exec_eq_runCommand (fun rest e => h ⟨rest, e⟩)]
    cases hp : s.phase with
    | idle => exact ⟨s, runCommand_idle hp _ _⟩
    | busy w snap => exact ⟨_, runCommand_busy hp _ _⟩

/-- A word decodes to a NOP exactly when OPC is 0 (R98). -/
theorem decode_nop {w : Word} {rest : Nat} (h : decode w = .ok (.nop rest)) : fieldOpc w = 0 := by
  unfold decode at h
  split at h
  · assumption
  · split at h
    · cases h
    · split at h
      all_goals first | (unfold decodeEnc at h; split at h <;> cases h) | (unfold decodeDec at h; split at h <;> cases h) | cases h

theorem decode_of_opc_zero {w : Word} (h : fieldOpc w = 0) : decode w = .ok (.nop (fieldRest w)) := by
  simp [decode, h]

/-- Everything a command request can do (R205 to R208): nothing for a NOP or while FATAL, else acceptance. -/
theorem request_eq (s : State) (w : Word) :
    s.request w = if fieldOpc w = 0 ∨ s.status.fatal = true then .next s else .next (s.accept w) := by
  unfold State.request
  by_cases h : fieldOpc w = 0
  · simp [decode_of_opc_zero h, h]
  · split
    · rename_i rest hd; exact absurd (decode_nop hd) h
    · by_cases hf : s.status.fatal = true <;> simp [h, hf]

/-- Everything a host write can do: dropped while BUSY, else a command request, else stored. -/
theorem hostWrite_cases {s t : State} {n : Width} {a : Offset} {v : Word} (h : s.hostWrite n a v = .next t) :
    (s.busy = true ∧ t = s.dropWrite) ∨
    (s.busy = false ∧ requestOf n a v = some v ∧ fieldOpc v ≠ 0 ∧ s.status.fatal = false ∧ t = s.accept v) ∨
    (s.busy = false ∧ requestOf n a v = some v ∧ (fieldOpc v = 0 ∨ s.status.fatal = true) ∧ t = s) ∨
    (s.busy = false ∧ requestOf n a v = none ∧ alignDown n a < 0x40 ∧ t = s.writeControl n (alignDown n a) v) ∨
    (s.busy = false ∧ requestOf n a v = none ∧ 0x40 ≤ alignDown n a ∧
      t = s.writeLanes (alignDown n a) (lanes n v)) := by
  unfold State.hostWrite at h
  by_cases hb : s.busy = true
  · simp only [hb, if_true, State.busWrite] at h
    cases h; exact .inl ⟨hb, rfl⟩
  · have hb' : s.busy = false := by simpa using hb
    simp only [hb', Bool.false_eq_true, if_false] at h
    cases hr : requestOf n a v with
    | none =>
      rw [hr] at h
      simp only [State.busWrite, hb', Bool.false_eq_true, if_false] at h
      cases h
      by_cases hc : alignDown n a < 0x40
      · exact .inr (.inr (.inr (.inl ⟨hb', rfl, hc, by simp [hc]⟩)))
      · exact .inr (.inr (.inr (.inr ⟨hb', rfl, by omega, by simp [hc]⟩)))
    | some w =>
      have hw : w = v := by
        unfold requestOf at hr
        split at hr
        · exact (Option.some.inj hr).symm
        · cases hr
      subst hw
      rw [hr] at h
      simp only [request_eq] at h
      by_cases hc : fieldOpc w = 0 ∨ s.status.fatal = true
      · simp only [hc, if_true] at h
        cases h; exact .inr (.inr (.inl ⟨hb', rfl, hc, rfl⟩))
      · simp only [hc, if_false] at h
        cases h
        rw [not_or] at hc
        exact .inr (.inl ⟨hb', rfl, hc.1, by simpa using hc.2, rfl⟩)

/-- Everything the engine's turn can do. -/
theorem engineTurn_cases {s t : State} (h : s.engineTurn = .next t) :
    (s.phase = .idle ∧ t = s) ∨
    (∃ w snap, s.phase = .busy w snap ∧ fieldOpc w = 0 ∧ t = s) ∨
    (∃ w snap i, s.phase = .busy w snap ∧ fieldOpc w ≠ 0 ∧ decode w = .ok i ∧
      t = (s.takeDraw (armDraw i s.env snap)).complete (armResult i s.env snap)) ∨
    (∃ w snap r, s.phase = .busy w snap ∧ fieldOpc w ≠ 0 ∧ decode w = .error r ∧
      t = s.complete (rejectedResult r s.env snap)) := by
  unfold State.engineTurn at h
  cases hp : s.phase with
  | idle => rw [hp] at h; cases h; exact .inl ⟨rfl, rfl⟩
  | busy w snap =>
    rw [hp] at h
    cases hd : decode w with
    | error r =>
      simp only [hd, execRejected, runCommand_busy hp] at h
      cases h
      have ho : fieldOpc w ≠ 0 := by intro e; rw [decode_of_opc_zero e] at hd; cases hd
      exact .inr (.inr (.inr ⟨w, snap, r, rfl, ho, hd, rfl⟩))
    | ok i =>
      simp only [hd] at h
      by_cases hn : ∃ rest, i = .nop rest
      · obtain ⟨rest, rfl⟩ := hn
        rw [exec_nop] at h
        cases h
        exact .inr (.inl ⟨w, snap, rfl, decode_nop hd, rfl⟩)
      · rw [exec_eq_runCommand (fun rest e => hn ⟨rest, e⟩), runCommand_busy hp] at h
        cases h
        have ho : fieldOpc w ≠ 0 := by
          intro e; rw [decode_of_opc_zero e] at hd; cases hd; exact hn ⟨_, rfl⟩
        exact .inr (.inr (.inl ⟨w, snap, i, rfl, ho, hd, rfl⟩))

/-- One step, by what stands first in the schedule. -/
theorem step_cons {s : State} {e : Event} {es : List Event} (h : s.schedule = e :: es) :
    step s = (s.withSchedule es).handle e := by
  simp [step, h]

theorem step_nil {s : State} (h : s.schedule = []) : step s = s.engineTurn := by
  simp [step, h]

@[simp] theorem withSchedule_busy (s : State) (es : List Event) : (s.withSchedule es).busy = s.busy := rfl
@[simp] theorem withRdata_busy (s : State) (v : Word) : (s.withRdata v).busy = s.busy := rfl
@[simp] theorem accept_busy (s : State) (w : Word) : (s.accept w).busy = true := rfl
@[simp] theorem completeOk_busy (s : State) (out : Bytes) : (s.completeOk out).busy = false := rfl
@[simp] theorem completeErr_busy (s : State) (e : ErrCode) : (s.completeErr e).busy = false := rfl
@[simp] theorem complete_busy (s : State) (r : Except ErrCode Bytes) : (s.complete r).busy = false := by cases r <;> rfl
@[simp] theorem hardReset_busy (s : State) : s.hardReset.busy = false := rfl

end Sys2Proof.Machine
end

