-- ==== Sys2Proof/Laws/Bus.lean ====
section
/-! SUPPORT. What a host access can do, and everything a step can do (spec/20_memory.md, spec/47_multiplexer.md). -/

namespace Sys2Proof.Machine

/-- A lane of a value made of lanes. -/
theorem lane_ofLanes (xs : Bytes) (k : Nat) (hk : k < 4) (hl : xs.length ≤ 4) :
    lane (ofLanes xs) k = xs.getD k 0 := by
  apply BitVec.eq_of_getLsbD_eq
  intro i hi
  match xs with
  | [] => interval_cases k <;> simp [ofLanes, lane]
  | [a] => interval_cases k <;> simp [lane, ofLanes] <;> interval_cases i <;> simp
  | [a, b] => interval_cases k <;> simp [lane, ofLanes] <;> interval_cases i <;> simp
  | [a, b, c] => interval_cases k <;> simp [lane, ofLanes] <;> interval_cases i <;> simp
  | [a, b, c, d] => interval_cases k <;> simp [lane, ofLanes] <;> interval_cases i <;> simp
  | _ :: _ :: _ :: _ :: _ :: _ => simp at hl; omega

/-- Two words with the same lanes are equal. -/
theorem word_ext {v w : Word} (h : ∀ k < 4, lane v k = lane w k) : v = w := by
  apply BitVec.eq_of_getLsbD_eq
  intro i hi
  have e := congrArg (fun x => BitVec.getLsbD x (i % 8)) (h (i / 8) (by omega))
  have hm : i % 8 < 8 := Nat.mod_lt _ (by decide)
  simp only [lane, BitVec.getLsbD_extractLsb', hm, decide_true, Bool.true_and] at e
  rwa [Nat.div_add_mod] at e

/-- The control region. -/
theorem regionOf_control (a : Nat) (h : a < 0x40) : regionOf a = .control := by simp [regionOf, h]

/-- The offsets of KEY (10_state.md R41). -/
theorem regionOf_key {i : Nat} (h : i < 16) : regionOf (0x40 + i) = .key i := by
  rw [regionOf, if_neg (by omega), if_pos (by omega), Nat.add_sub_cancel_left]

/-- The offsets of IV (10_state.md R42). -/
theorem regionOf_iv {i : Nat} (h : i < 16) : regionOf (0x50 + i) = .iv i := by
  rw [regionOf, if_neg (by omega), if_neg (by omega), if_pos (by omega), Nat.add_sub_cancel_left]

/-- The offsets of IN_BUF (10_state.md R43). -/
theorem regionOf_inBuf {i : Nat} (h : i < Config.maxLen) : regionOf (inBase + i) = .inBuf := by
  unfold inBase
  rw [regionOf, if_neg (by omega), if_neg (by omega), if_neg (by omega), if_pos (by unfold inBase; omega)]

/-- The offsets of OUT_BUF (10_state.md R44). -/
theorem regionOf_outBuf {i : Nat} (h : i < outCapacity) : regionOf (outBase + i) = .outBuf := by
  have hm := maxLen_range
  unfold outBase
  rw [regionOf, if_neg (by omega), if_neg (by omega), if_neg (by omega), if_neg (by unfold inBase; omega),
    if_pos (by unfold outBase; omega)]

/-- Every other offset outside the control region is reserved (10_state.md R23). -/
theorem regionOf_reserved {a : Nat} (h : 0x60 ≤ a) (hi : ¬ (inBase ≤ a ∧ a < inBase + Config.maxLen))
    (ho : ¬ (outBase ≤ a ∧ a < outBase + outCapacity)) : regionOf a = .reserved := by
  rw [regionOf, if_neg (by omega), if_neg (by omega), if_neg (by omega), if_neg hi, if_neg ho]

/-- A byte of a block with one byte replaced. -/
theorem blockGet_blockSet (b : Block) (i j : Nat) (x : Byte) (hj : j < 16) : blockGet (blockSet b i x)
    j = if i = j then x else blockGet b j := by
  simp [blockGet, blockSet, blockBytes, hj, List.getElem_set]

/-- Everything that writing one byte outside the control region can do. -/
theorem writeByte_cases (s : State) (a : Nat) (x : Byte) (ha : 0x40 ≤ a) :
   (∀ i, i < 16 → blockGet (s.writeByte a x).key i = if a = 0x40 + i then x else blockGet s.key i) ∧
   (∀ i, i < 16 → blockGet (s.writeByte a x).iv i = if a = 0x50 + i then x else blockGet s.iv i) ∧
   (∀ i, i < Config.maxLen → (s.writeByte a x).inByte i = if a = 0x10000 + i then x else s.inByte i) ∧
    ∃ k v m, s.writeByte a x = { s with key := k, iv := v, inBuf := m } := by
  have hm := maxLen_range
  by_cases h1 : a < 0x50
  · have e : regionOf a = .key (a - 0x40) := by simp [regionOf, h1]; omega
    simp only [State.writeByte, e]
    refine ⟨?_, ?_, ?_, _, _, _, rfl⟩
    · intro i hi; rw [blockGet_blockSet _ _ _ _ hi]; by_cases h : a = 0x40 + i <;> simp [h]; intro; omega
    · intro i hi; rw [if_neg (by omega)]
    · intro i hi; rw [if_neg (by omega)]; rfl
  by_cases h2 : a < 0x60
  · have e : regionOf a = .iv (a - 0x50) := by simp [regionOf, h1, h2]; omega
    simp only [State.writeByte, e]
    refine ⟨?_, ?_, ?_, _, _, _, rfl⟩
    · intro i hi; rw [if_neg (by omega)]
    · intro i hi; rw [blockGet_blockSet _ _ _ _ hi]; by_cases h : a = 0x50 + i <;> simp [h]; intro; omega
    · intro i hi; rw [if_neg (by omega)]; rfl
  by_cases h3 : inBase ≤ a ∧ a < inBase + Config.maxLen
  · have e : regionOf a = .inBuf := by simp [regionOf, h1, h2, h3]; omega
    simp only [State.writeByte, e]
    unfold inBase at h3
    refine ⟨?_, ?_, ?_, _, _, _, rfl⟩
    · intro i hi; rw [if_neg (by omega)]
    · intro i hi; rw [if_neg (by omega)]
    · intro i hi
      simp only [State.inByte, inBase]
      by_cases h : a = 0x10000 + i
      · rw [if_pos h, h, read_write_same]
      · rw [if_neg h, read_write_other (by omega)]
  · have e : s.writeByte a x = s := by
      have : regionOf a = .outBuf ∨ regionOf a = .reserved := by
        unfold regionOf
        rw [if_neg (by omega), if_neg (by omega), if_neg (by omega), if_neg h3]
        split <;> simp
      rcases this with h | h <;> simp [State.writeByte, h]
    rw [e]
    unfold inBase at h3
    refine ⟨?_, ?_, ?_, _, _, _, rfl⟩
    · intro i hi; rw [if_neg (by omega)]
    · intro i hi; rw [if_neg (by omega)]
    · intro i hi; rw [if_neg (by omega)]

/-- Everything that writing bytes outside the control region can do. -/
theorem writeLanes_cases (xs : Bytes) (s : State) (a : Nat) (ha : 0x40 ≤ a) :
   (∀ i, i < 16 → blockGet (s.writeLanes a xs).key i = if a ≤ 0x40 + i ∧
       0x40 + i < a + xs.length then xs.getD (0x40 + i - a) 0 else blockGet s.key i) ∧
   (∀ i, i < 16 → blockGet (s.writeLanes a xs).iv i = if a ≤ 0x50 + i ∧
       0x50 + i < a + xs.length then xs.getD (0x50 + i - a) 0 else blockGet s.iv i) ∧
   (∀ i, i < Config.maxLen → (s.writeLanes a xs).inByte i = if a ≤ 0x10000 + i ∧
       0x10000 + i < a + xs.length then xs.getD (0x10000 + i - a) 0 else s.inByte i) ∧
    ∃ k v m, s.writeLanes a xs = { s with key := k, iv := v, inBuf := m } := by
  induction xs generalizing s a with
  | nil =>
    simp only [State.writeLanes, List.length_nil]
    refine ⟨?_, ?_, ?_, _, _, _, rfl⟩ <;> (intro i hi; rw [if_neg (by omega)])
  | cons x xs ih =>
    obtain ⟨h1, h2, h3, k, v, m, h4⟩ := ih (s.writeByte a x) (a+1) (by omega)
    obtain ⟨w1, w2, w3, k', v', m', w4⟩ := writeByte_cases s a x ha
    have aux : ∀ (c : Nat) (old mid new : Byte), new = (if a + 1 ≤ c ∧
        c < a + 1 + xs.length then xs.getD (c - (a+1)) 0 else mid) → mid = (if a = c then x else old) →
       new = if a ≤ c ∧ c < a + (x :: xs).length then (x :: xs).getD (c - a) 0 else old := by
      intro c old mid new e1 e2
      subst e1 e2
      simp only [List.length_cons]
      by_cases hc : a = c
      · subst hc; simp
      · by_cases hd : a + 1 ≤ c ∧ c < a + 1 + xs.length
        · rw [if_pos hd, if_pos (by omega)]
          have : c - a = (c - (a+1)) + 1 := by omega
          rw [this]; simp
        · rw [if_neg hd, if_neg hc, if_neg (by omega)]
    simp only [State.writeLanes]
    refine ⟨fun i hi => aux _ _ _ _ (h1 i hi) (w1 i hi), fun i hi => aux _ _ _ _ (h2 i hi) (w2 i hi),
        fun i hi => aux _ _ _ _ (h3 i hi) (w3 i hi), k, v, m, ?_⟩
    rw [h4, w4]

/-- Writing a byte changes only KEY, IV and IN_BUF. -/
theorem writeByte_frame (s : State) (a : Nat) (x : Byte) :
    ∃ k v m, s.writeByte a x = { s with key := k, iv := v, inBuf := m } := by
  unfold State.writeByte; split <;> exact ⟨_, _, _, rfl⟩

/-- Writing bytes changes only KEY, IV and IN_BUF. -/
theorem writeLanes_frame (s : State) (a : Nat) (xs : Bytes) :
    ∃ k v m, s.writeLanes a xs = { s with key := k, iv := v, inBuf := m } := by
  induction xs generalizing s a with
  | nil => exact ⟨_, _, _, rfl⟩
  | cons x xs ih =>
    obtain ⟨k, v, m, h⟩ := ih (s.writeByte a x) (a+1)
    obtain ⟨k', v', m', h'⟩ := writeByte_frame s a x
    refine ⟨k, v, m, ?_⟩
    rw [State.writeLanes, h, h']

/-- A 32-bit write to CMD while IDLE is a command request. -/
theorem hostWrite_command {s : State} {w : Word} {a : Offset} (hb : s.busy = false) (ha : a.toNat < 4) :
    s.hostWrite .four a w = s.request w := by
    have : requestOf .four a w = some w := by
      unfold requestOf; rw [if_pos]; simp [alignDown, Width.bytes, Reg.offset]; omega
    simp [State.hostWrite, hb, this]

/-- Everything a host write can do: it is dropped, it is a command that is accepted, or it changes nothing, clears flags
of STATUS, or stores into the registers and buffers that the host may write. -/
theorem hostWrite_change {s t : State} {n : Width} {a : Offset} {v : Word} (h : s.hostWrite n a v = .next t) :
    (s.busy = true ∧ t = s.dropWrite) ∨
    (s.busy = false ∧ s.status.fatal = false ∧ fieldOpc v ≠ 0 ∧ t = s.accept v) ∨
    (s.busy = false ∧
      (t = s ∨
        (n = .four ∧ alignDown n a = 4 ∧ t = { s with status := s.status.written v }) ∨
        ∃ ie keyLen ivLen inLen key iv inBuf,
          t = { s with ie := ie, keyLen := keyLen, ivLen := ivLen, inLen := inLen, key := key, iv := iv,
                       inBuf := inBuf })) := by
  rcases hostWrite_cases h with ⟨hb, rfl⟩ | ⟨hb, -, ho, hf, rfl⟩ | ⟨hb, -, -, rfl⟩ | ⟨hb, -, -, rfl⟩ | ⟨hb, -, -, rfl⟩
  · exact .inl ⟨hb, rfl⟩
  · exact .inr (.inl ⟨hb, hf, ho, rfl⟩)
  · exact .inr (.inr ⟨hb, .inl rfl⟩)
  · refine .inr (.inr ⟨hb, ?_⟩)
    unfold State.writeControl
    split
    · rename_i r hr
      cases r with
      | status =>
        refine .inr (.inl ⟨rfl, ?_, rfl⟩)
        unfold regAt at hr
        split at hr
        · cases hr
        · split at hr
          · assumption
          · repeat' (split at hr; · cases hr)
            cases hr
      | ctrl => exact .inr (.inr ⟨_, _, _, _, _, _, _, rfl⟩)
      | keyLen => exact .inr (.inr ⟨_, _, _, _, _, _, _, rfl⟩)
      | ivLen => exact .inr (.inr ⟨_, _, _, _, _, _, _, rfl⟩)
      | inLen => exact .inr (.inr ⟨_, _, _, _, _, _, _, rfl⟩)
      | _ => exact .inl rfl
    · exact .inl rfl
    · exact .inl rfl
    · exact .inl rfl
  · refine .inr (.inr ⟨hb, .inr (.inr ?_)⟩)
    obtain ⟨k, i, m, h⟩ := writeLanes_frame s (alignDown n a) (lanes n v)
    rw [h]
    exact ⟨_, _, _, _, _, _, _, rfl⟩

/-- Everything a step can do: the engine moves, the block is reset, or a host read or write is handled. -/
theorem step_cases {s t : State} (h : step s = .next t) :
    (s.schedule = [] ∧ s.engineTurn = .next t) ∨
    ∃ e es, s.schedule = e :: es ∧
      ((e = .engine ∧ (s.withSchedule es).engineTurn = .next t) ∨
        (e = .reset ∧ t = (s.withSchedule es).hardReset) ∨
        (∃ n a, e = .read n a ∧ t = (s.withSchedule es).withRdata ((s.withSchedule es).busRead n a)) ∨
        (∃ n a v, e = .write n a v ∧ (s.withSchedule es).hostWrite n a v = .next t)) := by
  cases hs : s.schedule with
  | nil => rw [step_nil hs] at h; exact .inl ⟨rfl, h⟩
  | cons e es =>
    rw [step_cons hs] at h
    refine .inr ⟨e, es, rfl, ?_⟩
    cases e with
    | engine => exact .inl ⟨rfl, h⟩
    | reset => cases h; exact .inr (.inl ⟨rfl, rfl⟩)
    | read n a => cases h; exact .inr (.inr (.inl ⟨n, a, rfl, rfl⟩))
    | write n a v => exact .inr (.inr (.inr ⟨n, a, v, rfl, h⟩))

/-- The engine either does nothing or completes the command. -/
theorem engineTurn_change {s t : State} (h : s.engineTurn = .next t) : t = s ∨ (s.busy = true ∧ ∃ d r,
    t = (s.takeDraw d).complete r) := by
  rcases engineTurn_cases h with ⟨_, h⟩ | ⟨w, snap, hp, h0, h⟩ | ⟨w, snap, i, hp, h0, hd, rfl⟩ |
      ⟨w, snap, r, hp, h0, hd, rfl⟩
  · exact .inl h
  · exact .inl h
  · exact .inr ⟨by simp [State.busy, hp, Phase.isBusy], _, _, rfl⟩
  · exact .inr ⟨by simp [State.busy, hp, Phase.isBusy], false, _, rfl⟩

end Sys2Proof.Machine
end

