-- ==== Sys2Proof/Laws/Chunks.lean ====
section
/-! SUPPORT. What a transform of a whole buffer puts out, chunk by chunk (spec/40_block_primitive.md R115 to R117). -/

namespace Sys2Proof.Machine

/-- The `i`-th chunk of a string. -/
def chunkAt (d : Bytes) (i : Nat) : Bytes := (d.drop (16*i)).take 16

/-- The output of a transform, from CHAIN and the chunks: `nx` gives the next CHAIN, `o` the bytes put out. -/
def outs (nx : Block → Bytes → Block) (o : Block → Bytes → Bytes) : Block → List Bytes → Bytes
 | _, [] => []
 | c, x :: xs => o c x ++ outs nx o (nx c x) xs

/-- CHAIN before chunk `i`. -/
def chainAt (nx : Block → Bytes → Block) (c : Block) (d : Bytes) : Nat → Block
 | 0 => c
 | i+1 => nx (chainAt nx c d i) (chunkAt d i)

/-- A run of turns puts out what `outs` says. -/
theorem foldl_out {turn : Datapath → Bytes → Datapath} {nx o} (h : ∀ d x, turn d x = d.emit (nx d.chain x)
    (o d.chain x)) (xs : List Bytes) (d : Datapath) :
   (xs.foldl turn d).out = d.out ++ outs nx o d.chain xs := by
  induction xs generalizing d with
  | nil => simp [outs]
  | cons x xs ih => rw [List.foldl_cons, ih, h]; simp [outs]

/-- A transform puts out what `outs` says. -/
theorem runChunks_out {turn : Datapath → Bytes → Datapath} {nx o} (h : ∀ d x, turn d x = d.emit (nx d.chain x)
    (o d.chain x)) (xs : List Bytes) (c : Block) :
   (runChunks turn c xs).out = outs nx o c xs := by
  rw [runChunks, foldl_out h]; rfl

/-- CHAIN before a later chunk, from the rest of the string. -/
theorem chainAt_succ_drop (nx) (c : Block) (d : Bytes) (i : Nat) : chainAt nx c d (i+1)
    = chainAt nx (nx c (chunkAt d 0)) (d.drop 16) i := by
  induction i with
  | zero => rfl
  | succ i ih => rw [chainAt, ih, chainAt]; congr 1; simp [chunkAt]; congr 2; omega

/-- Chunk `i` of the output, when each output has the length of its chunk. -/
theorem chunkAt_outs {nx o} (ho : ∀ c x, x.length ≤ 16 → (o c x).length = x.length)  (i : Nat) (c : Block) (d :
    Bytes) (h : 16 * i < d.length) :
   chunkAt (outs nx o c (chunks d)) i = o (chainAt nx c d i) (chunkAt d i) := by
  induction i generalizing c d with
  | zero =>
    have hne : d ≠ [] := by rintro rfl; simp at h
    rw [chunks_step hne, outs, chunkAt]
    have hl : (o c (d.take 16)).length = min 16 d.length := by rw [ho _ _ (by simp), List.length_take]
    by_cases h16 : 16 ≤ d.length
    · rw [Nat.mul_zero, List.drop_zero, List.take_append_of_le_length (by omega),
          List.take_of_length_le (by omega)]; rfl
    · have : d.drop 16 = [] := List.drop_of_length_le (by omega)
      rw [this, chunks_nil, outs, List.append_nil, Nat.mul_zero, List.drop_zero, List.take_of_length_le (by omega)]; rfl
  | succ i ih =>
    have hne : d ≠ [] := by rintro rfl; simp at h
    rw [chunks_step hne, outs, chunkAt]
    have hl : (o c (d.take 16)).length = 16 := by rw [ho _ _ (by simp), List.length_take]; omega
    have : 16 * (i+1) = 16 + 16 * i := by omega
    rw [this, ← List.drop_drop, List.drop_append_of_le_length (by omega), List.drop_of_length_le (l :=
        o c (d.take 16)) (by omega), List.nil_append]
    have := ih (nx c (d.take 16)) (d.drop 16) (by rw [List.length_drop]; omega)
    rw [chunkAt] at this
    rw [this, chainAt_succ_drop]
    congr 1
    simp [chunkAt]; congr 2; omega

/-- Chunk `i` of the output, when every chunk and every output is whole. -/
theorem chunkAt_outs_whole {nx o} (ho : ∀ c x, (o c x).length = 16)  (i : Nat) (c : Block) (d : Bytes) (hd :
    d.length % 16 = 0) (h : 16 * i < d.length) :
   chunkAt (outs nx o c (chunks d)) i = o (chainAt nx c d i) (chunkAt d i) := by
  have e : ∀ c d, d.length % 16 = 0 → outs nx o c (chunks d) = outs nx (fun c x => (o c x).take x.length)
      c (chunks d) := by
    intro c d
    induction hn : d.length using Nat.strong_induction_on generalizing c d with
    | _ n ih =>
      intro hm
      by_cases hne : d = []
      · subst hne; rfl
      · have hp := List.length_pos_iff.2 hne
        rw [chunks_step hne, outs, outs, ih (d.drop 16).length (by rw [List.length_drop]; omega)
            _ _ rfl (by rw [List.length_drop]; omega)]
        congr 1
        exact (List.take_of_length_le (by rw [ho, List.length_take]; omega)).symm
  rw [e c d hd, chunkAt_outs (by intro c x hx; simp [ho, hx]) i c d h]
  rw [List.take_of_length_le]
  rw [ho, chunkAt, List.length_take, List.length_drop]; omega

/-- The whole output of whole chunks. -/
theorem outs_flatMap {nx o} (c : Block) (d : Bytes) (hd : d.length % 16 = 0) :
   outs nx o c (chunks d) = (List.range (d.length / 16)).flatMap fun i => o (chainAt nx c d i) (chunkAt d i) := by
  induction hn : d.length / 16 generalizing c d with
  | zero =>
    have : d = [] := List.length_eq_zero_iff.1 (by omega)
    subst this; rfl
  | succ n ih =>
    have hne : d ≠ [] := by rintro rfl; simp at hn
    rw [chunks_step hne, outs, ih _ (d.drop 16) (by rw [List.length_drop]; omega) (by rw [List.length_drop]; omega)]
    rw [List.range_succ_eq_map, List.flatMap_cons, List.flatMap_map]
    congr 1
    apply List.flatMap_congr
    intro i _
    rw [chainAt_succ_drop]
    congr 1
    simp [chunkAt]; congr 2; omega

/-- A byte of a string is a byte of its chunk. -/
theorem getD_eq_chunkAt (d : Bytes) (j : Nat) : d.getD j 0 = (chunkAt d (j/16)).getD (j%16) 0 := by
  simp only [chunkAt, List.getD_eq_getElem?_getD, List.getElem?_take, List.getElem?_drop]
  rw [if_pos (by omega)]
  congr 2; omega

/-- A byte of a string lies inside its chunk. -/
theorem lt_chunkAt_length (d : Bytes) (j : Nat) (h : j < d.length) : j % 16 < (chunkAt d (j/16)).length := by
  simp [chunkAt]; omega

/-- A byte of a truncating XOR (R115). -/
theorem getD_xorBytes (a : Bytes) (b : Block) (j : Nat) (hj : j < 16) (ha : j < a.length) :
    (xorBytes a (blockBytes b)).getD j 0 = a.getD j 0 ^^^ blockGet b j := by
  simp [xorBytes, blockGet, ha, blockBytes, hj]

/-- A truncating XOR has the length of the chunk (R115). -/
theorem xorBytes_chunk_length (x : Bytes) (b : Block) (h : x.length ≤ 16) :
    (xorBytes x (blockBytes b)).length = x.length := by simp [h]

/-- CHAIN of a mode whose feedback does not see the data is an iteration. -/
theorem chainAt_iterate (f : Block → Block) (c : Block) (d : Bytes) (i : Nat) : chainAt (fun c _ => f c)
    c d i = f^[i] c := by
  induction i with
  | zero => rfl
  | succ i ih => rw [chainAt, ih, Function.iterate_succ_apply']

/-- A byte put out by a stream mode: the data byte XOR the keystream byte. -/
theorem outs_stream_getD {d : Bytes} {nx : Block → Bytes → Block} {ks : Block → Block} {c : Block} (j : Nat) (hj :
    j < d.length) :
   (outs nx (fun c x => xorBytes x (blockBytes (ks c)))
       c (chunks d)).getD j 0 = d.getD j 0 ^^^ blockGet (ks (chainAt nx c d (j/16))) (j%16) := by
  rw [getD_eq_chunkAt, chunkAt_outs (fun c x hx => xorBytes_chunk_length x _ hx) _ _ _ (by omega),
      getD_xorBytes _ _ _ (by omega) (lt_chunkAt_length d j hj), ← getD_eq_chunkAt]

end Sys2Proof.Machine
end

