-- ==== Sys2Proof/Laws/Counter.lean ====
section
/-! SUPPORT. Big-endian numbers and blocks (spec/00_scope.md section 4, spec/46_ctr.md R190). -/

namespace Sys2Proof.Machine

/-- The number of a string, with a start value. -/
theorem foldl_bigEndian (l : Bytes) (n : Nat) : l.foldl (fun n x => 256 * n + x.toNat)
    n = 256 ^ l.length * n + l.foldl (fun n x => 256 * n + x.toNat) 0 := by
  induction l generalizing n with
  | nil => simp
  | cons x xs ih =>
    rw [List.foldl_cons, List.foldl_cons, ih, ih (256*0 + _)]
    simp only [List.length_cons, Nat.pow_succ]; ring

/-- The big-endian number of a byte string. -/
def bigEndian (l : Bytes) : Nat := l.foldl (fun n x => 256 * n + x.toNat) 0

/-- The first byte is the most significant. -/
theorem bigEndian_cons (x : Byte) (xs : Bytes) : bigEndian (x :: xs) = 256 ^ xs.length * x.toNat + bigEndian xs := by
  rw [bigEndian, List.foldl_cons, foldl_bigEndian]; simp [bigEndian]

/-- A string of `n` bytes is a number below `256 ^ n`. -/
theorem bigEndian_lt (l : Bytes) : bigEndian l < 256 ^ l.length := by
  induction l with
  | nil => simp [bigEndian]
  | cons x xs ih =>
    rw [bigEndian_cons, List.length_cons, Nat.pow_succ]
    have := x.isLt
    nlinarith [Nat.mul_le_mul_left (256^xs.length) (show x.toNat + 1 ≤ 256 by omega)]

/-- Each byte is a digit of the number. -/
theorem bigEndian_digit (l : Bytes) (j : Nat) (h : j < l.length) : bigEndian l / 256 ^ (l.length - 1 - j)
    % 256 = (l.getD j 0).toNat := by
  induction l generalizing j with
  | nil => simp at h
  | cons x xs ih =>
    have hlt := bigEndian_lt xs
    rw [bigEndian_cons]
    cases j with
    | zero =>
      simp only [List.length_cons, Nat.add_sub_cancel, Nat.sub_zero]
      rw [Nat.mul_add_div (by positivity), Nat.div_eq_of_lt hlt]
      have := x.isLt
      simp; omega
    | succ j =>
      simp only [List.length_cons] at h ⊢
      have e : xs.length + 1 - 1 - (j+1) = xs.length - 1 - j := by omega
      rw [e]
      have e2 : xs.length = (xs.length - 1 - j) + (j+1) := by omega
      have e3 : 256 ^ xs.length * x.toNat = 256 ^ (xs.length - 1 - j) * (256 * (256 ^ j * x.toNat)) := by
        conv => lhs; rw [e2]
        rw [Nat.pow_add, Nat.pow_succ]; ring
      rw [e3, Nat.mul_add_div (by positivity), Nat.mul_add_mod, ih j (by omega)]; simp

/-- The sixteen digits of a number. -/
def digits16 (n : Nat) : Bytes := (List.range 16).map fun j => BitVec.ofNat 8 (n / 256 ^ (15 - j))

/-- `toBe16` is made of the digits. -/
theorem blockBytes_toBe16 (n : Nat) : blockBytes (toBe16 n) = digits16 n := by
  rw [toBe16, blockBytes_blockOf_full (by simp)]; rfl

/-- The digits of a number give it back, modulo the range. -/
theorem bigEndian_digits (n k : Nat) : bigEndian ((List.range k).map fun j => BitVec.ofNat 8 (n / 256 ^ (k - 1 -
    j))) = n % 256 ^ k := by
  induction k with
  | zero => simp [bigEndian, Nat.mod_one]
  | succ k ih =>
    rw [List.range_succ_eq_map, List.map_cons, bigEndian_cons, List.map_map]
    have e : ((List.range k).map ((fun j => BitVec.ofNat 8 (n / 256 ^ (k + 1 - 1 - j))) ∘ Nat.succ))
        = (List.range k).map fun j => BitVec.ofNat 8 (n / 256 ^ (k - 1 - j)) := by
      apply List.map_congr_left
      intro j hj
      simp only [Function.comp]
      congr 3; omega
    rw [e, ih, List.length_map, List.length_range]
    simp only [Nat.add_sub_cancel, Nat.sub_zero, BitVec.toNat_ofNat]
    rw [show (256:Nat) ^ (k+1) = 256 ^ k * 256 from Nat.pow_succ .., Nat.mod_mul, Nat.add_comm]

/-- `toBe16` of a number in range is that number. -/
theorem be128_toBe16 (n : Nat) (h : n < 2^128) : be128 (toBe16 n) = n := by
  show bigEndian (blockBytes (toBe16 n)) = n
  rw [blockBytes_toBe16]
  have := bigEndian_digits n 16
  rw [Nat.mod_eq_of_lt (by norm_num at *; exact h)] at this
  exact this

/-- Two blocks with the same number are equal. -/
theorem be128_inj {a b : Block} (h : be128 a = be128 b) : a = b := by
  apply blockBytes_inj
  apply List.ext_getElem (by simp)
  intro j h1 h2
  have ga := bigEndian_digit (blockBytes a) j h1
  have gb := bigEndian_digit (blockBytes b) j h2
  have h' : bigEndian (blockBytes a) = bigEndian (blockBytes b) := h
  rw [h', blockBytes_length] at ga
  rw [blockBytes_length] at gb
  rw [ga] at gb
  have := BitVec.eq_of_toNat_eq gb
  rw [List.getD_eq_getElem _ _ h1, List.getD_eq_getElem _ _ h2] at this; exact this

/-- A block is a number below `2 ^ 128`. -/
theorem be128_lt (b : Block) : be128 b < 2^128 := by
  have := bigEndian_lt (blockBytes b)
  rw [blockBytes_length] at this
  exact this

end Sys2Proof.Machine
end

