-- ==== Sys2Proof/Laws/PerInstr.lean ====
section
/-! SUPPORT. What holds of every command form as syntax, one lemma per constructor: the OPC field and the reserved bits of
its word (spec/30_encoding.md R92, R97). -/

namespace Sys2Proof.Laws

/-- The OPC code of a command form (R92). -/
def opcOf : Instr → Nat
  | .encEcb _ _ _ => 1
  | .decEcb _ _ _ => 2
  | .encCbc _ _ _ => 1
  | .decCbc _ _ _ => 2
  | .encCfb _ _ _ => 1
  | .decCfb _ _ _ => 2
  | .encOfb _ _ _ => 1
  | .decOfb _ _ _ => 2
  | .encCtr _ _ _ => 1
  | .decCtr _ _ _ => 2
  | .pad _ _ _ _ => 3
  | .unpad _ _ _ _ => 4
  | .nop _ => 0

/-- The number of a word laid out from its fields. -/
theorem commandWord_toNat (opc mode alg : Nat) (xport ivs : Bool) :
    (commandWord opc mode alg xport ivs).toNat =
      opc % 16 + 16 * (mode % 8) + 256 * (alg % 4) + 1024 * xport.toNat + 2048 * ivs.toNat := by
  have hx := xport.toNat_lt
  have hi := ivs.toNat_lt
  simp only [commandWord, BitVec.toNat_ofNat]
  omega

/-- A field of a word, as a number. -/
theorem field_toNat (w : Word) (lo n : Nat) : (w.extractLsb' lo n).toNat = w.toNat / 2 ^ lo % 2 ^ n := by
  simp [BitVec.extractLsb'_toNat, Nat.shiftRight_eq_div_pow]

/-- A bit of a word, as a number. -/
theorem bit_toNat (w : Word) (i : Nat) : w.getLsbD i = decide (w.toNat / 2 ^ i % 2 = 1) := by
  rw [BitVec.getLsbD, Nat.testBit_eq_decide_div_mod_eq]

/-- The OPC field of a word laid out from its fields. -/
theorem fieldOpc_commandWord (opc mode alg : Nat) (xport ivs : Bool) (h : opc < 16) :
    fieldOpc (commandWord opc mode alg xport ivs) = opc := by
  rw [fieldOpc, field_toNat, commandWord_toNat]
  omega

/-- A word laid out from its fields has no reserved bit set. -/
theorem reservedBitSet_commandWord (opc mode alg : Nat) (xport ivs : Bool) :
    reservedBitSet (commandWord opc mode alg xport ivs) = false := by
  have hx := xport.toNat_lt
  have hi := ivs.toNat_lt
  have e : (commandWord opc mode alg xport ivs).extractLsb' 12 20 = 0 := by
    apply BitVec.eq_of_toNat_eq
    rw [field_toNat, commandWord_toNat]
    simp; omega
  have e7 : (commandWord opc mode alg xport ivs).getLsbD 7 = false := by
    rw [bit_toNat, commandWord_toNat, decide_eq_false_iff_not]
    omega
  rw [reservedBitSet, e7, e]
  rfl

namespace CommandForm

/-- The word of a form has the form's OPC, and no reserved bit unless it is a NOP. -/
def Statement (i : Instr) : Prop :=
  fieldOpc (encode i) = opcOf i ∧ (opcOf i ≠ 0 → reservedBitSet (encode i) = false)

theorem of_commandWord {i : Instr} {mode alg : Nat} {xport ivs : Bool}
    (h : encode i = commandWord (opcOf i) mode alg xport ivs) (ho : opcOf i < 16) : Statement i := by
  unfold Statement
  rw [h]
  exact ⟨fieldOpc_commandWord _ _ _ _ _ ho, fun _ => reservedBitSet_commandWord _ _ _ _ _⟩

theorem encEcb (alg : Nat) (xport ivs : Bool) : Statement (.encEcb alg xport ivs) := of_commandWord rfl (by simp [opcOf])
theorem decEcb (alg : Nat) (xport ivs : Bool) : Statement (.decEcb alg xport ivs) := of_commandWord rfl (by simp [opcOf])
theorem encCbc (alg : Nat) (xport ivs : Bool) : Statement (.encCbc alg xport ivs) := of_commandWord rfl (by simp [opcOf])
theorem decCbc (alg : Nat) (xport ivs : Bool) : Statement (.decCbc alg xport ivs) := of_commandWord rfl (by simp [opcOf])
theorem encCfb (alg : Nat) (xport ivs : Bool) : Statement (.encCfb alg xport ivs) := of_commandWord rfl (by simp [opcOf])
theorem decCfb (alg : Nat) (xport ivs : Bool) : Statement (.decCfb alg xport ivs) := of_commandWord rfl (by simp [opcOf])
theorem encOfb (alg : Nat) (xport ivs : Bool) : Statement (.encOfb alg xport ivs) := of_commandWord rfl (by simp [opcOf])
theorem decOfb (alg : Nat) (xport ivs : Bool) : Statement (.decOfb alg xport ivs) := of_commandWord rfl (by simp [opcOf])
theorem encCtr (alg : Nat) (xport ivs : Bool) : Statement (.encCtr alg xport ivs) := of_commandWord rfl (by simp [opcOf])
theorem decCtr (alg : Nat) (xport ivs : Bool) : Statement (.decCtr alg xport ivs) := of_commandWord rfl (by simp [opcOf])

theorem pad (mode alg : Nat) (xport ivs : Bool) : Statement (.pad mode alg xport ivs) :=
  of_commandWord rfl (by simp [opcOf])

theorem unpad (mode alg : Nat) (xport ivs : Bool) : Statement (.unpad mode alg xport ivs) :=
  of_commandWord rfl (by simp [opcOf])

theorem nop (rest : Nat) : Statement (.nop rest) := by
  refine ⟨?_, fun h => absurd rfl h⟩
  rw [fieldOpc, field_toNat]
  simp only [encode, BitVec.toNat_ofNat, opcOf]
  omega

end CommandForm

end Sys2Proof.Laws
end

