-- ==== Sys2Proof/Laws/Decode.lean ====
section
/-! SUPPORT. What the decoder can answer,
    and the fields of a word laid out from its fields (spec/30_encoding.md R91, R98). -/

namespace Sys2Proof.Machine

open Sys2Proof.Laws

/-- The MODE field of a word laid out from its fields. -/
theorem fieldMode_commandWord (opc mode alg : Nat) (xport ivs : Bool) (h : mode < 8) :
    fieldMode (commandWord opc mode alg xport ivs) = mode := by
  rw [fieldMode, field_toNat, commandWord_toNat]; omega

/-- The ALG field of a word laid out from its fields. -/
theorem fieldAlg_commandWord (opc mode alg : Nat) (xport ivs : Bool) (h : alg < 4) :
    fieldAlg (commandWord opc mode alg xport ivs) = alg := by
  rw [fieldAlg, field_toNat, commandWord_toNat]; omega

/-- The XPORT bit of a word laid out from its fields. -/
theorem fieldXport_commandWord (opc mode alg : Nat) (xport ivs : Bool)  :
    fieldXport (commandWord opc mode alg xport ivs) = xport := by
  rw [fieldXport, bit_toNat, commandWord_toNat]
  cases xport <;> cases ivs <;> simp <;> omega

/-- The IVS bit of a word laid out from its fields. -/
theorem fieldIvs_commandWord (opc mode alg : Nat) (xport ivs : Bool)  :
    fieldIvs (commandWord opc mode alg xport ivs) = ivs := by
  rw [fieldIvs, bit_toNat, commandWord_toNat]
  cases xport <;> cases ivs <;> simp <;> omega

/-- A word with no reserved bit set is laid out from its fields. -/
theorem commandWord_of_fields (w : Word) (h : reservedBitSet w = false) :
    commandWord (fieldOpc w) (fieldMode w) (fieldAlg w) (fieldXport w) (fieldIvs w) = w := by
  simp only [reservedBitSet, Bool.or_eq_false_iff, bne_eq_false_iff_eq] at h
  obtain ⟨h7, h12⟩ := h
  have h12' := congrArg BitVec.toNat h12
  rw [field_toNat] at h12'
  rw [bit_toNat] at h7
  have h7' := of_decide_eq_false h7
  apply BitVec.eq_of_toNat_eq
  rw [commandWord_toNat, fieldOpc, fieldMode, fieldAlg, fieldXport, fieldIvs, field_toNat, field_toNat,
      field_toNat, bit_toNat, bit_toNat]
  have hw := w.isLt
  have bl : ∀ n, n % 2 = (decide (n % 2 = 1)).toNat :=
      by intro n; rcases Nat.mod_two_eq_zero_or_one n with h | h <;> simp [h]
  rw [← bl, ← bl]
  simp at h12'
  omega

/-- Everything the decoder can accept: a NOP, or a word with no reserved bit whose OPC and MODE name the form (R98). -/
theorem decode_ok_cases (w : Word) (i : Instr) (h : decode w = .ok i) :
   (fieldOpc w = 0 ∧ i = .nop (fieldRest w)) ∨ (reservedBitSet w = false ∧
   ((fieldOpc w = 1 ∧ fieldMode w = 0 ∧ i = .encEcb (fieldAlg w) (fieldXport w) (fieldIvs w)) ∨
    (fieldOpc w = 1 ∧ fieldMode w = 1 ∧ i = .encCbc (fieldAlg w) (fieldXport w) (fieldIvs w)) ∨
    (fieldOpc w = 1 ∧ fieldMode w = 2 ∧ i = .encCfb (fieldAlg w) (fieldXport w) (fieldIvs w)) ∨
    (fieldOpc w = 1 ∧ fieldMode w = 3 ∧ i = .encOfb (fieldAlg w) (fieldXport w) (fieldIvs w)) ∨
    (fieldOpc w = 1 ∧ fieldMode w = 4 ∧ i = .encCtr (fieldAlg w) (fieldXport w) (fieldIvs w)) ∨
    (fieldOpc w = 2 ∧ fieldMode w = 0 ∧ i = .decEcb (fieldAlg w) (fieldXport w) (fieldIvs w)) ∨
    (fieldOpc w = 2 ∧ fieldMode w = 1 ∧ i = .decCbc (fieldAlg w) (fieldXport w) (fieldIvs w)) ∨
    (fieldOpc w = 2 ∧ fieldMode w = 2 ∧ i = .decCfb (fieldAlg w) (fieldXport w) (fieldIvs w)) ∨
    (fieldOpc w = 2 ∧ fieldMode w = 3 ∧ i = .decOfb (fieldAlg w) (fieldXport w) (fieldIvs w)) ∨
    (fieldOpc w = 2 ∧ fieldMode w = 4 ∧ i = .decCtr (fieldAlg w) (fieldXport w) (fieldIvs w)) ∨
    (fieldOpc w = 3 ∧ i = .pad (fieldMode w) (fieldAlg w) (fieldXport w) (fieldIvs w)) ∨
    (fieldOpc w = 4 ∧ i = .unpad (fieldMode w) (fieldAlg w) (fieldXport w) (fieldIvs w)))) := by
  unfold decode at h
  split at h
  · left; cases h; exact ⟨‹_›, rfl⟩
  · right
    split at h
    · cases h
    · rename_i hr
      refine ⟨by simpa using hr, ?_⟩
      split at h
      · rename_i ho
        unfold decodeEnc at h
        split at h <;> cases h <;> rename_i hm <;> simp [ho, hm]
      · rename_i ho
        unfold decodeDec at h
        split at h <;> cases h <;> rename_i hm <;> simp [ho, hm]
      · cases h; simp [*]
      · cases h; simp [*]
      · cases h

/-- Everything the decoder can reject, and why (R98). -/
theorem decode_error_cases (w : Word) (r : Reject) (h : decode w = .error r) : fieldOpc w ≠ 0 ∧
   ((reservedBitSet w = true ∧ r = .reservedBits) ∨ (reservedBitSet w = false ∧ 5 ≤ fieldOpc w ∧ r = .reservedOpcode) ∨
    (reservedBitSet w = false ∧ (fieldOpc w = 1 ∨ fieldOpc w = 2) ∧ 5 ≤ fieldMode w ∧ r = .unsupportedMode)) := by
  have hm8 : fieldMode w < 8 := by rw [fieldMode, field_toNat]; omega
  by_cases h0 : fieldOpc w = 0
  · rw [decode_of_opc_zero h0] at h; cases h
  refine ⟨h0, ?_⟩
  cases hr : reservedBitSet w
  · right
    generalize ho : fieldOpc w = o at h0
    have h016 : o < 16 := by rw [← ho, fieldOpc, field_toNat]; omega
    interval_cases o <;> simp [decode, ho, hr] at h
    · generalize hm : fieldMode w = m at hm8
      interval_cases m <;> simp [hm, decodeEnc] at h <;> simp [h]
    · generalize hm : fieldMode w = m at hm8
      interval_cases m <;> simp [hm, decodeDec] at h <;> simp [h]
    all_goals simp [h]
  · left
    simp [decode, h0, hr] at h
    simp [h]

end Sys2Proof.Machine
end

