-- ==== Sys2Proof/Laws/Engine.lean ====
section
/-! SUPPORT. What a completion can do: its end, the length of its output,
    `Exec`; and that every operation keeps the invariant. -/

namespace Sys2Proof.Machine

open Sys2Proof.Laws

/-- A completion, with the draw it took, is the end that `EndsWith` describes. -/
theorem complete_endsWith {s : State} (hi : s.Inv) (hb : s.busy = true) (d : Bool) (r : Except ErrCode Bytes)
    (hl : ∀ out, r = .ok out → out.length ≤ outCapacity) :
    EndsWith s ((s.takeDraw d).complete r) d.toNat r := by
  obtain ⟨hz, -⟩ := hi.busy_clear hb
  have hm := maxLen_range
  cases r with
  | ok out =>
    have hl := hl out rfl
    refine ⟨⟨?_, ?_, rfl, rfl, rfl, rfl, rfl, rfl⟩, ⟨rfl, rfl⟩, ⟨rfl, rfl, rfl, rfl, rfl, rfl, rfl, fun _ => rfl,
        rfl, rfl, rfl, rfl⟩⟩
    · intro i hi
      show (s.outBuf.writeBytes outBase out).read (outBase + i) = _
      rw [hz, read_writeBytes]
      split
      · rename_i h; simp [h]
      · rename_i h; simp at h; simp [h]
    · show (BitVec.ofNat 17 out.length).toNat = _
      unfold outCapacity at hl
      simp; omega
  | error e =>
    exact ⟨⟨fun _ _ => rfl, rfl, rfl, rfl, rfl, rfl, rfl, rfl⟩, ⟨rfl, rfl⟩, ⟨rfl, rfl, rfl, rfl, rfl, rfl, rfl,
        fun _ => rfl, rfl, rfl, rfl, rfl⟩⟩

/-- The bind of a result, as a match. -/
theorem except_bind_eq {ε α β} (x : Except ε α) (f : α → Except ε β) : (x >>= f)
    = match x with | .error e => .error e | .ok a => f a := by cases x <;> rfl

/-- An encryption puts out at most one block more than it takes. -/
theorem modeEnc_length_le (m : Mode) (bp) (key iv : Block) (p : Bytes) :
    (modeEnc m bp key iv p).length ≤ p.length + 16 := by
  cases m <;> simp [modeEnc] <;> omega

/-- A decryption puts out at most what it takes. -/
theorem modeDec_length_le (m : Mode) (bp) (key iv : Block) (c out : Bytes) (h : modeDec m bp key iv c = .ok out) :
    out.length ≤ c.length := by
  have hr : ∀ (turn : Datapath → Bytes → Datapath) (seed) , (∀ p x, x ∈ chunks c →
      (turn p x).out.length = p.out.length + x.length) → (runChunks turn seed (chunks c)).out.length = c.length :=
          fun t s h => runChunks_out_length s c h
  cases m with
  | ecb =>
    simp only [modeDec, ecbDec, requireBlocks, bind, Except.bind] at h
    split at h
    · cases h
    · rename_i hrq
      split at hrq
      · cases hrq
      · have := unpad16_length_le h
        rw [hr] at this
        · exact this
        · intro p x hx
          simp only [not_or] at *
          simp [ecbDecTurn, chunks_length_eq (by omega) hx]
  | cbc =>
    simp only [modeDec, cbcDec, requireBlocks, bind, Except.bind] at h
    split at h
    · cases h
    · rename_i hrq
      split at hrq
      · cases hrq
      · have := unpad16_length_le h
        rw [hr] at this
        · exact this
        · intro p x hx
          simp only [not_or] at *
          simp [cbcDecTurn, chunks_length_eq (by omega) hx]
  | cfb => simp only [modeDec] at h; cases h; simp
  | ofb => simp only [modeDec] at h; cases h; simp
  | ctr => simp only [modeDec] at h; cases h; simp

/-- The output of a command fits OUT_BUF (10_state.md R36). -/
theorem muxExec_length_le (env : Env) (w : Word) (snap : Snapshot) (out : Bytes) (hd : snap.data.length ≤ env.maxLen)
   (h : muxExec env w snap = .ok out) : out.length ≤ env.maxLen + 32 := by
  unfold muxExec at h
  split at h; · cases h
  split at h; · cases h
  split at h; · cases h; rw [pad16_length]; omega
  split at h; · have := unpad16_length_le h; omega
  split at h; · cases h
  split at h; · cases h
  rename_i m hmode
  split at h; · cases h
  split at h
  · split at h
    · cases h; simp; omega
    · have := modeDec_length_le .ecb env.bp snap.key snap.iv snap.data out h; omega
  split at h; · cases h
  split at h; · cases h
  split at h
  · split at h
    · cases h
    · rename_i plan hp
      cases h
      have hb : plan.body = snap.data := by
        unfold prepareIv at hp; split at hp
        · unfold transportPrepare at hp; cases hv : fieldIvs w <;> simp only [hv] at hp
          · split at hp <;> cases hp; rfl
          · cases hp; rfl
        · cases hp; rfl
      have hh : plan.header.length ≤ 16 := by
        unfold prepareIv at hp; split at hp
        · unfold transportPrepare at hp; cases hv : fieldIvs w <;> simp only [hv] at hp
          · split at hp <;> cases hp; simp
          · cases hp; simp
        · cases hp; simp
      have := modeEnc_length_le m env.bp snap.key plan.iv plan.body
      rw [hb] at this
      rw [List.length_append, hb]; omega
  · split at h
    · cases h
    · rename_i plan hp
      have hb : plan.body.length ≤ snap.data.length := by
        unfold prepareIv at hp; split at hp
        · unfold transportPrepare at hp; cases hv : fieldIvs w <;> simp only [hv] at hp
          · split at hp <;> cases hp; simp
          · cases hp; simp
        · cases hp; simp
      have := modeDec_length_le m env.bp snap.key plan.iv plan.body out h
      omega

/-- A command form computes `Exec` of its word (47_multiplexer.md R209). -/
theorem armResult_eq_muxExec (w : Word) (i : Instr) (hd : decode w = .ok i) (hn : fieldOpc w ≠ 0) (env : Env)
    (snap : Snapshot) : armResult i env snap = muxExec env w snap := by
  rcases decode_ok_cases w i hd with ⟨ho, rfl⟩ | ⟨hr, h⟩
  · exact absurd ho hn
  · rcases h with
        ⟨ho,hm,rfl⟩|⟨ho,hm,rfl⟩|⟨ho,hm,rfl⟩|⟨ho,hm,rfl⟩|⟨ho,hm,rfl⟩|⟨ho,hm,rfl⟩|⟨ho,hm,rfl⟩|⟨ho,hm,rfl⟩|⟨ho,hm,rfl⟩|⟨ho,hm,rfl⟩|⟨ho,rfl⟩|⟨ho,rfl⟩
    all_goals
      unfold muxExec
      simp only [armResult, encEcbResult, decEcbResult, encIvResult, decIvResult, padResult, unpadResult,
          construct, constructIv, checkLength, checkAlg, checkKey, checkIv, except_bind_eq, hr, ho]
      by_cases h1 : env.maxLen < snap.inLen.toNat <;> by_cases h2 : fieldAlg w = 0 <;> by_cases h3 :
          snap.keyLen = 16 <;> simp [modeOf, modeEnc, modeDec, pure, Except.pure, *]
    all_goals
      by_cases h4 : fieldIvs w = true <;> by_cases h5 : snap.ivLen = 16 <;> by_cases h6 :
          fieldXport w = true <;> try simp [h4, h5, h6]
    all_goals
      try (split <;> simp_all)

/-- A rejected word computes `Exec` of itself (47_multiplexer.md R209). -/
theorem rejectedResult_eq_muxExec (w : Word) (r : Reject) (hd : decode w = .error r) (env : Env) (snap : Snapshot)
    : rejectedResult r env snap = muxExec env w snap := by
  obtain ⟨h0, ⟨hr, rfl⟩ | ⟨hr, ho, rfl⟩ | ⟨hr, ho, hm, rfl⟩⟩ := decode_error_cases w r hd
  · simp [rejectedResult, muxExec, hr]
  · simp [rejectedResult, muxExec, ho]
  · have : modeOf (fieldMode w) = none := by
      have hm8 : fieldMode w < 8 := by rw [fieldMode, field_toNat]; omega
      generalize hm : fieldMode w = m at *
      interval_cases m <;> rfl
    rcases ho with ho | ho <;> simp only [rejectedResult, muxExec, ho, hr, this, checkLength,
        except_bind_eq] <;> by_cases hl : env.maxLen < snap.inLen.toNat <;> simp [hl]

/-- The output of an encryption of an IV mode fits. -/
theorem encIvResult_length_le {tr : Primitive → Block → Block → Bytes → Bytes} (htr : ∀ bp k iv p,
    (tr bp k iv p).length ≤ p.length + 16) {alg x v} {env : Env} {snap : Snapshot} {out : Bytes}
  (h : encIvResult tr alg x v env snap = .ok out) : out.length ≤ snap.data.length + 32 := by
  unfold encIvResult at h
  simp only [except_bind_eq] at h
  split at h
  · cases h
  · split at h
    · cases h
    · rename_i plan hp
      cases h
      have hb : plan.body = snap.data := by
        unfold prepareIv at hp; split at hp
        · unfold transportPrepare at hp; cases v <;> simp only at hp
          · split at hp <;> cases hp; rfl
          · cases hp; rfl
        · cases hp; rfl
      have hh : plan.header.length ≤ 16 := by
        unfold prepareIv at hp; split at hp
        · unfold transportPrepare at hp; cases v <;> simp only at hp
          · split at hp <;> cases hp; simp
          · cases hp; simp
        · cases hp; simp
      have := htr env.bp ‹Block› plan.iv plan.body
      rw [hb] at this
      rw [List.length_append, hb]; omega

/-- The output of a decryption of an IV mode fits. -/
theorem decIvResult_length_le {tr : Primitive → Block → Block → Bytes → Except ErrCode Bytes} (htr : ∀ bp k iv p o,
    tr bp k iv p = .ok o → o.length ≤ p.length) {alg x v} {env : Env} {snap : Snapshot} {out : Bytes}
  (h : decIvResult tr alg x v env snap = .ok out) : out.length ≤ snap.data.length + 32 := by
  unfold decIvResult at h
  simp only [except_bind_eq] at h
  split at h
  · cases h
  · split at h
    · cases h
    · rename_i plan hp
      have hb : plan.body.length ≤ snap.data.length := by
        unfold prepareIv at hp; split at hp
        · unfold transportPrepare at hp; cases v <;> simp only at hp
          · split at hp <;> cases hp; simp
          · cases hp; simp
        · cases hp; simp
      have := htr _ _ _ _ _ h
      omega

/-- The output of a command form fits OUT_BUF (10_state.md R36). -/
theorem armResult_length_le {i : Instr} {env : Env} {snap : Snapshot} {out : Bytes} (hd :
    snap.data.length ≤ Config.maxLen) (h : armResult i env snap = .ok out) : out.length ≤ outCapacity := by
  unfold outCapacity
  have hI : ∀ n, n ≤ snap.data.length + 32 → n ≤ Config.maxLen + 32 := by intros; omega
  apply hI
  cases i with
  | nop r => cases h; simp
  | pad =>
    simp only [armResult, padResult, except_bind_eq] at h
    split at h; · cases h
    cases h; rw [pad16_length]; omega
  | unpad =>
    simp only [armResult, unpadResult, except_bind_eq] at h
    split at h; · cases h
    have := unpad16_length_le h; omega
  | encEcb =>
    simp only [armResult, encEcbResult, except_bind_eq] at h
    split at h; · cases h
    cases h; simp; omega
  | decEcb =>
    simp only [armResult, decEcbResult, except_bind_eq] at h
    split at h; · cases h
    have := modeDec_length_le .ecb env.bp _ snap.iv snap.data out h; omega
  | encCbc => exact encIvResult_length_le (modeEnc_length_le .cbc) h
  | encCfb => exact encIvResult_length_le (modeEnc_length_le .cfb) h
  | encOfb => exact encIvResult_length_le (modeEnc_length_le .ofb) h
  | encCtr => exact encIvResult_length_le (modeEnc_length_le .ctr) h
  | decCbc => exact decIvResult_length_le (modeDec_length_le .cbc) h
  | decCfb => exact decIvResult_length_le (modeDec_length_le .cfb) h
  | decOfb => exact decIvResult_length_le (modeDec_length_le .ofb) h
  | decCtr => exact decIvResult_length_le (modeDec_length_le .ctr) h

/-- A snapshot holds no more bytes than IN_BUF has. -/
theorem snapshot_length_le {s : State} : s.snapshot.data.length ≤ Config.maxLen := by
  simp [State.snapshot]

/-- MAX_LEN of the environment. -/
theorem state_env_maxLen (s : State) : s.env.maxLen = Config.maxLen := rfl

/-- A command form on an accepted command, from its draw and its result. -/
theorem exec_endsWith {s : State} {snap : Snapshot} (ha : Accepted s snap) {i : Instr} (hn : ∀ r, i ≠ .nop r) {d :
    Bool} {r : Except ErrCode Bytes}
   (hd : armDraw i s.env snap = d) (hr : armResult i s.env snap = r) (hl : ∀ out, r = .ok out →
       out.length ≤ outCapacity) :
   ∃ t, exec i s = .next t ∧ EndsWith s t d.toNat r := by
  obtain ⟨hi, ⟨w, hp⟩, hf⟩ := ha
  rw [exec_eq_runCommand hn, runCommand_busy hp, hd, hr]
  exact ⟨_, rfl, complete_endsWith hi (by simp [State.busy, hp, Phase.isBusy]) _ _ hl⟩

/-- The length check passes. -/
theorem checkLength_ok {s : State} {snap : Snapshot} (hf : snap.inLen.toNat ≤ Config.maxLen) :
    checkLength s.env snap = .ok () := by
  have hf' : ¬ Config.maxLen < snap.inLen.toNat := by omega
  simp [checkLength, state_env_maxLen, hf']

/-- The checks of an ECB command pass. -/
theorem construct_ok {s : State} {snap : Snapshot} (hf : snap.inLen.toNat ≤ Config.maxLen) (hk : snap.keyLen = 16)
    : construct s.env snap 0 = .ok snap.key := by
  have hf' : ¬ Config.maxLen < snap.inLen.toNat := by omega
  simp [construct, checkLength, checkAlg, checkKey, except_bind_eq, state_env_maxLen, hf', hk]

/-- The construction checks of an IV mode pass. -/
theorem constructIv_ok {s : State} {snap : Snapshot} (hf : snap.inLen.toNat ≤ Config.maxLen) (hk :
    snap.keyLen = 16) {x v : Bool} (h : v = true ∧ snap.ivLen = 16 ∨ v = false ∧ x = true) :
        constructIv s.env snap 0 x v = .ok snap.key := by
  simp [constructIv, construct_ok hf hk, except_bind_eq, checkIv]
  rcases h with ⟨rfl, h⟩ | ⟨rfl, rfl⟩ <;> simp [*, pure, Except.pure]

/-- The reset input leaves a safe state. -/
theorem inv_hardReset {s : State} : s.hardReset.Inv := by
  refine ⟨drawn_wf _, drawn_within _ _ _, drawn_wf _, drawn_within _ _ _, ?_, ?_, ?_, ?_, ?_, ?_, ?_, ?_, ?_, ?_,
      ?_, ?_⟩ <;> simp [State.hardReset, State.reset, Status.reset, State.busy, Phase.isBusy, Memory.drawn]

/-- Acceptance keeps the invariant. -/
theorem inv_accept {s : State} (h : s.Inv) (hf : s.status.fatal = false) {w : Word} (hw : fieldOpc w ≠ 0) :
    (s.accept w).Inv := by
  obtain ⟨h1,h2,h3,h4,h5,h6,h7,h8,h9,h10,h11,h12,h13,h14,h15,h16⟩ := h
  refine ⟨h1, h2, zeroed_wf, zeroed_within _ _, ?_, ?_, ?_, ?_, ?_, ?_, ?_, ?_, ?_, ?_, ?_,
      ?_⟩ <;> simp [Status.accepted, hf, h15]
  · simp [Memory.zeroed]
  · exact ⟨hw, rfl⟩

/-- A completion keeps the invariant. -/
theorem inv_complete {s : State} (h : s.Inv) (hb : s.busy = true) (d : Bool) (r : Except ErrCode Bytes)
    (hl : ∀ out, r = .ok out → out.length ≤ outCapacity) : ((s.takeDraw d).complete r).Inv := by
  have hm := maxLen_range
  obtain ⟨h1,h2,h3,h4,h5,h6,h7,h8,h9,h10,h11,h12,h13,h14,h15,h16⟩ := h
  obtain ⟨hz, -⟩ := h10 hb
  cases r with
  | ok out =>
    have hl := hl out rfl
    have e : (BitVec.ofNat 17 out.length).toNat = out.length := by unfold outCapacity at hl; simp; omega
    refine ⟨h1, h2, writeBytes_wf h3 _ _, writeBytes_within h4 _ ⟨by omega, by omega⟩, ?_, ?_, ?_, ?_, ?_, ?_, ?_,
        ?_, ?_, ?_, ?_, ?_⟩
    · simp [State.complete]
    · simp [State.complete, Status.completedOk]
    · simp [State.complete, Status.completedOk]
    · simp [State.complete, Status.completedOk]
    · simp only [State.complete, completeOk_outLen, e]; exact hl
    · simp [State.complete]
    · simp [State.complete, Status.completedOk]
    · intro _
      show (s.outBuf.writeBytes outBase out).within _ (outBase + (BitVec.ofNat 17 out.length).toNat)
      rw [hz, e]
      exact writeBytes_within (zeroed_within _ _) _ ⟨by omega, by omega⟩
    · simp [State.complete, State.takeDraw, hz]
    · simp [State.complete]
    · rfl
    · simp [State.complete]
  | error e =>
    refine ⟨h1, h2, zeroed_wf, zeroed_within _ _, ?_, ?_, ?_, ?_, ?_, ?_, ?_, ?_, ?_, ?_, ?_, ?_⟩
    · simp [State.complete]
    · cases e <;> simp [State.complete, Status.completedErr, ErrCode.code]
    · simp [State.complete, Status.completedErr]
    · cases e <;> simp [State.complete, Status.completedErr, ErrCode.code]
    · simp [State.complete]
    · simp [State.complete]
    · exact fun _ => ⟨rfl, rfl⟩
    · exact fun _ => zeroed_within _ _
    · simp [State.complete]
    · simp [State.complete]
    · rfl
    · simp [State.complete]

/-- The schedule does not matter to the invariant. -/
theorem inv_withSchedule {s : State} (hi : s.Inv) (es : List Event) : (s.withSchedule es).Inv := by
  obtain ⟨h1,h2,h3,h4,h5,h6,h7,h8,h9,h10,h11,h12,h13,h14,h15,h16⟩ := hi
  exact ⟨h1,h2,h3,h4,h5,h6,h7,h8,h9,h10,h11,h12,h13,h14,h15,h16⟩

/-- The shown value does not matter to the invariant. -/
theorem inv_withRdata {s : State} (hi : s.Inv) (v : Word) : (s.withRdata v).Inv := by
  obtain ⟨h1,h2,h3,h4,h5,h6,h7,h8,h9,h10,h11,h12,h13,h14,h15,h16⟩ := hi
  exact ⟨h1,h2,h3,h4,h5,h6,h7,h8,h9,h10,h11,h12,h13,h14,h15,h16⟩

/-- A dropped write keeps the invariant. -/
theorem inv_dropWrite {s : State} (hi : s.Inv) : (s.dropWrite).Inv := by
  obtain ⟨h1,h2,h3,h4,h5,h6,h7,h8,h9,h10,h11,h12,h13,h14,h15,h16⟩ := hi
  exact ⟨h1,h2,h3,h4,h5,h6,h7,h8,h9,h10,h11,h12,h13,h14,h15,h16⟩

/-- Other inputs, while IDLE, keep the invariant. -/
theorem inv_withInputs {s : State} (hi : s.Inv) (hb : s.busy = false) (k iv : Block) (m : Memory) (hm : m.wf) (hw :
    m.within inBase (inBase + Config.maxLen)) (kl vl : BitVec 8) (il : BitVec 16) (ie : Bool) :
   ({ s with key := k, iv := iv, inBuf := m, keyLen := kl, ivLen := vl, inLen := il, ie := ie} : State).Inv := by
  obtain ⟨h1,h2,h3,h4,h5,h6,h7,h8,h9,h10,h11,h12,h13,h14,h15,h16⟩ := hi
  refine ⟨hm,hw,h3,h4,h5,h6,h7,h8,h9,h10,h11,h12,h13,h14,h15,?_⟩
  intro w snap hp
  have hp' : s.phase = .busy w snap := hp
  simp [State.busy, hp', Phase.isBusy] at hb

/-- A control register write while IDLE keeps the invariant. -/
theorem inv_writeReg {s : State} (hi : s.Inv) (hb : s.busy = false) (r : Reg) (v : Word) : (s.writeReg r v).Inv := by
  cases r with
  | cmd => exact hi
  | outLen => exact hi
  | lastCmd => exact hi
  | param => exact hi
  | caps => exact hi
  | ctrl => exact inv_withInputs hi hb s.key s.iv s.inBuf hi.1 hi.2 _ _ _ _
  | keyLen => exact inv_withInputs hi hb s.key s.iv s.inBuf hi.1 hi.2 _ _ _ _
  | ivLen => exact inv_withInputs hi hb s.key s.iv s.inBuf hi.1 hi.2 _ _ _ _
  | inLen => exact inv_withInputs hi hb s.key s.iv s.inBuf hi.1 hi.2 _ _ _ _
  | status =>
    obtain ⟨h1,h2,h3,h4,h5,h6,h7,h8,h9,h10,h11,h12,h13,h14,h15,h16⟩ := hi
    refine ⟨h1,h2,h3,h4,?_,?_,?_,?_,h9,h10,?_,h12,h13,h14,h15,h16⟩
    · intro hb2; exact absurd (hb.symm.trans hb2) (by simp)
    · simp only [State.writeReg, Status.written]
      cases v.getLsbD 1
      · simpa using h6
      · simp
    · simp only [State.writeReg, Status.written]
      cases v.getLsbD 1
      · simpa using h7
      · simp
    · simp only [State.writeReg, Status.written]
      cases v.getLsbD 1
      · simpa using h8
      · simp
    · simp only [State.writeReg, Status.written]
      cases v.getLsbD 1
      · simpa using h11
      · simp

/-- A byte write while IDLE keeps the invariant. -/
theorem inv_writeByte {s : State} (hi : s.Inv) (hb : s.busy = false) (a : Nat) (x : Byte) : (s.writeByte a x).Inv := by
  unfold State.writeByte
  split
  · exact hi
  · exact inv_withInputs hi hb _ s.iv s.inBuf hi.1 hi.2 _ _ _ _
  · exact inv_withInputs hi hb _ _ s.inBuf hi.1 hi.2 _ _ _ _
  · rename_i hr
    have : inBase ≤ a ∧ a < inBase + Config.maxLen := by
      unfold regionOf at hr
      split at hr; · cases hr
      split at hr; · cases hr
      split at hr; · cases hr
      split at hr
      · assumption
      · split at hr <;> cases hr
    exact inv_withInputs hi hb _ _ _ (write_wf hi.1 _ _) (write_within hi.2 this _) _ _ _ _
  · exact hi
  · exact hi

/-- A byte write does not change the phase. -/
theorem writeByte_busy (s : State) (a : Nat) (x : Byte) : (s.writeByte a x).busy = s.busy := by
  unfold State.writeByte; split <;> rfl

/-- A buffer write while IDLE keeps the invariant. -/
theorem inv_writeLanes {s : State} (hi : s.Inv) (hb : s.busy = false) (a : Nat) (xs : Bytes) :
    (s.writeLanes a xs).Inv := by
  induction xs generalizing s a with
  | nil => exact hi
  | cons x xs ih => exact ih (inv_writeByte hi hb a x) (by rw [writeByte_busy, hb]) _

end Sys2Proof.Machine
end

