-- ==== Sys2Proof/Laws/Padding.lean ====
section
/-! SUPPORT. What the padding unit can answer (spec/41_padding.md R120 to R124). -/

namespace Sys2Proof.Machine

/-- The OR of differences is 0 exactly when every byte is the one compared with. -/
theorem foldl_or_eq_zero (x : Byte) (l : Bytes) (a : Byte) : l.foldl (fun diff y => diff ||| (y ^^^ x))
    a = 0 ↔ a = 0 ∧ ∀ y ∈ l, y = x := by
  induction l generalizing a with
  | nil => simp
  | cons y ys ih =>
    rw [List.foldl_cons, ih]
    simp only [List.mem_cons, forall_eq_or_imp]
    have : a ||| (y ^^^ x) = 0 ↔ a = 0 ∧ y = x := by
      constructor
      · intro h
        have ha : a = 0 := by
          apply BitVec.eq_of_getLsbD_eq; intro i hi
          have := congrArg (fun z => BitVec.getLsbD z i) h
          simp at this; simp [this.1]
        refine ⟨ha, ?_⟩
        rw [ha] at h; simp at h; exact h
      · rintro ⟨rfl, rfl⟩; simp
    rw [this, and_assoc]

/-- There is no mismatch exactly when every byte is the one compared with. -/
theorem mismatch_eq_zero (x : Byte) (l : Bytes) : mismatch x l = 0 ↔ ∀ y ∈ l, y = x := by
  rw [mismatch, foldl_or_eq_zero]; simp

/-- Unpad16 gives `d` exactly when the string is `d` and a padding tail (R122). -/
theorem unpad16_ok_iff (q d : Bytes) : unpad16 q = .ok d ↔ PaddedAs q d := by
  constructor
  · intro h
    unfold unpad16 at h
    split at h
    · cases h
    · rename_i x hx
      split at h
      · cases h
      · rename_i hn
        split at h
        · cases h
        · rename_i hm
          cases h
          simp only [not_or, not_not] at hn hm
          refine ⟨x.toNat, by omega, by omega, ?_⟩
          rw [mismatch_eq_zero] at hm
          have e : q.drop (q.length - x.toNat) = List.replicate x.toNat (BitVec.ofNat 8 x.toNat) := by
            rw [List.eq_replicate_iff]
            refine ⟨by rw [List.length_drop]; omega, fun y hy => ?_⟩
            rw [hm y hy]; simp
          rw [← e, List.take_append_drop]
  · rintro ⟨n, h1, h2, rfl⟩
    have hl : (d ++ List.replicate n (BitVec.ofNat 8 n)).getLast? = some (BitVec.ofNat 8 n) := by
      rw [List.getLast?_append_of_ne_nil _ (by simp; omega), List.getLast?_replicate, if_neg (by omega)]
    unfold unpad16
    rw [hl]
    have hn : (BitVec.ofNat 8 n).toNat = n := by simp; omega
    simp only [hn]
    rw [if_neg (by simp; omega)]
    have : (d ++ List.replicate n (BitVec.ofNat 8 n)).length - n = d.length := by simp
    rw [this]
    simp
    apply (mismatch_eq_zero _ _).2
    intro y hy
    exact List.eq_of_mem_replicate hy

/-- Unpad16 rejects a string with no padding tail, and only with PaddingError (R122). -/
theorem unpad16_error (q : Bytes) (h : ∀ d, ¬ PaddedAs q d) : unpad16 q = .error .paddingError := by
  have hne : ∀ d, unpad16 q ≠ .ok d := fun d hd => h d ((unpad16_ok_iff q d).1 hd)
  unfold unpad16 at *
  split
  · rfl
  · rename_i x hx
    simp only [hx] at hne
    split
    · rfl
    · rename_i h1
      rw [if_neg h1] at hne
      split
      · rfl
      · rename_i h2
        rw [if_neg h2] at hne
        exact absurd rfl (hne _)

end Sys2Proof.Machine
end

