-- ==== Sys2Proof/Tests/Slice0.lean ====
section
/-! SUPPORT. The model's own tests. Expected words and bytes are written out from spec/30_encoding.md R102,
spec/opcode_table.json and spec/95_test_vectors.md. Then a witness for the hypotheses of every statement. -/

namespace Sys2Proof.Tests

open Sys2Proof.Machine

/-! ### Ill-formed terms are refused -/

theorem test_wellFormed_refuses_wide_alg :
    (Instr.encEcb 4 false false).wellFormed = false ∧ (Instr.decEcb 4 false false).wellFormed = false ∧
    (Instr.encCbc 4 false false).wellFormed = false ∧ (Instr.decCbc 4 false false).wellFormed = false ∧
    (Instr.encCfb 4 false false).wellFormed = false ∧ (Instr.decCfb 4 false false).wellFormed = false ∧
    (Instr.encOfb 4 false false).wellFormed = false ∧ (Instr.decOfb 4 false false).wellFormed = false ∧
    (Instr.encCtr 4 false false).wellFormed = false ∧ (Instr.decCtr 4 false false).wellFormed = false ∧
    (Instr.pad 0 4 false false).wellFormed = false ∧ (Instr.unpad 0 4 false false).wellFormed = false := by decide

theorem test_wellFormed_refuses_wide_mode :
    (Instr.pad 8 0 false false).wellFormed = false ∧ (Instr.unpad 8 0 false false).wellFormed = false := by decide

theorem test_wellFormed_refuses_wide_rest : (Instr.nop (2 ^ 28)).wellFormed = false := by decide

/-! ### Every constructor's word: OPC, MODE, ALG, XPORT and IVS written out bit by bit (R91 to R96) -/

/-- IVS, XPORT, ALG, 0, MODE, OPC. -/
theorem test_decode_encEcb : decode 0b00000000000000000000_0_0_10_0_000_0001 = .ok (.encEcb 2 false false) := by decide
theorem test_decode_decEcb : decode 0b00000000000000000000_1_0_00_0_000_0010 = .ok (.decEcb 0 false true) := by decide
theorem test_decode_encCbc : decode 0b00000000000000000000_1_1_00_0_001_0001 = .ok (.encCbc 0 true true) := by decide
theorem test_decode_decCbc : decode 0b00000000000000000000_0_1_01_0_001_0010 = .ok (.decCbc 1 true false) := by decide
theorem test_decode_encCfb : decode 0b00000000000000000000_1_0_00_0_010_0001 = .ok (.encCfb 0 false true) := by decide
theorem test_decode_decCfb : decode 0b00000000000000000000_0_1_00_0_010_0010 = .ok (.decCfb 0 true false) := by decide
theorem test_decode_encOfb : decode 0b00000000000000000000_1_0_11_0_011_0001 = .ok (.encOfb 3 false true) := by decide
theorem test_decode_decOfb : decode 0b00000000000000000000_0_1_00_0_011_0010 = .ok (.decOfb 0 true false) := by decide
theorem test_decode_encCtr : decode 0b00000000000000000000_1_0_00_0_100_0001 = .ok (.encCtr 0 false true) := by decide
theorem test_decode_decCtr : decode 0b00000000000000000000_0_1_00_0_100_0010 = .ok (.decCtr 0 true false) := by decide
theorem test_decode_pad : decode 0b00000000000000000000_0_1_10_0_101_0011 = .ok (.pad 5 2 true false) := by decide
theorem test_decode_unpad : decode 0b00000000000000000000_1_0_01_0_110_0100 = .ok (.unpad 6 1 false true) := by decide
theorem test_decode_nop : decode 0b10000000000000000000_0_0_00_0_000_0000 = .ok (.nop 0x8000000) := by decide

/-- Words of no row (30_encoding.md R100, 95_test_vectors.md section 3.2). -/
theorem test_decode_rejects_by_name :
    decode 0x00001001 = .error .reservedBits ∧ decode 0x00000083 = .error .reservedBits ∧
    decode 0x80000004 = .error .reservedBits ∧ decode 0x00000005 = .error .reservedOpcode ∧
    decode 0x0000000F = .error .reservedOpcode ∧ decode 0x00000051 = .error .unsupportedMode ∧
    decode 0x00000072 = .error .unsupportedMode := by decide

/-- The examples of R102 from their mnemonics' fields. -/
theorem test_encode_R102 :
    encode (.decCbc 0 false true) = 0x00000812 ∧ encode (.decCbc 0 true false) = 0x00000412 ∧
    encode (.encOfb 0 false true) = 0x00000831 ∧ encode (.encCtr 0 false true) = 0x00000841 ∧
    encode (.decCtr 0 true false) = 0x00000442 ∧ encode (.pad 0 0 false false) = 0x00000003 := by decide

theorem test_decodeTableWord :
    decodeTableWord 32 0x00000C11 = some (.encCbc 0 true true) ∧ decodeTableWord 32 0x00000081 = none := by decide

/-! ### Results under the test primitive TOY (95_test_vectors.md section 2) -/

/-- `TOY.E` and `TOY.D`. -/
def toy : Primitive where
  enc k x := blockOf ((List.range 16).map fun j => blockGet x ((j + 1) % 16) ^^^ blockGet k ((j + 1) % 16))
  dec k y := blockOf ((List.range 16).map fun j => blockGet y ((j + 15) % 16) ^^^ blockGet k j)

/-- `n` bytes counting up from `a`. -/
def counting (a n : Nat) : Bytes := (List.range n).map fun i => BitVec.ofNat 8 (a + i)

/-- `n` bytes of one value. -/
def rep (x : Byte) (n : Nat) : Bytes := List.replicate n x

/-- The conventions of section 3: MAX_LEN = 256. -/
def toyEnv (rng : Option Block) : Env where
  maxLen := 256
  bp := toy
  rng := rng

/-- K = 000102..0f, IV = f0f1..ff, both lengths 16. -/
def toySnap (data : Bytes) : Snapshot where
  key := blockOf (counting 0 16)
  keyLen := 16
  iv := blockOf (counting 0xF0 16)
  ivLen := 16
  inLen := BitVec.ofNat 16 data.length
  data := data

/-- "hello world!" -/
def P12 : Bytes := [0x68, 0x65, 0x6C, 0x6C, 0x6F, 0x20, 0x77, 0x6F, 0x72, 0x6C, 0x64, 0x21]

/-- The ECB ciphertext of P12 (42_ecb.md R143). -/
def ecbP12 : Bytes :=
  [0x64, 0x6E, 0x6F, 0x6B, 0x25, 0x71, 0x68, 0x7A, 0x65, 0x6E, 0x2A, 0x08, 0x09, 0x0A, 0x0B, 0x68]

theorem test_encEcb_example : armResult (.encEcb 0 true false) (toyEnv none) (toySnap P12) = .ok ecbP12 := by decide

theorem test_decEcb_example : armResult (.decEcb 0 false true) (toyEnv none) (toySnap ecbP12) = .ok P12 := by decide

/-- E2: the decrypted block ends in 02 03 03. -/
theorem test_decEcb_bad_padding :
    armResult (.decEcb 0 false false) (toyEnv none) (toySnap (counting 1 12 ++ [0x0F, 0x0D, 0x0C, 0x00])) =
      .error .paddingError := by decide

/-- E3: the empty plaintext in transport mode with a supplied IV. -/
theorem test_encCbc_empty_transport :
    armResult (.encCbc 0 true true) (toyEnv none) (toySnap []) = .ok (counting 0xF0 16 ++ rep 0xE0 16) := by decide

/-- The CBC ciphertext of 00112233..ff (43_cbc.md R154). -/
def cbcP16 : Bytes :=
  [0xE1, 0xD2, 0xC3, 0xB4, 0xA5, 0x96, 0x87, 0x78, 0x69, 0x5A, 0x4B, 0x3C, 0x2D, 0x1E, 0x0F, 0xF0] ++
  [0xC3, 0xD1, 0xA7, 0xB1, 0x83, 0x91, 0x6F, 0x71, 0x43, 0x51, 0x27, 0x31, 0x03, 0x11, 0xEF, 0xF1]

theorem test_encCbc_example :
    armResult (.encCbc 0 false true) (toyEnv none) (toySnap ((List.range 16).map fun i => BitVec.ofNat 8 (17 * i))) =
      .ok cbcP16 := by decide

theorem test_decCbc_example :
    armResult (.decCbc 0 false true) (toyEnv none) (toySnap cbcP16) =
      .ok ((List.range 16).map fun i => BitVec.ofNat 8 (17 * i)) := by decide

/-- E3: the IV is read from the input. -/
theorem test_decCbc_transport :
    armResult (.decCbc 0 true false) (toyEnv none) (toySnap (counting 0xF0 16 ++ rep 0xE0 16)) = .ok [] := by decide

/-- 44_cfb.md R169 and R170. -/
theorem test_encCfb_example :
    armResult (.encCfb 0 false true) (toyEnv none) (toySnap (counting 0 20)) =
      .ok (counting 0xF0 16 ++ counting 0xE0 4) := by decide

theorem test_decCfb_example :
    armResult (.decCfb 0 false true) (toyEnv none) (toySnap (counting 0xF0 16 ++ counting 0xE0 4)) =
      .ok (counting 0 20) := by decide

/-- 45_ofb.md R182 and R183. -/
theorem test_encOfb_example :
    armResult (.encOfb 0 false true) (toyEnv none) (toySnap (counting 0 20)) =
      .ok (counting 0xF0 16 ++ [0xE1, 0xE3, 0xE1, 0xE7]) := by decide

theorem test_decOfb_example :
    armResult (.decOfb 0 false true) (toyEnv none) (toySnap (counting 0xF0 16 ++ [0xE1, 0xE3, 0xE1, 0xE7])) =
      .ok (counting 0 20) := by decide

/-- 46_ctr.md R196: the counter wraps from ff..ff to 00..00. -/
theorem test_encCtr_wraps :
    armResult (.encCtr 0 false true) (toyEnv none)
      { toySnap (rep 0 32) with key := zeroBlock, iv := blockOf (rep 0xFF 16) } = .ok (rep 0xFF 16 ++ rep 0 16) := by
  decide

/-- 46_ctr.md R194. -/
theorem test_decCtr_example :
    armResult (.decCtr 0 false true) (toyEnv none) (toySnap (counting 0xF0 16 ++ counting 0xE0 4)) =
      .ok (counting 0 20) := by decide

/-- E4: 15 bytes hold no IV. -/
theorem test_decCtr_short_input :
    armResult (.decCtr 0 true false) (toyEnv none) (toySnap (rep 0 15)) = .error .fileError := by decide

/-- 41_padding.md R127, and E1. -/
theorem test_pad_examples :
    armResult (.pad 7 3 true true) (toyEnv none) (toySnap [0x41]) = .ok (0x41 :: rep 0x0F 15) ∧
    armResult (.pad 0 0 false false) (toyEnv none) (toySnap (counting 0 16)) = .ok (counting 0 16 ++ rep 0x10 16) := by
  decide

/-- 41_padding.md R128: the example and the corner cases. -/
theorem test_unpad_examples :
    armResult (.unpad 0 0 false false) (toyEnv none) (toySnap [0x41, 0x42, 3, 3, 3]) = .ok [0x41, 0x42] ∧
    armResult (.unpad 0 0 false false) (toyEnv none) (toySnap [5, 5, 5]) = .error .paddingError ∧
    armResult (.unpad 0 0 false false) (toyEnv none) (toySnap (rep 0x10 16)) = .ok [] ∧
    armResult (.unpad 0 0 false false) (toyEnv none) (toySnap (rep 0x11 17)) = .error .paddingError := by decide

/-- A drawn IV is put before the ciphertext (48_iv_transport.md R238), and a failed draw is an error (R237). -/
theorem test_transport_draw :
    armResult (.encCtr 0 true false) (toyEnv (some zeroBlock)) (toySnap []) = .ok (rep 0 16) ∧
    armResult (.encCtr 0 true false) (toyEnv none) (toySnap []) = .error .entropyFailure ∧
    armDraw (.encCtr 0 true false) (toyEnv none) (toySnap []) = true ∧
    armDraw (.encCtr 1 true false) (toyEnv none) (toySnap []) = false := by decide

/-- 60_exceptions.md R255, its table of precedence. -/
theorem test_precedence :
    muxExec (toyEnv none) 0x71 { toySnap [] with keyLen := 0 } = .error .invalidArgument ∧
    muxExec (toyEnv none) 0x111 { toySnap [] with inLen := 257 } = .error .illegalCommand ∧
    muxExec (toyEnv none) 0x12 { toySnap [] with keyLen := 8 } = .error .invalidKey ∧
    muxExec (toyEnv none) 0x412 (toySnap (rep 0 20)) = .error .crypto ∧
    muxExec (toyEnv none) 0x402 (toySnap []) = .error .crypto ∧
    muxExec (toyEnv none) 0x4 (toySnap []) = .error .paddingError ∧
    muxExec (toyEnv none) 0x1001 (toySnap []) = .error .illegalCommand := by decide

/-! ### The bus, from reset (95_test_vectors.md section 3.1) -/

/-- The state an outcome goes to, or a given one. -/
def after (o : Host.Outcome State Fault Refusal) (s : State) : State :=
  match o with
  | .next t => t
  | .fault _ => s
  | .refused _ => s

/-- Reset, then IV = f0f1..ff. -/
def withIv : State := State.reset.writeLanes 0x50 (counting 0xF0 16)

theorem test_bus_reads :
    withIv.busRead .four 0x50 = 0xF3F2F1F0 ∧ withIv.busRead .two 0x52 = 0xF3F2 ∧ withIv.busRead .two 0x53 = 0xF3F2 ∧
    withIv.busRead .one 0x55 = 0xF5 ∧ withIv.busRead .four 0x24 = 0x001E0310 ∧ withIv.busRead .two 0x26 = 0x001E ∧
    withIv.busRead .four 0x00 = 0 ∧ withIv.busRead .four 0x28 = 0 := by decide

/-- A misaligned write acts on the offset rounded down. -/
theorem test_bus_write_aligned :
    (after (withIv.hostWrite .four 0x53 0x11223344) withIv).busRead .four 0x50 = 0x11223344 ∧
    (after (withIv.hostWrite .four 0x53 0x11223344) withIv).busRead .four 0x54 = 0xF7F6F5F4 := by decide

theorem test_control_writes :
    (after (withIv.hostWrite .two 0x08 1) withIv).busRead .four 0x08 = 0 ∧
    (after (withIv.hostWrite .four 0x08 1) withIv).busRead .four 0x08 = 1 ∧
    (after (withIv.hostWrite .four 0x0C 0x1234) withIv).busRead .four 0x0C = 0x34 ∧
    (after (withIv.hostWrite .four 0x14 0x12345) withIv).busRead .four 0x14 = 0x2345 := by decide

/-- KEY takes a write and reads as zero. -/
theorem test_key_is_write_only :
    (after (withIv.hostWrite .four 0x40 0x04030201) withIv).busRead .four 0x40 = 0 ∧
    blockGet (after (withIv.hostWrite .four 0x40 0x04030201) withIv).key 2 = 3 := by decide

/-! ### Single steps -/

/-- PAD of the empty input right after reset (70_reset_and_hazards.md R283). -/
theorem test_step_pad_after_reset :
    (after (step (State.reset.withFetchWord 32 0x3)) State.reset).busRead .four 0x04 = 0x2 ∧
    (after (step (State.reset.withFetchWord 32 0x3)) State.reset).busRead .four 0x18 = 16 ∧
    (after (step (State.reset.withFetchWord 32 0x3)) State.reset).outByte 15 = 0x10 := by decide

/-- ENC.CBC/X right after reset fails with InvalidKey (R283). -/
theorem test_step_encCbc_after_reset :
    (after (step (State.reset.withFetchWord 32 0x411)) State.reset).busRead .four 0x04 = 0x106 ∧
    (after (step (State.reset.withFetchWord 32 0x411)) State.reset).busRead .four 0x1C = 0x411 := by decide

/-- A NOP word changes nothing, whatever its other bits (47_multiplexer.md R207). -/
theorem test_step_nop : step (State.reset.withFetchWord 32 0xFFFFFFF0) = .next State.reset := by rfl

/-- A reserved opcode is accepted and completes with IllegalCommand (30_encoding.md R100). -/
theorem test_engine_reserved_opcode :
    (after (State.reset.accept 0x5).engineTurn State.reset).busRead .four 0x04 = 0x706 := by decide

/-! ### States that meet the hypotheses of the statements -/

/-- An idle block that went through a reset: KEY, IV, their lengths, IN_LEN and IN_BUF are written. -/
def demoIdle (keyLen ivLen : BitVec 8) (data : Bytes) (entropy : List (Option Block)) : State :=
  { State.reset.hardReset with
    key := blockOf (counting 0 16)
    keyLen := keyLen
    iv := blockOf (counting 0xF0 16)
    ivLen := ivLen
    inLen := BitVec.ofNat 16 data.length
    inBuf := Memory.zeroed.writeBytes inBase data
    entropy := entropy }

/-- The same block with an accepted command word. -/
def demo (keyLen ivLen : BitVec 8) (w : Word) (data : Bytes) (entropy : List (Option Block)) : State :=
  (demoIdle keyLen ivLen data entropy).accept w

/-- Its snapshot. -/
def demoSnap (keyLen ivLen : BitVec 8) (data : Bytes) : Snapshot := (demoIdle keyLen ivLen data []).snapshot

theorem demoIdle_inv {keyLen ivLen : BitVec 8} {data : Bytes} (h : data.length ≤ 32) (entropy : List (Option Block)) :
    (demoIdle keyLen ivLen data entropy).Inv := by
  obtain ⟨_, _, h3, h4, h5, h6, h7, h8, h9, h10, h11, h12, h13, h14, h15, _⟩ := inv_hardReset (s := State.reset)
  have hm := maxLen_range
  exact ⟨writeBytes_wf zeroed_wf _ _, writeBytes_within (zeroed_within _ _) _ ⟨by omega, by omega⟩, h3, h4, h5, h6, h7, h8,
    h9, h10, h11, h12, h13, h14, h15, fun w snap e => by cases e⟩

theorem demo_data {keyLen ivLen : BitVec 8} {data : Bytes} (h : data.length ≤ 32) :
    (demoSnap keyLen ivLen data).data = data := by
  have hm := maxLen_range
  have hl : min (BitVec.ofNat 16 data.length).toNat Config.maxLen = data.length := by simp; omega
  show (Memory.zeroed.writeBytes inBase data).readBytes inBase (min (BitVec.ofNat 16 data.length).toNat Config.maxLen) = data
  rw [hl]
  apply List.ext_getElem (by simp)
  intro i h1 h2
  rw [readBytes_getElem, read_writeBytes, dif_pos h2]

theorem demo_accepted {keyLen ivLen : BitVec 8} {w : Word} {data : Bytes} (h : data.length ≤ 32) (hw : fieldOpc w ≠ 0)
    (entropy : List (Option Block)) : Accepted (demo keyLen ivLen w data entropy) (demoSnap keyLen ivLen data) := by
  have hm := maxLen_range
  refine ⟨inv_accept (demoIdle_inv h entropy) rfl hw, ⟨w, rfl⟩, ?_⟩
  show (BitVec.ofNat 16 data.length).toNat ≤ Config.maxLen
  simp; omega

/-! ### A witness for the hypotheses of every statement that has some, each case of them at its boundary -/

/-- DecodeOfEncodeGivesTheTermBack: every field at its greatest value. -/
theorem witness_wellFormed :
    (Instr.encCtr 3 true true).wellFormed = true ∧ (Instr.decEcb 3 true true).wellFormed = true ∧
    (Instr.pad 7 3 true true).wellFormed = true ∧ (Instr.unpad 7 3 true true).wellFormed = true ∧
    (Instr.nop (2 ^ 28 - 1)).wellFormed = true := by decide

/-- EncodeOfDecodeGivesTheWordBack, DecodeFollowsTheOpcodeTable: words with every free bit set. -/
theorem witness_decoded_words :
    decode 0x00000F42 = .ok (.decCtr 3 true true) ∧ decode 0x00000F74 = .ok (.unpad 7 3 true true) ∧
    decode 0xFFFFFFF0 = .ok (.nop 0xFFFFFFF) := by decide

theorem witness_rows :
    ((0x00000042, 0xFFFFF0FF) ∈ tableRows ∧ (0x00000F42 : Word) &&& 0xFFFFF0FF = 0x00000042) ∧
    ((0x00000004, 0xFFFFF08F) ∈ tableRows ∧ (0x00000F74 : Word) &&& 0xFFFFF08F = 0x00000004) ∧
    ((0x00000000, 0x0000000F) ∈ tableRows ∧ (0xFFFFFFF0 : Word) &&& 0x0000000F = 0x00000000) := by decide

/-- DecodeFollowsTheOpcodeTable: words that match no row, one for each reason. -/
theorem witness_no_row :
    (∀ row ∈ tableRows, (0x00000081 : Word) &&& row.2 ≠ row.1) ∧ (∀ row ∈ tableRows, (0x00000005 : Word) &&& row.2 ≠ row.1) ∧
    (∀ row ∈ tableRows, (0x00000051 : Word) &&& row.2 ≠ row.1) := by simp [tableRows]

/-- ControlRegistersReadTheirValues: IDLE, and the first and last reserved offset. -/
theorem witness_control_reads :
    State.reset.busy = false ∧ 0x28 ≤ (0x28 : Offset).toNat ∧ (0x3F : Offset).toNat < 0x40 := by decide

/-- NoReadRevealsTheKey: the first and last offset of KEY. -/
theorem witness_key_offsets : 0x40 ≤ (0x40 : Offset).toNat ∧ (0x4F : Offset).toNat < 0x50 := by decide

/-- ReadsAreAlignedAndLittleEndian: the last lane, the last byte of each register and buffer, the last and first reserved
offset beside each. -/
theorem witness_lane :
    3 < 4 ∧ 15 < 16 ∧ Config.maxLen - 1 < Config.maxLen ∧ Config.maxLen + 31 < Config.maxLen + 32 ∧
    (0x28 ≤ 0x28 ∧ 0x3F < 0x40) ∧ (0x60 ≤ 0x60 ∧ 0xFFFF < 0x10000) ∧
    (0x10000 + Config.maxLen ≤ 0x10000 + Config.maxLen ∧ 0x10000 + Config.maxLen < 0x20000 ∧
      0x10000 + Config.maxLen ≤ 0x1FFFF ∧ 0x1FFFF < 0x20000) ∧
    (0x20000 + (Config.maxLen + 32) ≤ 0x20000 + (Config.maxLen + 32) ∧ 0x20000 + (Config.maxLen + 32) < 0x40000 ∧
      0x20000 + (Config.maxLen + 32) ≤ 0x3FFFF ∧ 0x3FFFF < 0x40000) := by
  have hm := maxLen_range
  omega

/-- BufferWritesStoreTheirLanes: IDLE, and the offsets where the regions begin and end. -/
theorem witness_buffer_writes :
    State.reset.busy = false ∧ 0x40 ≤ (0x40 : Offset).toNat ∧ 0x40 ≤ (0x5F : Offset).toNat ∧
    0x40 ≤ (0x10000 : Offset).toNat ∧ 0x40 ≤ (0x3FFFF : Offset).toNat ∧
    alignDown .four 0x4F ≤ 0x40 + 15 ∧ 0x40 + 15 < alignDown .four 0x4F + Width.four.bytes ∧
    alignDown .two 0x50 ≤ 0x50 + 0 ∧ 0x50 + 0 < alignDown .two 0x50 + Width.two.bytes ∧
    alignDown .one 0x10000 ≤ 0x10000 + 0 ∧ 0x10000 + 0 < alignDown .one 0x10000 + Width.one.bytes := by decide

/-- NarrowControlWritesAreIgnored. -/
theorem witness_narrow_writes :
    State.reset.busy = false ∧ Width.one ≠ .four ∧ Width.two ≠ .four ∧ (0x00 : Offset).toNat < 0x40 ∧
    (0x3F : Offset).toNat < 0x40 := by decide

/-- ControlWritesStoreTheirFields: the first and last offset of each register. -/
theorem witness_control_writes :
    State.reset.busy = false ∧ 0x08 ≤ (0x08 : Offset).toNat ∧ (0x0B : Offset).toNat < 0x0C ∧
    0x0C ≤ (0x0C : Offset).toNat ∧ (0x0F : Offset).toNat < 0x10 ∧ 0x10 ≤ (0x10 : Offset).toNat ∧
    (0x13 : Offset).toNat < 0x14 ∧ 0x14 ≤ (0x14 : Offset).toNat ∧ (0x17 : Offset).toNat < 0x18 ∧
    0x18 ≤ (0x18 : Offset).toNat ∧ (0x3F : Offset).toNat < 0x40 := by decide

/-- StatusWriteClearsWhatItsBitsSay: IDLE and BUSY, the first and last offset of STATUS, both values of both bits. -/
theorem witness_status_writes :
    4 ≤ (4 : Offset).toNat ∧ (7 : Offset).toNat < 8 ∧ State.reset.busy = false ∧ (State.reset.accept 0x3).busy = true ∧
    Width.two ≠ .four ∧ (0xA : Word).getLsbD 1 = true ∧ (0xA : Word).getLsbD 3 = true ∧ (0 : Word).getLsbD 1 = false ∧
    (0 : Word).getLsbD 3 = false := by decide

/-- BusyWritesAreDroppedWithOvr, NoReadRevealsOutputWhileBusy: BUSY, and the ends of OUT_BUF's window and of OUT_LEN. -/
theorem witness_busy :
    (demo 16 16 0x3 [] []).busy = true ∧ 0x20000 ≤ (0x20000 : Offset).toNat ∧ (0x2FFFF : Offset).toNat < 0x30000 ∧
    0x18 ≤ (0x18 : Offset).toNat ∧ (0x1B : Offset).toNat < 0x1C := by decide

/-- SystemBusReachesTheBlockAtBase: the first address above the block. -/
theorem witness_system_bus : Config.base + 0x40000 ≤ Config.base + 0x40000 := Nat.le_refl _

/-- StepRunsTheDecodedCommand: a schedule of each form, a pending word that decodes, and a NOP while IDLE. -/
theorem witness_step :
    (State.reset.withSchedule [.write .two 0x50 1]).schedule = .write .two 0x50 1 :: [] ∧
    (State.reset.withSchedule [.read .one 0x3FFFF]).schedule = .read .one 0x3FFFF :: [] ∧
    (State.reset.withSchedule [.reset]).schedule = .reset :: [] ∧
    (State.reset.withSchedule [.engine]).schedule = .engine :: [] ∧ State.reset.schedule = [] ∧
    (demo 16 16 0x442 [] []).phase = .busy 0x442 (demoSnap 16 16 []) ∧ decode 0x442 = .ok (.decCtr 0 true false) ∧
    State.reset.phase = .idle ∧ State.reset.busy = false ∧ decode 0xFFFFFFF0 = .ok (.nop 0xFFFFFFF) ∧
    (0 : Offset).toNat < 4 ∧ (3 : Offset).toNat < 4 :=
  ⟨rfl, rfl, rfl, rfl, rfl, rfl, by decide, rfl, rfl, by decide, by decide, by decide⟩

/-- AcceptanceTakesTheSnapshotAndClearsTheResult: a request while IDLE; and an event while BUSY that leaves it BUSY. -/
theorem witness_acceptance :
    (State.reset.busy = false ∧ State.reset.status.fatal = false ∧ fieldOpc 0x1 ≠ 0 ∧ (0 : Offset).toNat < 4 ∧
      (3 : Offset).toNat < 4) ∧
    ∃ t, (demo 16 16 0x3 [] []).busy = true ∧ (demo 16 16 0x3 [] []).handle (.write .four 0 1) = .next t ∧ t.busy = true :=
  ⟨by decide, _, rfl, rfl, rfl⟩

/-- NopChangesNoState. -/
theorem witness_nop :
    State.reset.busy = false ∧ fieldOpc 0xFFFFFFF0 = 0 ∧ (0 : Offset).toNat < 4 ∧ (3 : Offset).toNat < 4 := by decide

/-- A FATAL block: the completion of a command whose draw failed. -/
def fatalState : State := (demo 16 16 0x411 [] []).completeErr .entropyFailure

/-- FatalIgnoresCommands: a command request; and any event that is no reset. -/
theorem witness_fatal :
    (fatalState.busy = false ∧ fatalState.status.fatal = true ∧ fieldOpc 0x3 ≠ 0 ∧ (3 : Offset).toNat < 4) ∧
    ∃ t, Event.write .four 0 3 ≠ .reset ∧ fatalState.handle (.write .four 0 3) = .next t :=
  ⟨by decide, _, by decide, rfl⟩

/-- EngineCompletesWithExec: a pending word that asks for a draw, and one that does not. -/
theorem witness_engine :
    ((demo 16 16 0x411 [] []).Inv ∧ (demo 16 16 0x411 [] []).phase = .busy 0x411 (demoSnap 16 16 []) ∧
      AsksForDraw 0x411 (demoSnap 16 16 [])) ∧
    ((demo 16 16 0xC11 [] []).Inv ∧ (demo 16 16 0xC11 [] []).phase = .busy 0xC11 (demoSnap 16 16 []) ∧
      ¬ AsksForDraw 0xC11 (demoSnap 16 16 [])) :=
  ⟨⟨(demo_accepted (by decide) (by decide) _).inv, rfl, by decide, by decide, by decide, by decide, by decide, by decide,
      Nat.zero_le _, by decide, rfl⟩,
    (demo_accepted (by decide) (by decide) _).inv, rfl, fun h => absurd h.2.2.2.2.2.1 (by decide)⟩

/-- UnlistedWordsCompleteWithTheirError: a reserved bit, a reserved opcode, and an unsupported mode of each direction. -/
theorem witness_unlisted :
    ((demo 16 16 0x81 [] []).Inv ∧ reservedBitSet 0x81 = true) ∧ ((demo 16 16 0x5 [] []).Inv ∧ 5 ≤ fieldOpc 0x5) ∧
    ((demo 16 16 0x51 [] []).Inv ∧ reservedBitSet 0x51 = false ∧ fieldOpc 0x51 = 1 ∧ 5 ≤ fieldMode 0x51 ∧
      (demoSnap 16 16 []).inLen.toNat ≤ Config.maxLen) ∧
    ((demo 16 16 0x72 [] []).Inv ∧ reservedBitSet 0x72 = false ∧ fieldOpc 0x72 = 2 ∧ 5 ≤ fieldMode 0x72 ∧
      (demoSnap 16 16 []).inLen.toNat ≤ Config.maxLen) :=
  ⟨⟨(demo_accepted (by decide) (by decide) _).inv, by decide⟩, ⟨(demo_accepted (by decide) (by decide) _).inv, by decide⟩,
    ⟨(demo_accepted (by decide) (by decide) _).inv, by decide, by decide, by decide, Nat.zero_le _⟩,
    ⟨(demo_accepted (by decide) (by decide) _).inv, by decide, by decide, by decide, Nat.zero_le _⟩⟩

/-- A block with IN_LEN = 65535, which no MAX_LEN reaches, and an accepted word. -/
def longState (w : Word) : State := ({ State.reset with inLen := 0xFFFF }).accept w

/-- LongInputIsIllegal: an accepted word, a listed one and a form of PAD. -/
theorem witness_long :
    (longState 0x71).phase = .busy 0x71 { State.reset.snapshot with inLen := 0xFFFF, data := (longState 0x71).snapshot.data } ∧
    Config.maxLen < (0xFFFF : BitVec 16).toNat ∧ fieldOpc 0x71 ≠ 0 ∧ ∀ rest, Instr.pad 7 3 true true ≠ .nop rest :=
  ⟨rfl, by have := maxLen_range; show Config.maxLen < 65535; omega, by decide, fun _ h => by cases h⟩

/-- AlgorithmIsCheckedBeforeKeyLength: ALG 1 and 3, and lengths 15 and 17. -/
theorem witness_alg_and_key :
    (cipherFields (.encEcb 1 false false) = some (1, false, false) ∧
      Accepted (demo 16 16 0x101 [] []) (demoSnap 16 16 []) ∧ (1 : Nat) ≠ 0) ∧
    (cipherFields (.decCtr 3 true true) = some (3, true, true) ∧
      Accepted (demo 0 16 0xF42 [] []) (demoSnap 0 16 []) ∧ (3 : Nat) ≠ 0) ∧
    (cipherFields (.encEcb 0 false false) = some (0, false, false) ∧
      Accepted (demo 15 16 0x1 [] []) (demoSnap 15 16 []) ∧ (demoSnap 15 16 []).keyLen ≠ 16) ∧
    (cipherFields (.decCtr 0 true true) = some (0, true, true) ∧
      Accepted (demo 17 16 0xC42 [] []) (demoSnap 17 16 []) ∧ (demoSnap 17 16 []).keyLen ≠ 16) :=
  ⟨⟨rfl, demo_accepted (by decide) (by decide) _, by decide⟩, ⟨rfl, demo_accepted (by decide) (by decide) _, by decide⟩,
    ⟨rfl, demo_accepted (by decide) (by decide) _, by decide⟩, ⟨rfl, demo_accepted (by decide) (by decide) _, by decide⟩⟩

/-- IvModesCheckTheSuppliedIv: a supplied IV of 15 bytes in raw mode and of 17 in transport mode, and raw mode with
none. -/
theorem witness_iv_checks :
    (isIvForm (.encCbc 0 false true) = true ∧ Accepted (demo 16 15 0x811 [] []) (demoSnap 16 15 []) ∧
      (demoSnap 16 15 []).keyLen = 16 ∧ (demoSnap 16 15 []).ivLen ≠ 16) ∧
    (isIvForm (.decCtr 0 true true) = true ∧ Accepted (demo 16 17 0xC42 [] []) (demoSnap 16 17 []) ∧
      (demoSnap 16 17 []).keyLen = 16 ∧ (demoSnap 16 17 []).ivLen ≠ 16) ∧
    (isIvForm (.encOfb 0 false false) = true ∧ Accepted (demo 16 16 0x31 [] []) (demoSnap 16 16 []) ∧
      (demoSnap 16 16 []).keyLen = 16) :=
  ⟨⟨rfl, demo_accepted (by decide) (by decide) _, rfl, by decide⟩, ⟨rfl, demo_accepted (by decide) (by decide) _, rfl, by decide⟩,
    rfl, demo_accepted (by decide) (by decide) _, rfl⟩

/-- BlockDecryptionsRequireWholeBlocks: no byte and 17 bytes; and bodies of no byte after an IV, and of 17 bytes. -/
theorem witness_whole_blocks :
    (Accepted (demo 16 16 0x2 [] []) (demoSnap 16 16 []) ∧ (demoSnap 16 16 []).keyLen = 16 ∧
      (demoSnap 16 16 []).data.length = 0) ∧
    (Accepted (demo 16 16 0x2 (rep 1 17) []) (demoSnap 16 16 (rep 1 17)) ∧ (demoSnap 16 16 (rep 1 17)).data.length % 16 ≠ 0) ∧
    (Accepted (demo 16 16 0x412 (rep 1 16) []) (demoSnap 16 16 (rep 1 16)) ∧
      DecInput (demoSnap 16 16 (rep 1 16)) true false (blockOf (rep 1 16)) [] ∧ ([] : Bytes).length = 0) ∧
    (Accepted (demo 16 16 0x812 (rep 1 17) []) (demoSnap 16 16 (rep 1 17)) ∧
      DecInput (demoSnap 16 16 (rep 1 17)) false true (blockOf (counting 0xF0 16)) (rep 1 17) ∧ (rep 1 17).length % 16 ≠ 0) := by
  refine ⟨⟨demo_accepted (by decide) (by decide) _, rfl, ?_⟩, ⟨demo_accepted (by decide) (by decide) _, ?_⟩,
    ⟨demo_accepted (by decide) (by decide) _, Or.inr ?_, rfl⟩, demo_accepted (by decide) (by decide) _, Or.inl ?_, by decide⟩ <;>
    rw [demo_data (by decide)] <;> decide

/-- ShortInputHoldsNoIv: 15 bytes. -/
theorem witness_short :
    Accepted (demo 16 16 0x442 (rep 1 15) []) (demoSnap 16 16 (rep 1 15)) ∧ (demoSnap 16 16 (rep 1 15)).keyLen = 16 ∧
    (demoSnap 16 16 (rep 1 15)).data.length < 16 := by
  refine ⟨demo_accepted (by decide) (by decide) _, rfl, ?_⟩
  rw [demo_data (by decide)]; decide

/-- FailedDrawIsFatal: the entropy port answers Fail. -/
theorem witness_failed_draw :
    Accepted (demo 16 16 0x411 [] [none]) (demoSnap 16 16 []) ∧ (demoSnap 16 16 []).keyLen = 16 ∧
    (demo 16 16 0x411 [] [none]).rngAnswer = none :=
  ⟨demo_accepted (by decide) (by decide) _, rfl, rfl⟩

/-- PadAppendsItsCount, EncEcbEncryptsEachPaddedBlock: an input of one whole block. -/
theorem witness_accepted :
    Accepted (demo 0 0 0x3 (rep 1 16) []) (demoSnap 0 0 (rep 1 16)) ∧
    Accepted (demo 16 16 0x1 (rep 1 16) []) (demoSnap 16 16 (rep 1 16)) ∧ (demoSnap 16 16 (rep 1 16)).keyLen = 16 :=
  ⟨demo_accepted (by decide) (by decide) _, demo_accepted (by decide) (by decide) _, rfl⟩

/-- A string that Unpad16 rejects has no padding tail. -/
theorem not_padded {q : Bytes} (h : unpad16 q = .error .paddingError) (d : Bytes) : ¬ PaddedAs q d := fun hp => by
  rw [(unpad16_ok_iff q d).2 hp] at h; cases h

/-- UnpadStripsExactlyAPaddingTail: a tail of 16, a tail of 1, and two inputs with none. -/
theorem witness_unpad :
    (Accepted (demo 0 0 0x4 (rep 0x10 16) []) (demoSnap 0 0 (rep 0x10 16)) ∧ PaddedAs (demoSnap 0 0 (rep 0x10 16)).data []) ∧
    PaddedAs (demoSnap 0 0 [7, 1]).data [7] ∧
    (Accepted (demo 0 0 0x4 [] []) (demoSnap 0 0 []) ∧ ∀ d, ¬ PaddedAs (demoSnap 0 0 []).data d) ∧
    (∀ d, ¬ PaddedAs (demoSnap 0 0 (rep 0x11 17)).data d) := by
  refine ⟨⟨demo_accepted (by decide) (by decide) _, 16, by decide, by decide, ?_⟩, ⟨1, by decide, by decide, ?_⟩,
    ⟨demo_accepted (by decide) (by decide) _, not_padded ?_⟩, not_padded ?_⟩ <;> rw [demo_data (by decide)] <;> rfl

/-- The bytes that decrypt to a given block under the key of `demo`. -/
def encrypted (x : Block) : Bytes := blockBytes (Config.bp.enc (blockOf (counting 0 16)) x)

theorem decrypts (x : Block) : Config.bp.dec (blockOf (counting 0 16)) (blockAt (encrypted x) 0) = x := by
  have h : blockAt (encrypted x) 0 = Config.bp.enc (blockOf (counting 0 16)) x := by
    rw [blockAt, Nat.mul_zero, List.drop_zero, List.take_of_length_le (by simp [encrypted]), encrypted, blockOf_blockBytes]
  rw [h, bp_lawful.1]

/-- DecEcbDecryptsEachBlockAndStrips: one block that decrypts to sixteen bytes 0x10, and one that decrypts to zeros. -/
theorem witness_decEcb (x : Block) :
    Accepted (demo 16 16 0x2 (encrypted x) []) (demoSnap 16 16 (encrypted x)) ∧ (demoSnap 16 16 (encrypted x)).keyLen = 16 ∧
    (demoSnap 16 16 (encrypted x)).data.length ≠ 0 ∧ (demoSnap 16 16 (encrypted x)).data.length % 16 = 0 ∧
    ((List.range ((demoSnap 16 16 (encrypted x)).data.length / 16)).flatMap fun i =>
      blockBytes (Config.bp.dec (demoSnap 16 16 (encrypted x)).key (blockAt (demoSnap 16 16 (encrypted x)).data i))) =
      blockBytes x := by
  have hl : (encrypted x).length = 16 := by simp [encrypted]
  refine ⟨demo_accepted (by omega) (by decide) _, rfl, ?_, ?_, ?_⟩ <;> rw [demo_data (by omega), hl]
  · decide
  · show (List.range 1).flatMap _ = _
    rw [List.range_one, List.flatMap_singleton]
    exact congrArg blockBytes (decrypts x)

/-- DecCbcChainsOnTheInput: one block under the IV register that decrypts to a given block. -/
theorem witness_decCbc (x : Block) :
    let d := encrypted (xorBlock x (blockOf (counting 0xF0 16)))
    Accepted (demo 16 16 0x812 d []) (demoSnap 16 16 d) ∧ (demoSnap 16 16 d).keyLen = 16 ∧
    DecInput (demoSnap 16 16 d) false true (blockOf (counting 0xF0 16)) d ∧ d.length ≠ 0 ∧ d.length % 16 = 0 ∧
    ((List.range (d.length / 16)).flatMap fun i =>
      blockBytes (xorBlock (Config.bp.dec (demoSnap 16 16 d).key (blockAt d i))
        (if i = 0 then blockOf (counting 0xF0 16) else blockAt d (i - 1)))) = blockBytes x := by
  intro d
  have hl : d.length = 16 := by simp [d, encrypted]
  refine ⟨demo_accepted (by omega) (by decide) _, rfl, Or.inl ⟨rfl, rfl, rfl, (demo_data (by omega)).symm⟩, by omega, by omega, ?_⟩
  rw [hl]
  show (List.range 1).flatMap _ = _
  rw [List.range_one, List.flatMap_singleton]
  show blockBytes (xorBlock (Config.bp.dec (blockOf (counting 0 16)) (blockAt d 0)) _) = _
  rw [decrypts, if_pos rfl, xorBlock_cancel]

/-- Both cases of the two statements before: a decrypted block with a padding tail, and one with none. -/
theorem witness_dec_tails :
    PaddedAs (blockBytes (blockOf (rep 0x10 16))) [] ∧ ∀ d, ¬ PaddedAs (blockBytes zeroBlock) d :=
  ⟨⟨16, by decide, by decide, by decide⟩, not_padded (by decide)⟩

/-- The statements on ENC.CBC, ENC.CFB, ENC.OFB and ENC.CTR: an IV from the register, raw and in transport mode, and a
drawn one. -/
theorem witness_enc_iv :
    (Accepted (demo 16 16 0x811 (rep 1 17) []) (demoSnap 16 16 (rep 1 17)) ∧ (demoSnap 16 16 (rep 1 17)).keyLen = 16 ∧
      (demoSnap 16 16 (rep 1 17)).ivLen = 16 ∧ blockOf (counting 0xF0 16) = (demoSnap 16 16 (rep 1 17)).iv) ∧
    Accepted (demo 16 16 0xC41 [] []) (demoSnap 16 16 []) ∧
    (Accepted (demo 16 16 0x421 (rep 1 17) [some zeroBlock]) (demoSnap 16 16 (rep 1 17)) ∧
      (demo 16 16 0x421 (rep 1 17) [some zeroBlock]).rngAnswer = some zeroBlock) :=
  ⟨⟨demo_accepted (by decide) (by decide) _, rfl, rfl, rfl⟩, demo_accepted (by decide) (by decide) _,
    demo_accepted (by decide) (by decide) _, rfl⟩

/-- The statements on DEC.CFB, DEC.OFB and DEC.CTR: a body of 17 bytes under the IV register, and one of one byte after an
IV read from the input. -/
theorem witness_dec_input :
    (Accepted (demo 16 16 0x822 (rep 1 17) []) (demoSnap 16 16 (rep 1 17)) ∧ (demoSnap 16 16 (rep 1 17)).keyLen = 16 ∧
      DecInput (demoSnap 16 16 (rep 1 17)) false true (blockOf (counting 0xF0 16)) (rep 1 17)) ∧
    (Accepted (demo 16 16 0x442 (rep 1 17) []) (demoSnap 16 16 (rep 1 17)) ∧
      DecInput (demoSnap 16 16 (rep 1 17)) true false (blockOf (rep 1 16)) [1]) := by
  refine ⟨⟨demo_accepted (by decide) (by decide) _, rfl, Or.inl ?_⟩, demo_accepted (by decide) (by decide) _, Or.inr ?_⟩ <;>
    rw [demo_data (by decide)] <;> decide

/-- CommandsChangeOnlyTheirResult: BUSY and IDLE. -/
theorem witness_frame :
    (∃ t, (demo 16 16 0x3 (rep 1 16) []).Inv ∧ exec (.pad 0 0 false false) (demo 16 16 0x3 (rep 1 16) []) = .next t ∧
      (demo 16 16 0x3 (rep 1 16) []).busy = true ∧ 0x1FFFF < outBase) ∧
    (∃ t, (demoIdle 16 16 [] []).Inv ∧ exec (.pad 0 0 false false) (demoIdle 16 16 [] []) = .next t ∧
      (demoIdle 16 16 [] []).busy = false) :=
  ⟨⟨_, (demo_accepted (by decide) (by decide) _).inv, rfl, rfl, by decide⟩, _, demoIdle_inv (by decide) _, rfl, rfl⟩

/-- CounterBytesAreBigEndian: the greatest number, and the last byte. -/
theorem witness_counter : 2 ^ 128 - 1 < 2 ^ 128 ∧ 15 < 16 := by decide

/-- CbcErrorReachesOnlyTheNextBlock: the middle one of three blocks. -/
theorem witness_cbc_error :
    1 < [zeroBlock, zeroBlock, zeroBlock].length ∧ 1 + 1 < [zeroBlock, zeroBlock, zeroBlock].length ∧
    0 < [zeroBlock, zeroBlock, zeroBlock].length ∧ (0 : Nat) ≠ 1 ∧ (0 : Nat) ≠ 1 + 1 := by decide

/-- EveryModeRoundTrips: the block's own primitive is lawful. -/
theorem witness_lawful : Config.bp.Lawful := bp_lawful

/-- A lawful primitive that does nothing. -/
def identity : Primitive where
  enc _ x := x
  dec _ y := y

/-- DecryptingAnEncryptionGivesTheInputBack: raw with the IV register, and transport mode with a drawn IV. -/
theorem witness_round_trip :
    identity.Lawful ∧
    (fieldOpc 0x811 = 1 ∧ fieldOpc 0x812 = 2 ∧ reservedBitSet 0x812 = false ∧ fieldMode 0x812 = fieldMode 0x811 ∧
      fieldAlg 0x812 = fieldAlg 0x811 ∧ fieldXport 0x811 = false ∧ fieldXport 0x812 = false ∧ fieldIvs 0x812 = true ∧
      muxExec { toyEnv none with bp := identity } 0x811 (toySnap [7]) =
        .ok (blockBytes (xorBlock (blockOf (7 :: rep 0x0F 15)) (blockOf (counting 0xF0 16))))) ∧
    (fieldOpc 0x441 = 1 ∧ fieldOpc 0x442 = 2 ∧ reservedBitSet 0x442 = false ∧ fieldMode 0x442 = fieldMode 0x441 ∧
      fieldAlg 0x442 = fieldAlg 0x441 ∧ fieldXport 0x441 = true ∧ fieldXport 0x442 = true ∧ fieldIvs 0x442 = false ∧
      muxExec { toyEnv (some zeroBlock) with bp := identity } 0x441 (toySnap [7]) = .ok (rep 0 16 ++ [7]) ∧
      (rep 0 16 ++ [7]).length ≤ 256 ∧ (rep 0 16 ++ [7]).length < 2 ^ 16) :=
  ⟨⟨fun _ _ => rfl, fun _ _ => rfl⟩, by decide, by decide⟩

/-- IrqFollowsEnableAndDone, DoneMarksCompletions: a completion with IE set, and a write that sets IE. -/
theorem witness_irq :
    (∃ t, step ({ State.reset.accept 0x3 with ie := true }) = .next t ∧ ({ State.reset.accept 0x3 with ie := true }).irq = false ∧
      t.irq = true ∧ (State.reset.accept 0x3).status.done = false ∧ t.status.done = true) ∧
    (∃ s t, step s = .next t ∧ s.irq = false ∧ t.irq = true ∧ s.schedule = [.write .four 8 1]) :=
  ⟨⟨_, rfl, by decide, by decide, by decide, by decide⟩,
    (((State.reset.accept 0x3).completeOk []).withSchedule [.write .four 8 1]), _, rfl, by decide, by decide, rfl⟩

/-- DoneMarksCompletions, OvrMarksDroppedWrites: steps that clear DONE (an acceptance, a write to STATUS, a reset) and
steps that set and clear OVR. -/
theorem witness_done_and_ovr :
    (∃ s t, step s = .next t ∧ s.status.done = true ∧ t.status.done = false ∧ s.schedule = [.write .four 0 3]) ∧
    (∃ s t, step s = .next t ∧ s.status.done = true ∧ t.status.done = false ∧ s.schedule = [.write .four 7 2]) ∧
    (∃ s t, step s = .next t ∧ s.status.done = true ∧ t.status.done = false ∧ s.schedule = [.reset]) ∧
    (∃ s t, step s = .next t ∧ s.status.ovr = false ∧ t.status.ovr = true ∧ s.schedule = [.write .one 0x3FFFF 0]) ∧
    (∃ s t, step s = .next t ∧ s.status.ovr = true ∧ t.status.ovr = false ∧ s.schedule = [.write .four 4 8]) :=
  ⟨⟨((State.reset.accept 0x3).completeOk []).withSchedule [.write .four 0 3], _, rfl, by decide, by decide, rfl⟩,
    ⟨((State.reset.accept 0x3).completeOk []).withSchedule [.write .four 7 2], _, rfl, by decide, by decide, rfl⟩,
    ⟨((State.reset.accept 0x3).completeOk []).withSchedule [.reset], _, rfl, by decide, by decide, rfl⟩,
    ⟨(State.reset.accept 0x3).withSchedule [.write .one 0x3FFFF 0], _, rfl, by decide, by decide, rfl⟩,
    ⟨State.reset.dropWrite.withSchedule [.write .four 4 8], _, rfl, by decide, by decide, rfl⟩⟩

/-- OnlyResetClearsFatal: a FATAL state whose next event is no reset, and a step that sets FATAL. -/
theorem witness_fatal_steps :
    (∃ t, step (fatalState.withSchedule [.write .four 0 3]) = .next t ∧
      (fatalState.withSchedule [.write .four 0 3]).status.fatal = true ∧
      (fatalState.withSchedule [.write .four 0 3]).schedule.head? ≠ some .reset) ∧
    (∃ s t, step s = .next t ∧ s.status.fatal = false ∧ t.status.fatal = true) :=
  ⟨⟨_, rfl, by decide, by decide⟩,
    ({ State.reset with keyLen := 16, entropy := [none] }).accept 0x411, _, rfl, by decide, by decide⟩

/-- EngineNeverWritesTheInputs, OutputChangesOnlyAtAcceptanceAndCompletion: a write dropped while BUSY, the engine's turn,
and an acceptance that clears OUT_LEN. -/
theorem witness_inputs_and_output :
    (∃ s t, step s = .next t ∧ s.schedule = [.write .four 0x40 1] ∧ s.busy = true) ∧
    (∃ s t, step s = .next t ∧ s.schedule = [.engine] ∧ t.outLen ≠ s.outLen) ∧
    (∃ s t, step s = .next t ∧ s.schedule = [.write .four 0 3] ∧ t.outLen ≠ s.outLen) :=
  ⟨⟨(State.reset.accept 0x3).withSchedule [.write .four 0x40 1], _, rfl, rfl, by decide⟩,
    ⟨(State.reset.accept 0x3).withSchedule [.engine], _, rfl, rfl, by decide⟩,
    ⟨((State.reset.accept 0x3).completeOk [7]).withSchedule [.write .four 0 3], _, rfl, rfl, by decide⟩⟩

/-- ResultDependsOnlyOnTheSnapshot: two states that differ in what the port shows, in the next events, and in the answers
after the first. -/
theorem witness_same_result :
    ∃ t t', (demo 16 16 0x411 [] [none]).Inv ∧
      (((demo 16 16 0x411 [] [none, none]).withRdata 5).withSchedule [.reset]).Inv ∧
      (demo 16 16 0x411 [] [none]).phase = .busy 0x411 (demoSnap 16 16 []) ∧
      (((demo 16 16 0x411 [] [none, none]).withRdata 5).withSchedule [.reset]).phase = .busy 0x411 (demoSnap 16 16 []) ∧
      (demo 16 16 0x411 [] [none]).rngAnswer =
        (((demo 16 16 0x411 [] [none, none]).withRdata 5).withSchedule [.reset]).rngAnswer ∧
      (demo 16 16 0x411 [] [none]).engineTurn = .next t ∧
      (((demo 16 16 0x411 [] [none, none]).withRdata 5).withSchedule [.reset]).engineTurn = .next t' ∧
      (demo 16 16 0x411 [] [none]).status.ovr =
        (((demo 16 16 0x411 [] [none, none]).withRdata 5).withSchedule [.reset]).status.ovr :=
  ⟨_, _, (demo_accepted (by decide) (by decide) _).inv,
    inv_withSchedule (inv_withRdata (demo_accepted (by decide) (by decide) _).inv _) _, rfl, rfl, rfl, rfl, rfl, rfl⟩

/-- LatencyDoesNotChangeTheResult: a write and a read while BUSY. -/
theorem witness_latency :
    (demo 16 16 0x3 [] []).busy = true ∧ Event.write .four 4 0xA ≠ .reset ∧ Event.write .four 4 0xA ≠ .engine ∧
    Event.read .one 0x20000 ≠ .reset ∧ Event.read .one 0x20000 ≠ .engine ∧
    (∃ t, (demo 16 16 0x3 [] []).handle (.write .four 4 0xA) = .next t) ∧
    (∃ t, (demo 16 16 0x3 [] []).handle (.read .one 0x20000) = .next t) ∧ ∃ u, (demo 16 16 0x3 [] []).engineTurn = .next u :=
  ⟨rfl, by decide, by decide, by decide, by decide, ⟨_, rfl⟩, ⟨_, rfl⟩, _, rfl⟩

/-- EveryScheduleEndsIdle, EveryStepKeepsTheInvariant, ResetInputClearsTheBlock: a safe BUSY state with events to come. -/
theorem witness_schedule :
    ((demo 16 16 0x3 [] []).withSchedule [.reset, .write .four 0 3, .read .one 0x20000]).Inv ∧
    ((demo 16 16 0x3 [] []).withSchedule [.reset, .write .four 0 3, .read .one 0x20000]).schedule =
      .reset :: [.write .four 0 3, .read .one 0x20000] ∧
    ∃ t, step ((demo 16 16 0x3 [] []).withSchedule [.reset, .write .four 0 3, .read .one 0x20000]) = .next t :=
  ⟨inv_withSchedule (demo_accepted (by decide) (by decide) _).inv _, rfl, _, rfl⟩

/-- CommandsRightAfterResetRunOnResetValues: power-on, the reset input while a command runs, and a word and a form of each
kind. -/
theorem witness_after_reset :
    State.reset = State.reset ∧ (∃ s : State, (demo 16 16 0x411 [] []).hardReset = s.hardReset) ∧ fieldOpc 0x5 ≠ 0 ∧
    (0 : Offset).toNat < 4 ∧ (3 : Offset).toNat < 4 ∧ cipherFields (.encEcb 0 false false) = some (0, false, false) ∧
    cipherFields (.decCtr 0 true true) = some (0, true, true) :=
  ⟨rfl, ⟨_, rfl⟩, by decide, by decide, by decide, rfl, rfl⟩

end Sys2Proof.Tests
end

namespace Sys2Proof.Machine

/-! ## The invariant (10_state.md R27, R28, R48; 47_multiplexer.md R206)

The laws say that acceptance, completion, reset and each store keep `State.Inv`; here they are put together along what a
host write, the engine's turn and a step can do. -/

/-- A word that is no row of the opcode table completes with an error, never with an output (R210 to R213). -/
theorem rejectedResult_ne_ok (r : Reject) (env : Env) (snap : Snapshot) (out : Bytes) :
    rejectedResult r env snap ≠ .ok out := by
  cases r with
  | reservedBits => simp [rejectedResult]
  | reservedOpcode => simp [rejectedResult]
  | unsupportedMode =>
    rw [rejectedResult, except_bind_eq]
    split <;> simp

theorem inv_writeControl {s : State} (hi : s.Inv) (hb : s.busy = false) (n : Width) (a : Nat) (v : Word) :
    (s.writeControl n a v).Inv := by
  unfold State.writeControl
  split
  · exact inv_writeReg hi hb _ v
  · exact hi
  · exact hi
  · exact hi

theorem inv_hostWrite {s t : State} (hi : s.Inv) {n : Width} {a : Offset} {v : Word}
    (h : s.hostWrite n a v = .next t) : t.Inv := by
  rcases hostWrite_cases h with ⟨-, rfl⟩ | ⟨-, -, ho, hf, rfl⟩ | ⟨-, -, -, rfl⟩ | ⟨hb, -, -, rfl⟩ | ⟨hb, -, -, rfl⟩
  · exact inv_dropWrite hi
  · exact inv_accept hi hf ho
  · exact hi
  · exact inv_writeControl hi hb n _ v
  · exact inv_writeLanes hi hb _ _

theorem busy_of_phase {s : State} {w : Word} {snap : Snapshot} (hp : s.phase = .busy w snap) : s.busy = true := by
  rw [State.busy, hp, Phase.isBusy]

theorem inv_engineTurn {s t : State} (hi : s.Inv) (h : s.engineTurn = .next t) : t.Inv := by
  rcases engineTurn_cases h with ⟨-, rfl⟩ | ⟨-, -, -, -, rfl⟩ | ⟨w, snap, i, hp, -, -, rfl⟩ | ⟨w, snap, r, hp, -, -, rfl⟩
  · exact hi
  · exact hi
  · obtain ⟨-, -, rfl⟩ := hi.pending w snap hp
    exact inv_complete hi (busy_of_phase hp) _ _ fun _ hr => armResult_length_le snapshot_length_le hr
  · exact inv_complete hi (busy_of_phase hp) false _ fun out hr => absurd hr (rejectedResult_ne_ok r _ _ out)

/-- Settles O60, by what the first event of the schedule is. -/
theorem everyStepKeepsTheInvariant : Obligations.EveryStepKeepsTheInvariant := by
  intro s t hi h
  rcases step_cases h with ⟨-, he⟩ | ⟨e, es, -, ⟨-, he⟩ | ⟨-, rfl⟩ | ⟨n, a, -, rfl⟩ | ⟨n, a, v, -, hw⟩⟩
  · exact inv_engineTurn hi he
  · exact inv_engineTurn (inv_withSchedule hi es) he
  · exact inv_hardReset
  · exact inv_withRdata (inv_withSchedule hi es) _
  · exact inv_hostWrite (inv_withSchedule hi es) hw

/-- The state after power-on reset is safe: IDLE, no flag set, nothing stored in either buffer. -/
theorem inv_reset : State.reset.Inv where
  inBuf_wf := drawn_wf 0
  inBuf_within := drawn_within 0 _ _
  outBuf_wf := drawn_wf 0
  outBuf_within := drawn_within 0 _ _
  busy_not_done := fun _ => rfl
  err_done := nofun
  no_err_no_code := fun _ => rfl
  code_named := by decide
  outLen_fits := Nat.zero_le _
  busy_clear := nofun
  err_clear := nofun
  out_tail := nofun
  out_none := fun _ => ⟨rfl, rfl⟩
  fatal_idle := fun _ => rfl
  datapath_rest := rfl
  pending := nofun

/-- Settles O59: the values are the fields of `State.reset`. -/
theorem resetMeetsTheInvariant : Obligations.ResetMeetsTheInvariant :=
  ⟨inv_reset, rfl, rfl, rfl, rfl, rfl, rfl, rfl, rfl, rfl, rfl, rfl, rfl, fun _ => rfl, fun _ => rfl⟩

/-- Settles O57: the step is the reset input, whose fields the laws of `State.hardReset` give. -/
theorem resetInputClearsTheBlock : Obligations.ResetInputClearsTheBlock := by
  intro s es h
  exact ⟨(s.withSchedule es).hardReset, step_cons h, rfl, rfl, rfl, rfl, rfl, rfl, rfl, rfl, rfl, rfl, rfl, rfl,
    fun _ => rfl, fun _ => rfl, rfl, rfl, rfl, rfl⟩

end Sys2Proof.Machine

namespace Sys2Proof.Machine

/-! ## The flags (10_state.md R27 to R32, 60_exceptions.md R257 to R259)

What one step can do to STATUS, CTRL.IE and the phase is said once, by cause; the statements about DONE, OVR, FATAL and
irq read it off. -/

@[simp] theorem written_done (f : Status) (v : Word) : (f.written v).done = if v.getLsbD 1 then false else f.done := rfl
@[simp] theorem written_ovr (f : Status) (v : Word) : (f.written v).ovr = if v.getLsbD 3 then false else f.ovr := rfl
@[simp] theorem written_fatal (f : Status) (v : Word) : (f.written v).fatal = f.fatal := rfl

@[simp] theorem resetStatus_done : Status.reset.done = false := rfl
@[simp] theorem resetStatus_ovr : Status.reset.ovr = false := rfl
@[simp] theorem resetStatus_fatal : Status.reset.fatal = false := rfl

/-- What a step from `s` to `t` does to STATUS, IE and the phase, one case per cause. -/
inductive FlagMove (s t : State) : Prop where
  /-- a host read, or an engine's turn that has nothing to run -/
  | kept (status : t.status = s.status) (ie : t.ie = s.ie) (busy : t.busy = s.busy)
  /-- a host write while IDLE that stores, CTRL included, or is ignored -/
  | stored (write : ∃ n a v, s.schedule.head? = some (.write n a v)) (idle : s.busy = false) (busy : t.busy = false)
      (status : t.status = s.status)
  /-- a 32-bit write to STATUS while IDLE (R258) -/
  | cleared (v : Word) (write : ∃ e, s.schedule.head? = some e ∧ IsStatusWrite e v) (idle : s.busy = false)
      (busy : t.busy = false) (status : t.status = s.status.written v) (ie : t.ie = s.ie)
  /-- the acceptance of a command (47_multiplexer.md R206) -/
  | accepted (idle : s.busy = false) (busy : t.busy = true) (status : t.status = s.status.accepted) (ie : t.ie = s.ie)
  /-- a host write dropped while BUSY (20_memory.md R68) -/
  | dropped (write : ∃ n a v, s.schedule.head? = some (.write n a v)) (running : s.busy = true) (busy : t.busy = true)
      (status : t.status = s.status.dropped) (ie : t.ie = s.ie)
  /-- a completion (47_multiplexer.md R219, 60_exceptions.md R253) -/
  | completed (running : s.busy = true) (busy : t.busy = false)
      (status : t.status = s.status.completedOk ∨ ∃ e, t.status = s.status.completedErr e) (ie : t.ie = s.ie)
  /-- the reset input (70_reset_and_hazards.md R280) -/
  | reset (input : s.schedule.head? = some .reset) (busy : t.busy = false) (status : t.status = Status.reset)
      (ie : t.ie = false)

/-- A completion leaves the flags of `CompleteOk` or of `CompleteErr`. -/
theorem complete_status_cases (s : State) (r : Except ErrCode Bytes) :
    (s.complete r).status = s.status.completedOk ∨ ∃ e, (s.complete r).status = s.status.completedErr e := by
  cases r with
  | ok out => exact .inl rfl
  | error e => exact .inr ⟨e, rfl⟩

/-- The schedule that the engine's turn runs under does not matter to the flags. -/
theorem engineTurn_flagMove {s t : State} (es : List Event) (h : (s.withSchedule es).engineTurn = .next t) :
    FlagMove s t := by
  rcases engineTurn_change h with rfl | ⟨hb, d, r, rfl⟩
  · exact .kept rfl rfl rfl
  · exact .completed hb (complete_busy _ r) (complete_status_cases ((s.withSchedule es).takeDraw d) r) (complete_ie _ r)

theorem hostWrite_flagMove {s t : State} {n : Width} {a : Offset} {v : Word} {es : List Event}
    (hs : s.schedule = .write n a v :: es) (h : (s.withSchedule es).hostWrite n a v = .next t) : FlagMove s t := by
  have hw : s.schedule.head? = some (.write n a v) := by rw [hs]; rfl
  rcases hostWrite_change h with
    ⟨hb, rfl⟩ | ⟨hb, -, -, rfl⟩ | ⟨hb, rfl | ⟨rfl, ha, rfl⟩ | ⟨ie, kl, vl, il, k, iv, m, rfl⟩⟩
  · exact .dropped ⟨n, a, v, hw⟩ hb hb rfl rfl
  · exact .accepted hb rfl rfl rfl
  · exact .stored ⟨n, a, v, hw⟩ hb hb rfl
  · exact .cleared v ⟨_, hw, a, rfl, ha⟩ hb hb rfl rfl
  · exact .stored ⟨n, a, v, hw⟩ hb hb rfl

/-- Everything a step can do to the flags. -/
theorem step_flagMove {s t : State} (h : step s = .next t) : FlagMove s t := by
  rcases step_cases h with ⟨hs, he⟩ | ⟨e, es, hs, ⟨rfl, he⟩ | ⟨rfl, rfl⟩ | ⟨n, a, rfl, rfl⟩ | ⟨n, a, v, rfl, hw⟩⟩
  · have e : s.withSchedule [] = s := by rw [← hs]; rfl
    exact engineTurn_flagMove [] (e.symm ▸ he)
  · exact engineTurn_flagMove es he
  · exact .reset (by rw [hs]; rfl) rfl rfl rfl
  · exact .kept rfl rfl rfl
  · exact hostWrite_flagMove hs hw

/-- Of the error codes only EntropyFailure sets FATAL (60_exceptions.md R253). -/
theorem eq_entropyFailure_of_fatal {f : Status} {e : ErrCode} (hf : f.fatal = false)
    (h : (f.completedErr e).fatal = true) : e = .entropyFailure := by
  simpa [hf] using h

/-- Settles O48, by the cause of the step: but for reset and a completion with EntropyFailure, each keeps FATAL. -/
theorem onlyResetClearsFatal : Obligations.OnlyResetClearsFatal := by
  intro s t h
  refine ⟨fun hf hr => ?_, fun hf ht => ?_⟩
  · cases step_flagMove h with
    | reset input => exact absurd input hr
    | completed _ _ status => rcases status with status | ⟨e, status⟩ <;> simp [status, hf]
    | kept status | stored _ _ _ status | cleared _ _ _ _ status | accepted _ _ status | dropped _ _ _ status =>
      simp [status, hf]
  · cases step_flagMove h with
    | completed running busy status =>
      refine ⟨running, busy, ?_⟩
      rcases status with status | ⟨e, status⟩ <;> rw [status] at ht ⊢
      · simp [hf] at ht
      · rw [eq_entropyFailure_of_fatal hf ht, completedErr_errCode]
    | kept status | stored _ _ _ status | cleared _ _ _ _ status | accepted _ _ status | dropped _ _ _ status
    | reset _ _ status => simp [status, hf] at ht

/-- Settles O49, by the cause of the step: only a dropped write sets OVR, only a write to STATUS and reset clear it. -/
theorem ovrMarksDroppedWrites : Obligations.OvrMarksDroppedWrites := by
  intro s t h
  refine ⟨fun hf ht => ?_, fun hf ht => ?_⟩
  · cases step_flagMove h with
    | dropped write running => exact ⟨running, write⟩
    | completed _ _ status => rcases status with status | ⟨e, status⟩ <;> simp [status, hf] at ht
    | kept status | stored _ _ _ status | cleared _ _ _ _ status | accepted _ _ status | reset _ _ status =>
      simp [status, hf] at ht
  · cases step_flagMove h with
    | reset input => exact .inl input
    | cleared v write idle _ status =>
      obtain ⟨e, hs, hw⟩ := write
      exact .inr ⟨idle, e, v, hs, hw, by simpa [status, hf] using ht⟩
    | completed _ _ status => rcases status with status | ⟨e, status⟩ <;> simp [status, hf] at ht
    | kept status | stored _ _ _ status | accepted _ _ status | dropped _ _ _ status => simp [status, hf] at ht

/-- Settles O50, by the cause of the step: only a completion sets DONE, only an acceptance, a write to STATUS and reset
clear it. -/
theorem doneMarksCompletions : Obligations.DoneMarksCompletions := by
  intro s t h
  refine ⟨fun hf ht => ?_, fun hf ht => ?_⟩
  · cases step_flagMove h with
    | completed running busy => exact ⟨running, busy⟩
    | kept status | stored _ _ _ status | cleared _ _ _ _ status | accepted _ _ status | dropped _ _ _ status
    | reset _ _ status => simp [status, hf] at ht
  · cases step_flagMove h with
    | reset input => exact .inl input
    | accepted idle busy => exact .inr (.inl ⟨idle, busy⟩)
    | cleared v write idle _ status =>
      obtain ⟨e, hs, hw⟩ := write
      exact .inr (.inr ⟨idle, e, v, hs, hw, by simpa [status, hf] using ht⟩)
    | completed _ _ status => rcases status with status | ⟨e, status⟩ <;> simp [status] at ht
    | kept status | stored _ _ _ status | dropped _ _ _ status => simp [status, hf] at ht

/-- irq rises only at a completion or at a host write while IE is 0: every other step keeps IE, and sets no DONE. -/
theorem irq_rises {s t : State} (h : step s = .next t) (hs : s.irq = false) (ht : t.irq = true) :
    s.busy = true ∧ t.busy = false ∨ s.ie = false ∧ ∃ n a v, s.schedule.head? = some (.write n a v) := by
  obtain ⟨hie, hdone⟩ : t.ie = true ∧ t.status.done = true := by simpa [State.irq] using ht
  have hs : s.ie = true → s.status.done = false := by simpa [State.irq] using hs
  cases step_flagMove h with
  | kept status ie => rw [ie] at hie; rw [status, hs hie] at hdone; cases hdone
  | stored write _ _ status =>
    rw [status] at hdone
    exact .inr ⟨by simpa [hdone] using hs, write⟩
  | cleared v _ _ _ status ie => rw [ie] at hie; simp [status, hs hie] at hdone
  | accepted _ _ status => simp [status] at hdone
  | dropped _ _ _ status ie => rw [ie] at hie; simp [status, hs hie] at hdone
  | completed running busy => exact .inl ⟨running, busy⟩
  | reset _ _ _ ie => rw [ie] at hie; cases hie

end Sys2Proof.Machine

namespace Sys2Proof.Machine

open Sys2Proof.Laws

/-! ## STATUS as a word (10_state.md R25, R31) -/

/-- No field of STATUS runs over: the word is the sum of its fields at their places. -/
theorem statusWord_toNat (busy : Bool) (f : Status) :
    (statusWord busy f).toNat = busy.toNat + 2 * f.done.toNat + 4 * f.err.toNat + 8 * f.ovr.toNat + 16 * f.fatal.toNat
      + 256 * f.errCode.toNat := by
  have hb := busy.toNat_lt
  have hd := f.done.toNat_lt
  have he := f.err.toNat_lt
  have ho := f.ovr.toNat_lt
  have hf := f.fatal.toNat_lt
  have hc := f.errCode.isLt
  rw [statusWord, BitVec.toNat_ofNat, Nat.mod_eq_of_lt (by omega)]

/-- A bit of a word from the binary digit of its number. -/
theorem getLsbD_of_digit {w : Word} {i : Nat} {b : Bool} (h : w.toNat / 2 ^ i % 2 = b.toNat) : w.getLsbD i = b := by
  rw [bit_toNat, h]
  cases b <;> rfl

/-- A field of a word from the digits of its number. -/
theorem extractLsb'_of_digits {w : Word} {lo n : Nat} {x : BitVec n} (h : w.toNat / 2 ^ lo % 2 ^ n = x.toNat) :
    w.extractLsb' lo n = x :=
  BitVec.eq_of_toNat_eq (by rw [field_toNat, h])

theorem extractLsb'_eq_zero {w : Word} {lo n : Nat} (h : w.toNat / 2 ^ lo % 2 ^ n = 0) : w.extractLsb' lo n = 0 :=
  extractLsb'_of_digits (by simpa using h)

/-- Settles O5: each field is the digits of the sum at its place. -/
theorem statusWordHasItsFields : Obligations.StatusWordHasItsFields := by
  intro busy f
  have hw := statusWord_toNat busy f
  have hb := busy.toNat_lt
  have hd := f.done.toNat_lt
  have he := f.err.toNat_lt
  have ho := f.ovr.toNat_lt
  have hf := f.fatal.toNat_lt
  have hc := f.errCode.isLt
  refine ⟨getLsbD_of_digit ?_, getLsbD_of_digit ?_, getLsbD_of_digit ?_, getLsbD_of_digit ?_, getLsbD_of_digit ?_,
    extractLsb'_eq_zero ?_, extractLsb'_of_digits ?_, extractLsb'_eq_zero ?_⟩ <;>
  · rw [hw]
    omega

/-! ## Host reads (20_memory.md R62 to R66, R69) -/

theorem Width.bytes_le_four (n : Width) : n.bytes ≤ 4 := by cases n <;> decide

theorem alignDown_four (a : Offset) : alignDown .four a = a.toNat - a.toNat % 4 := rfl

@[simp] theorem lane_zero (k : Nat) : lane 0 k = 0 := by simp [lane]

/-- An access that starts in a 16-byte row of the address map stays in it, whatever its width. -/
theorem alignDown_row (n : Width) (a : Offset) :
    a.toNat / 16 * 16 ≤ alignDown n a ∧ alignDown n a + n.bytes ≤ a.toNat / 16 * 16 + 16 := by
  cases n <;> simp only [alignDown, Width.bytes] <;> omega

/-- Lane `k` of a read is the byte at the aligned offset plus `k`, and 0 above the width. -/
theorem lane_busRead (s : State) (n : Width) (a : Offset) {k : Nat} (hk : k < 4) :
    lane (s.busRead n a) k = if k < n.bytes then s.readByte (alignDown n a + k) else 0 := by
  rw [State.busRead, lane_ofLanes _ k hk (by simpa using n.bytes_le_four), List.getD_eq_getElem?_getD]
  split <;> simp [*]

/-- A read whose bytes are all 0 returns 0. -/
theorem busRead_eq_zero {s : State} {n : Width} {a : Offset} (h : ∀ k < n.bytes, s.readByte (alignDown n a + k) = 0) :
    s.busRead n a = 0 := by
  refine word_ext fun k hk => ?_
  rw [lane_busRead s n a hk]
  split
  · rename_i hn
    rw [h k hn, lane_zero]
  · rw [lane_zero]

/-! What a read sees at an offset of each region (10_state.md R41 to R44, 20_memory.md R65, R69). -/

theorem readByte_control (s : State) {a : Nat} (h : a < 0x40) :
    s.readByte a = lane (s.controlWord (a - a % 4)) (a % 4) := by
  rw [State.readByte, regionOf_control a h]

theorem readByte_key (s : State) {i : Nat} (h : i < 16) : s.readByte (0x40 + i) = 0 := by
  rw [State.readByte, regionOf_key h]

theorem readByte_iv (s : State) {i : Nat} (h : i < 16) : s.readByte (0x50 + i) = blockGet s.iv i := by
  rw [State.readByte, regionOf_iv h]

theorem readByte_inBuf (s : State) {i : Nat} (h : i < Config.maxLen) : s.readByte (inBase + i) = s.inByte i := by
  rw [State.readByte, regionOf_inBuf h, State.inByte]

theorem readByte_outBuf (s : State) {i : Nat} (h : i < outCapacity) :
    s.readByte (outBase + i) = if s.busy then 0 else s.outByte i := by
  rw [State.readByte, regionOf_outBuf h, State.outByte]

theorem readByte_reserved (s : State) {a : Nat} (h : regionOf a = .reserved) : s.readByte a = 0 := by
  rw [State.readByte, h]

/-- Only the offsets of the ten registers are taken (10_state.md R23). -/
theorem regAt_eq_none {a : Nat} (h : ∀ r : Reg, a ≠ r.offset) : regAt a = none :=
  (if_neg (h .cmd)).trans <| (if_neg (h .status)).trans <| (if_neg (h .ctrl)).trans <| (if_neg (h .keyLen)).trans <|
    (if_neg (h .ivLen)).trans <| (if_neg (h .inLen)).trans <| (if_neg (h .outLen)).trans <|
    (if_neg (h .lastCmd)).trans <| (if_neg (h .param)).trans <| if_neg (h .caps)

theorem regAt_reserved {a : Nat} (h : 0x28 ≤ a) : regAt a = none := by
  refine regAt_eq_none fun r => ?_
  have hr : r.offset < 0x28 := by cases r <;> decide
  omega

/-- A reserved word of the control region is 0 (20_memory.md R65). -/
theorem controlWord_reserved (s : State) {a : Nat} (h : 0x28 ≤ a) : s.controlWord a = 0 := by
  rw [State.controlWord, regAt_reserved h]

/-- A register is found at its own offset. -/
theorem regAt_offset (r : Reg) : regAt r.offset = some r := by cases r <;> rfl

/-- What stands at a register's offset is the register's value. -/
theorem controlWord_offset (s : State) (r : Reg) : s.controlWord r.offset = s.regValue r := by
  rw [State.controlWord, regAt_offset]

/-- A 32-bit read of the control region gives the whole word there. -/
theorem busRead_control (s : State) {a : Offset} (ha : a.toNat < 0x40) :
    s.busRead .four a = s.controlWord (alignDown .four a) := by
  refine word_ext fun k hk => ?_
  have hd : alignDown .four a % 4 = 0 ∧ alignDown .four a ≤ a.toNat := by rw [alignDown_four]; omega
  have hm : (alignDown .four a + k) % 4 = k := by omega
  rw [lane_busRead s .four a hk, if_pos (show k < Width.four.bytes from hk), readByte_control s (by omega), hm,
    Nat.add_sub_cancel]

/-- A 32-bit read of a control register. -/
theorem busRead_reg (s : State) {a : Offset} {r : Reg} (h : a.toNat = r.offset) : s.busRead .four a = s.regValue r := by
  have hr : r.offset < 0x40 ∧ r.offset % 4 = 0 := by cases r <;> decide
  have ha : alignDown .four a = r.offset := by rw [alignDown_four, h, hr.2, Nat.sub_zero]
  rw [busRead_control s (h ▸ hr.1), ha, controlWord_offset]

/-- Settles O6: each offset is a register's, whose value the 32-bit read gives. -/
theorem controlRegistersReadTheirValues : Obligations.ControlRegistersReadTheirValues := by
  intro s
  have hm := maxLen_range
  have hcaps : s.busRead .four 0x00024 = 0x001E0310 := busRead_reg s (r := .caps) rfl
  refine ⟨busRead_reg s (r := .cmd) rfl, busRead_reg s (r := .status) rfl, ?_, ?_, ?_, ?_, ?_,
    busRead_reg s (r := .lastCmd) rfl, ?_, hcaps, ?_, ?_, ?_⟩
  · rw [busRead_reg s (r := .ctrl) rfl, State.regValue]
    cases s.ie <;> rfl
  · rw [busRead_reg s (r := .keyLen) rfl]
    exact BitVec.toNat_setWidth_of_le (by decide)
  · rw [busRead_reg s (r := .ivLen) rfl]
    exact BitVec.toNat_setWidth_of_le (by decide)
  · rw [busRead_reg s (r := .inLen) rfl]
    exact BitVec.toNat_setWidth_of_le (by decide)
  · intro hb
    rw [busRead_reg s (r := .outLen) rfl, State.regValue, hb]
    exact BitVec.toNat_setWidth_of_le (by decide)
  · rw [busRead_reg s (r := .param) rfl, State.regValue, paramWord, BitVec.toNat_ofNat]
    omega
  · rw [hcaps]; decide
  · rw [hcaps]
    intro m
    cases m <;> decide
  · intro a hlo hhi
    rw [busRead_control s hhi, controlWord_reserved]
    rw [alignDown_four]
    omega

/-- Settles O7: the row of KEY reads 0 byte by byte, and no region's rule for a read looks at KEY. -/
theorem noReadRevealsTheKey : Obligations.NoReadRevealsTheKey := by
  refine ⟨fun s n a hlo hhi => busRead_eq_zero fun k hk => ?_, fun s key n a => rfl⟩
  have hrow := alignDown_row n a
  have he : alignDown n a + k = 0x40 + (alignDown n a + k - 0x40) := by omega
  rw [he]
  exact readByte_key s (by omega)

/-- Settles O8, region by region of the address map. -/
theorem readsAreAlignedAndLittleEndian : Obligations.ReadsAreAlignedAndLittleEndian := by
  refine ⟨fun s n a k hk => lane_busRead s n a hk, fun s i => ⟨readByte_key s, readByte_iv s, readByte_inBuf s,
    readByte_outBuf s⟩, fun s a h => ?_⟩
  by_cases hc : a < 0x40
  · rw [readByte_control s hc, controlWord_reserved s (by omega), lane_zero]
  · have hm := maxLen_range
    refine readByte_reserved s (regionOf_reserved (by omega) ?_ ?_)
    · unfold inBase; omega
    · unfold outBase outCapacity; omega

/-- Settles O47: what a host reads of CTRL and STATUS is `irq`, and `irq_rises` says why a step raises it. -/
theorem irqFollowsEnableAndDone : Obligations.IrqFollowsEnableAndDone := by
  refine ⟨fun s => ?_, fun s t h hs ht => irq_rises h hs ht⟩
  obtain ⟨-, hdone, -⟩ := statusWordHasItsFields s.busy s.status
  rw [busRead_reg s (r := .ctrl) rfl, busRead_reg s (r := .status) rfl, State.regValue, State.regValue, hdone, State.irq]
  cases s.ie <;> rfl

end Sys2Proof.Machine

namespace Sys2Proof.Machine

open Sys2Proof.Laws

/-! ## Host writes while IDLE (20_memory.md R62 to R66) -/

/-- Only the word at offset 0 takes command requests (10_state.md R24). -/
theorem requestOf_eq_none {n : Width} {a : Offset} (h : 4 ≤ a.toNat) (v : Word) : requestOf n a v = none := by
  refine if_neg ?_
  rintro ⟨rfl, ha⟩
  rw [alignDown_four, Reg.offset] at ha
  omega

/-- While IDLE a write outside CMD is no command request, and goes to the bus. -/
theorem hostWrite_idle {s : State} (hb : s.busy = false) {n : Width} {a : Offset} (h : 4 ≤ a.toNat) (v : Word) :
    s.hostWrite n a v = .next (if alignDown n a < 0x40 then s.writeControl n (alignDown n a) v
      else s.writeLanes (alignDown n a) (lanes n v)) := by
  simp [State.hostWrite, State.busWrite, hb, requestOf_eq_none h]

@[simp] theorem lanes_length (n : Width) (v : Word) : (lanes n v).length = n.bytes := by simp [lanes]

theorem lanes_getD {n : Width} {k : Nat} (hk : k < n.bytes) (v : Word) : (lanes n v).getD k 0 = lane v k := by
  simp [lanes, List.getD_eq_getElem?_getD, hk]

/-- Settles O9: the aligned offset is outside the control region; `writeLanes_cases` says what the lanes do to KEY, IV and
IN_BUF, and the laws of `State.writeLanes` that no other field changes. -/
theorem bufferWritesStoreTheirLanes : Obligations.BufferWritesStoreTheirLanes := by
  intro s n a v hb ha
  have hrow := alignDown_row n a
  have hlo : 0x40 ≤ alignDown n a := by omega
  obtain ⟨hkey, hiv, hin, -⟩ := writeLanes_cases (lanes n v) s (alignDown n a) hlo
  simp only [lanes_length] at hkey hiv hin
  refine ⟨s.writeLanes (alignDown n a) (lanes n v), ?_, fun i hi => ?_, fun i hi => ?_, fun i hi => ?_, ?_⟩
  · rw [hostWrite_idle hb (by omega), if_neg (by omega)]
  · exact (hkey i hi).trans (ite_congr rfl (fun hc => lanes_getD (by omega) v) fun _ => rfl)
  · exact (hiv i hi).trans (ite_congr rfl (fun hc => lanes_getD (by omega) v) fun _ => rfl)
  · exact (hin i hi).trans (ite_congr rfl (fun hc => lanes_getD (by omega) v) fun _ => rfl)
  · exact ⟨writeLanes_outBuf _ _ _, writeLanes_status _ _ _, writeLanes_ie _ _ _, writeLanes_keyLen _ _ _,
      writeLanes_ivLen _ _ _, writeLanes_inLen _ _ _, writeLanes_outLen _ _ _, writeLanes_lastCmd _ _ _,
      writeLanes_phase _ _ _, writeLanes_datapath _ _ _, writeLanes_schedule _ _ _, writeLanes_rngDraws _ _ _,
      writeLanes_entropy _ _ _, writeLanes_epoch _ _ _, writeLanes_rdata _ _ _⟩

/-- A 32-bit write at a register's offset writes the register. -/
theorem writeControl_offset (s : State) (r : Reg) (v : Word) : s.writeControl .four r.offset v = s.writeReg r v := by
  simp [State.writeControl, regAt_offset]

/-- From OUT_LEN on, every word of the control region is read-only or reserved (10_state.md R36 to R39). -/
theorem writeControl_readOnly (s : State) {a : Nat} (h : 0x18 ≤ a) (v : Word) : s.writeControl .four a v = s := by
  by_cases hr : ∃ r : Reg, a = r.offset
  · obtain ⟨r, rfl⟩ := hr
    rw [writeControl_offset]
    cases r with
    | outLen | lastCmd | param | caps => rfl
    | cmd | status | ctrl | keyLen | ivLen | inLen => exact absurd h (by decide)
  · simp [State.writeControl, regAt_eq_none fun r e => hr ⟨r, e⟩]

/-- A 32-bit write while IDLE that rounds down to a control register but CMD writes that register. -/
theorem hostWrite_reg {s : State} (hb : s.busy = false) {a : Offset} {r : Reg} (hr : r ≠ .cmd)
    (hlo : r.offset ≤ a.toNat) (hhi : a.toNat < r.offset + 4) (v : Word) :
    s.hostWrite .four a v = .next (s.writeReg r v) := by
  have hoff : r.offset % 4 = 0 ∧ 4 ≤ r.offset ∧ r.offset < 0x40 := by
    cases r with
    | cmd => exact absurd rfl hr
    | _ => decide
  have ha : alignDown .four a = r.offset := by rw [alignDown_four]; omega
  rw [hostWrite_idle hb (by omega), ha, if_pos hoff.2.2, writeControl_offset]

/-- While IDLE a 32-bit write to a read-only or reserved word of the control region changes nothing (R65). -/
theorem hostWrite_readOnly {s : State} (hb : s.busy = false) {a : Offset} (hlo : 0x18 ≤ a.toNat) (hhi : a.toNat < 0x40)
    (v : Word) : s.hostWrite .four a v = .next s := by
  have ha : 0x18 ≤ alignDown .four a ∧ alignDown .four a < 0x40 := by rw [alignDown_four]; omega
  rw [hostWrite_idle hb (by omega), if_pos ha.2, writeControl_readOnly s ha.1]

/-- The low bits of a word, as a number. -/
theorem extractLsb'_zero_eq_ofNat (v : Word) (n : Nat) : v.extractLsb' 0 n = BitVec.ofNat n (v.toNat % 2 ^ n) :=
  extractLsb'_of_digits (by simp)

/-- Settles O11, register by register. -/
theorem controlWritesStoreTheirFields : Obligations.ControlWritesStoreTheirFields := by
  intro s a v hb
  refine ⟨fun hlo hhi => hostWrite_reg hb (r := .ctrl) (by decide) hlo hhi v, fun hlo hhi => ?_, fun hlo hhi => ?_,
    fun hlo hhi => ?_, fun hlo hhi => hostWrite_readOnly hb hlo hhi v⟩
  · rw [hostWrite_reg hb (r := .keyLen) (by decide) hlo hhi, writeReg_keyLen_eq, extractLsb'_zero_eq_ofNat]
    rfl
  · rw [hostWrite_reg hb (r := .ivLen) (by decide) hlo hhi, writeReg_ivLen_eq, extractLsb'_zero_eq_ofNat]
    rfl
  · rw [hostWrite_reg hb (r := .inLen) (by decide) hlo hhi, writeReg_inLen_eq, extractLsb'_zero_eq_ofNat]
    rfl

end Sys2Proof.Machine

namespace Sys2Proof.Machine

/-! ## Host accesses that change nothing, or only OVR (20_memory.md R64, R66, R68) -/

/-- A narrow write is no command request, not even at CMD (R64). -/
theorem requestOf_narrow {n : Width} (hn : n ≠ .four) (a : Offset) (v : Word) : requestOf n a v = none :=
  if_neg fun h => hn h.1

/-- No register of the control region takes a narrow write (R64). -/
theorem writeControl_narrow {n : Width} (hn : n ≠ .four) (s : State) (a : Nat) (v : Word) :
    s.writeControl n a v = s := by
  cases n with
  | four => exact absurd rfl hn
  | one => rfl
  | two => rfl

/-- Settles O10: a narrow write in the control region is no command request, and no register takes it. -/
theorem narrowControlWritesAreIgnored : Obligations.NarrowControlWritesAreIgnored := by
  intro s n a v hb hn ha
  have hlow : alignDown n a < 0x40 := Nat.lt_of_le_of_lt (Nat.sub_le _ _) ha
  simp [State.hostWrite, State.busWrite, hb, requestOf_narrow hn, hlow, writeControl_narrow hn]

/-- Settles O13: a host read stores the value read in `rdata` and nothing else. -/
theorem readsHaveNoSideEffect : Obligations.ReadsHaveNoSideEffect := fun _ _ _ => rfl

/-- While BUSY every host write is dropped, a command request too. -/
theorem hostWrite_busy {s : State} (hb : s.busy = true) (n : Width) (a : Offset) (v : Word) :
    s.hostWrite n a v = .next s.dropWrite := by
  simp [State.hostWrite, State.busWrite, hb]

/-- Settles O14: the write is dropped, and a dropped write sets OVR. -/
theorem busyWritesAreDroppedWithOvr : Obligations.BusyWritesAreDroppedWithOvr :=
  fun _ n a v hb => hostWrite_busy hb n a v

/-! ## Reads while BUSY (20_memory.md R69, 10_state.md R45, R47) -/

/-- While BUSY the whole window of OUT_BUF reads 0: its bytes are hidden, and the offsets above them are reserved. -/
theorem readByte_outWindow_busy {s : State} (hb : s.busy = true) {a : Nat} (hlo : 0x20000 ≤ a) (hhi : a < 0x30000) :
    s.readByte a = 0 := by
  have hm := maxLen_range
  by_cases hc : a < outBase + outCapacity
  · obtain ⟨i, rfl⟩ := Nat.exists_eq_add_of_le (show outBase ≤ a from hlo)
    rw [readByte_outBuf s (by omega), hb, if_pos rfl]
  · refine readByte_reserved s (regionOf_reserved (by omega) ?_ fun h => hc h.2)
    unfold inBase
    omega

/-- An access that starts in a word stays in it, whatever its width. -/
theorem alignDown_word (n : Width) (a : Offset) :
    a.toNat / 4 * 4 ≤ alignDown n a ∧ alignDown n a + n.bytes ≤ a.toNat / 4 * 4 + 4 := by
  cases n <;> simp only [alignDown, Width.bytes] <;> omega

/-- While BUSY every byte of OUT_LEN reads 0. -/
theorem readByte_outLen_busy {s : State} (hb : s.busy = true) {a : Nat} (hlo : 0x18 ≤ a) (hhi : a < 0x1C) :
    s.readByte a = 0 := by
  have ha : a - a % 4 = Reg.outLen.offset := by rw [Reg.offset]; omega
  rw [readByte_control s (by omega), ha, controlWord_offset, State.regValue, hb, if_pos rfl, lane_zero]

/-- The state BUSY with another pending command and snapshot, another datapath, and another stored output: what R69 and
10_state.md R45 hide from the host. -/
def State.withHidden (s : State) (w : Word) (snap : Snapshot) (d : Datapath) (m : Memory) (len : BitVec 17) : State :=
  { s with phase := .busy w snap, datapath := d, outBuf := m, outLen := len }

@[simp] theorem withHidden_busy (s : State) (w : Word) (snap : Snapshot) (d : Datapath) (m : Memory)
    (len : BitVec 17) : (s.withHidden w snap d m len).busy = true := rfl
@[simp] theorem withHidden_status (s : State) (w : Word) (snap : Snapshot) (d : Datapath) (m : Memory)
    (len : BitVec 17) : (s.withHidden w snap d m len).status = s.status := rfl
@[simp] theorem withHidden_iv (s : State) (w : Word) (snap : Snapshot) (d : Datapath) (m : Memory)
    (len : BitVec 17) : (s.withHidden w snap d m len).iv = s.iv := rfl
@[simp] theorem withHidden_inBuf (s : State) (w : Word) (snap : Snapshot) (d : Datapath) (m : Memory)
    (len : BitVec 17) : (s.withHidden w snap d m len).inBuf = s.inBuf := rfl

/-- While BUSY no control register shows what is hidden: STATUS shows that the block is BUSY, and OUT_LEN reads 0. -/
theorem regValue_withHidden {s : State} (hb : s.busy = true) (w : Word) (snap : Snapshot) (d : Datapath) (m : Memory)
    (len : BitVec 17) (r : Reg) : (s.withHidden w snap d m len).regValue r = s.regValue r := by
  cases r with
  | status | outLen => simp [State.regValue, hb]
  | _ => rfl

/-- While BUSY no byte that the host reads shows what is hidden. -/
theorem readByte_withHidden {s : State} (hb : s.busy = true) (w : Word) (snap : Snapshot) (d : Datapath) (m : Memory)
    (len : BitVec 17) (a : Nat) : (s.withHidden w snap d m len).readByte a = s.readByte a := by
  cases hr : regionOf a with
  | control => simp only [State.readByte, State.controlWord, hr, regValue_withHidden hb]
  | outBuf => simp [State.readByte, hr, hb]
  | key i | iv i | inBuf | reserved => simp [State.readByte, hr]

/-- Settles O15: an access stays in the window of OUT_BUF, or in the word OUT_LEN, that it starts in, where every byte
reads 0; and no byte elsewhere shows what is hidden. -/
theorem noReadRevealsOutputWhileBusy : Obligations.NoReadRevealsOutputWhileBusy := by
  refine ⟨fun s n a hb ha => busRead_eq_zero fun k hk => ?_, fun s n a w snap d m len hb => ?_⟩
  · rcases ha with ⟨hlo, hhi⟩ | ⟨hlo, hhi⟩
    · have hrow := alignDown_row n a
      exact readByte_outWindow_busy hb (by omega) (by omega)
    · have hword := alignDown_word n a
      exact readByte_outLen_busy hb (by omega) (by omega)
  · show (s.withHidden w snap d m len).busRead n a = s.busRead n a
    simp only [State.busRead, readByte_withHidden hb]

/-! ## The system bus (20_memory.md R60, R61, R78) -/

/-- The address `BASE + a` selects the block, at offset `a`. -/
theorem slaveOffset_base_add (a : Offset) : slaveOffset (Config.base + a.toNat) = some a := by
  have ha := a.isLt
  have hsel : (Config.base + a.toNat) / 0x40000 = Config.baseIndex := by unfold Config.base; omega
  have hlow : BitVec.ofNat 18 (Config.base + a.toNat) = a := by
    refine BitVec.eq_of_toNat_eq ?_
    have hbase := base_multiple
    rw [BitVec.toNat_ofNat]
    omega
  rw [slaveOffset, if_pos hsel, hlow]

/-- An address below BASE, or from `BASE + 0x40000` on, does not select the block. -/
theorem slaveOffset_outside {busAddr : Nat} (h : busAddr < Config.base ∨ Config.base + 0x40000 ≤ busAddr) :
    slaveOffset busAddr = none := by
  refine if_neg ?_
  unfold Config.base at h
  omega

/-- Settles O16: writes and reads on the system bus reach the block through the same select. -/
theorem systemBusReachesTheBlockAtBase : Obligations.SystemBusReachesTheBlockAtBase := by
  refine ⟨fun a n v => ?_, fun busAddr n v h => ?_⟩
  · simp [Event.ofMemWrite, Event.ofMemRead, slaveOffset_base_add]
  · simp [Event.ofMemWrite, Event.ofMemRead, slaveOffset_outside h]

/-! ## What a step runs (20_memory.md R67, R72, 47_multiplexer.md R207, R220, 60_exceptions.md R250) -/

/-- The engine's turn on a pending word that decodes is the meaning of its form (R220). -/
theorem engineTurn_decoded {s : State} {w : Word} {snap : Snapshot} {i : Instr} (hp : s.phase = .busy w snap)
    (hd : decode w = .ok i) : s.engineTurn = exec i s := by
  simp [State.engineTurn, hp, hd]

/-- The engine's turn on a pending word of no row is a completion with its error (30_encoding.md R100). -/
theorem engineTurn_rejected {s : State} {w : Word} {snap : Snapshot} {r : Reject} (hp : s.phase = .busy w snap)
    (hd : decode w = .error r) : s.engineTurn = execRejected r s := by
  simp [State.engineTurn, hp, hd]

/-- While IDLE the engine's turn does nothing (60_exceptions.md R270). -/
theorem engineTurn_idle {s : State} (hp : s.phase = .idle) : s.engineTurn = .next s := by
  simp [State.engineTurn, hp]

/-- A NOP written to CMD while IDLE is run at once (R207). -/
theorem hostWrite_nop {s : State} {w : Word} {rest : Nat} {a : Offset} (hb : s.busy = false)
    (hd : decode w = .ok (.nop rest)) (ha : a.toNat < 4) : s.hostWrite .four a w = exec (.nop rest) s := by
  rw [hostWrite_command hb ha, request_eq, if_pos (.inl (decode_nop hd)), exec_nop]

/-- Settles O17, event by event, and by the phase for the engine's turn. -/
theorem stepRunsTheDecodedCommand : Obligations.StepRunsTheDecodedCommand :=
  ⟨fun _ _ => ⟨fun _ _ _ h => step_cons h, fun _ _ h => step_cons h, fun h => step_cons h, fun h => step_cons h⟩,
    fun _ h => step_nil h, fun _ _ _ _ hp hd => engineTurn_decoded hp hd, fun _ hp => engineTurn_idle hp,
    fun _ _ _ _ hb hd ha => hostWrite_nop hb hd ha⟩

/-- The engine's turn always answers: an accepted word that is no row of the opcode table completes too. -/
theorem engineTurn_next (s : State) : ∃ t, s.engineTurn = .next t := by
  cases hp : s.phase with
  | idle => exact ⟨s, engineTurn_idle hp⟩
  | busy w snap =>
    cases hd : decode w with
    | ok i => exact engineTurn_decoded hp hd ▸ exec_next i s
    | error r => exact ⟨_, (engineTurn_rejected hp hd).trans (runCommand_busy hp _ _)⟩

/-- A command request always answers: it is accepted or ignored. -/
theorem request_next (s : State) (w : Word) : ∃ t, s.request w = .next t := by
  rw [request_eq]
  split
  · exact ⟨s, rfl⟩
  · exact ⟨s.accept w, rfl⟩

/-- A host write always answers: it is dropped, a command request, or a bus write. -/
theorem hostWrite_next (s : State) (n : Width) (a : Offset) (v : Word) : ∃ t, s.hostWrite n a v = .next t := by
  unfold State.hostWrite
  split
  · exact ⟨_, rfl⟩
  · split
    · exact request_next s _
    · exact ⟨_, rfl⟩

/-- Every event completes. -/
theorem handle_next (s : State) (e : Event) : ∃ t, s.handle e = .next t := by
  cases e with
  | write n a v => exact hostWrite_next s n a v
  | read n a => exact ⟨_, rfl⟩
  | engine => exact engineTurn_next s
  | reset => exact ⟨_, rfl⟩

/-- Settles O56: the step is the next event of the schedule, or the engine's turn, and each answers. -/
theorem everyStepAnswersANextState : Obligations.EveryStepAnswersANextState := by
  intro s
  cases hs : s.schedule with
  | nil => exact step_nil hs ▸ engineTurn_next s
  | cons e es => exact step_cons hs ▸ handle_next _ e

/-! ## Who changes the inputs and the output (20_memory.md R68, R70, R71) -/

/-- The inputs of a command hold what they held. -/
structure InputsKept (s t : State) : Prop where
  key : t.key = s.key
  keyLen : t.keyLen = s.keyLen
  iv : t.iv = s.iv
  ivLen : t.ivLen = s.ivLen
  inLen : t.inLen = s.inLen
  inBuf : t.inBuf = s.inBuf

/-- The stored output is what it was. -/
structure OutputKept (s t : State) : Prop where
  outBuf : t.outBuf = s.outBuf
  outLen : t.outLen = s.outLen

/-- What a step from `s` to `t` does to the inputs and the output, one case per cause. -/
inductive DataMove (s t : State) : Prop where
  /-- a host read, a dropped write, or an engine's turn that has nothing to run -/
  | kept (inputs : InputsKept s t) (output : OutputKept s t)
  /-- a host write while IDLE that stores or is ignored -/
  | stored (write : ∃ n a v, s.schedule.head? = some (.write n a v)) (idle : s.busy = false) (output : OutputKept s t)
  /-- the acceptance of a command (47_multiplexer.md R206) -/
  | accepted (inputs : InputsKept s t) (idle : s.busy = false) (busy : t.busy = true)
      (outBuf : t.outBuf = Memory.zeroed) (outLen : t.outLen = 0)
  /-- a completion (47_multiplexer.md R219, 60_exceptions.md R253) -/
  | completed (inputs : InputsKept s t) (running : s.busy = true) (busy : t.busy = false)
  /-- the reset input (70_reset_and_hazards.md R280) -/
  | reset (input : s.schedule.head? = some .reset)

/-- The schedule that the engine's turn runs under does not matter to the inputs and the output. -/
theorem engineTurn_dataMove {s t : State} (es : List Event) (h : (s.withSchedule es).engineTurn = .next t) :
    DataMove s t := by
  rcases engineTurn_change h with rfl | ⟨hb, d, r, rfl⟩
  · exact .kept ⟨rfl, rfl, rfl, rfl, rfl, rfl⟩ ⟨rfl, rfl⟩
  · exact .completed ⟨complete_key _ r, complete_keyLen _ r, complete_iv _ r, complete_ivLen _ r, complete_inLen _ r,
      complete_inBuf _ r⟩ hb (complete_busy _ r)

theorem hostWrite_dataMove {s t : State} {n : Width} {a : Offset} {v : Word} {es : List Event}
    (hs : s.schedule = .write n a v :: es) (h : (s.withSchedule es).hostWrite n a v = .next t) : DataMove s t := by
  have hw : ∃ n a v, s.schedule.head? = some (.write n a v) := ⟨n, a, v, by rw [hs]; rfl⟩
  rcases hostWrite_change h with
    ⟨-, rfl⟩ | ⟨hb, -, -, rfl⟩ | ⟨hb, rfl | ⟨-, -, rfl⟩ | ⟨ie, kl, vl, il, k, iv, m, rfl⟩⟩
  · exact .kept ⟨rfl, rfl, rfl, rfl, rfl, rfl⟩ ⟨rfl, rfl⟩
  · exact .accepted ⟨rfl, rfl, rfl, rfl, rfl, rfl⟩ hb rfl rfl rfl
  · exact .stored hw hb ⟨rfl, rfl⟩
  · exact .stored hw hb ⟨rfl, rfl⟩
  · exact .stored hw hb ⟨rfl, rfl⟩

/-- Everything a step can do to the inputs and the output. -/
theorem step_dataMove {s t : State} (h : step s = .next t) : DataMove s t := by
  rcases step_cases h with ⟨hs, he⟩ | ⟨e, es, hs, ⟨rfl, he⟩ | ⟨rfl, rfl⟩ | ⟨n, a, rfl, rfl⟩ | ⟨n, a, v, rfl, hw⟩⟩
  · have e : s.withSchedule [] = s := by rw [← hs]; rfl
    exact engineTurn_dataMove [] (e.symm ▸ he)
  · exact engineTurn_dataMove es he
  · exact .reset (by rw [hs]; rfl)
  · exact .kept ⟨rfl, rfl, rfl, rfl, rfl, rfl⟩ ⟨rfl, rfl⟩
  · exact hostWrite_dataMove hs hw

/-- But for reset and a host write while IDLE, every step keeps the inputs. -/
theorem step_keeps_inputs {s t : State} (h : step s = .next t) (hr : s.schedule.head? ≠ some .reset)
    (hw : s.busy = true ∨ ∀ n a v, s.schedule.head? ≠ some (.write n a v)) : InputsKept s t := by
  cases step_dataMove h with
  | kept inputs => exact inputs
  | accepted inputs => exact inputs
  | completed inputs => exact inputs
  | reset input => exact absurd input hr
  | stored write idle =>
    obtain ⟨n, a, v, hs⟩ := write
    rcases hw with hb | hn
    · rw [idle] at hb; cases hb
    · exact absurd hs (hn n a v)

/-- Settles O51, by the cause of the step: only a store while IDLE and reset reach the inputs. -/
theorem engineNeverWritesTheInputs : Obligations.EngineNeverWritesTheInputs := by
  intro s t h hr hw
  obtain ⟨key, keyLen, iv, ivLen, inLen, inBuf⟩ := step_keeps_inputs h hr hw
  exact ⟨key, keyLen, iv, ivLen, inLen, inBuf⟩

/-- Settles O52, by the cause of the step: of those but reset only an acceptance and a completion reach the output. -/
theorem outputChangesOnlyAtAcceptanceAndCompletion : Obligations.OutputChangesOnlyAtAcceptanceAndCompletion := by
  intro s t h hr hne
  have hkept : ¬ OutputKept s t := fun k => hne.elim (absurd k.outBuf) (absurd k.outLen)
  cases step_dataMove h with
  | accepted _ idle busy outBuf outLen => exact .inl ⟨idle, busy, outBuf, outLen⟩
  | completed _ running busy => exact .inr ⟨running, busy⟩
  | kept _ output => exact absurd output hkept
  | stored _ _ output => exact absurd output hkept
  | reset input => exact absurd input hr

/-! ## The frame of every command form (20_memory.md R70, R71, 60_exceptions.md R253) -/

/-- Everything the meaning of a command form can do: nothing, or the completion of the pending command with its
result. -/
theorem exec_cases {i : Instr} {s t : State} (h : exec i s = .next t) :
    t = s ∨ ∃ w snap, s.phase = .busy w snap ∧
      t = (s.takeDraw (armDraw i s.env snap)).complete (armResult i s.env snap) := by
  by_cases hn : ∃ rest, i = .nop rest
  · obtain ⟨rest, rfl⟩ := hn
    cases h
    exact .inl rfl
  · rw [exec_eq_runCommand fun rest e => hn ⟨rest, e⟩] at h
    exact (runCommand_cases h).imp_left And.right

/-- A command form either changes nothing or ends the running command in its result. -/
theorem exec_endsWith_of_inv {i : Instr} {s t : State} (hi : s.Inv) (h : exec i s = .next t) :
    t = s ∨ s.busy = true ∧ ∃ d r, t = (s.takeDraw d).complete r ∧ EndsWith s t d.toNat r := by
  refine (exec_cases h).imp_right ?_
  rintro ⟨w, snap, hp, rfl⟩
  obtain ⟨-, -, rfl⟩ := hi.pending w snap hp
  have hb := busy_of_phase hp
  exact ⟨hb, _, _, rfl, complete_endsWith hi hb _ _ fun _ hr => armResult_length_le snapshot_length_le hr⟩

theorem EngineFrame.refl (s : State) : EngineFrame s s :=
  ⟨rfl, rfl, rfl, rfl, rfl, rfl, rfl, fun _ => rfl, rfl, rfl, rfl, rfl⟩

/-- Whatever a command ends in, it leaves the host's part alone. -/
theorem EndsWith.engineFrame {s t : State} {draws : Nat} {r : Except ErrCode Bytes} (h : EndsWith s t draws r) :
    EngineFrame s t := by
  cases r with
  | ok out => exact h.frame
  | error e => exact h.frame

/-- A command that changes FATAL ended in EntropyFailure. -/
theorem EndsWith.errCode_of_fatal_ne {s t : State} {draws : Nat} {r : Except ErrCode Bytes} (h : EndsWith s t draws r)
    (hf : t.status.fatal ≠ s.status.fatal) : t.status.errCode = ErrCode.entropyFailure.code := by
  cases r with
  | ok out => exact absurd h.completed.fatal hf
  | error e =>
    have he : e = .entropyFailure := by
      by_contra hne
      exact hf (by simp [h.completed.fatal, hne])
    rw [h.completed.errCode, he]

/-- Bytes outside the string written keep their values. -/
theorem read_writeBytes_outside {m : Memory} {a b : Nat} {xs : Bytes} (h : b < a ∨ a + xs.length ≤ b) :
    (m.writeBytes a xs).read b = m.read b := by
  rcases h with h | h
  · exact read_writeBytes_below h xs
  · obtain ⟨i, rfl⟩ := Nat.exists_eq_add_of_le (Nat.le_of_add_right_le h)
    rw [read_writeBytes, dif_neg (by omega)]

/-- A completion leaves every byte of OUT_BUF outside the output it stores: nothing was stored while BUSY (R71). -/
theorem complete_outBuf_outside {s : State} (hi : s.Inv) (hb : s.busy = true) {d : Bool} {r : Except ErrCode Bytes}
    (h : EndsWith s ((s.takeDraw d).complete r) d.toNat r) {a : Nat}
    (ha : a < outBase ∨ outBase + ((s.takeDraw d).complete r).outLen.toNat ≤ a) :
    ((s.takeDraw d).complete r).outBuf.read a = s.outBuf.read a := by
  cases r with
  | ok out =>
    rw [h.completed.outLen] at ha
    exact read_writeBytes_outside ha
  | error e =>
    obtain ⟨hz, -⟩ := hi.busy_clear hb
    rw [hz]
    rfl

/-- Settles O41: a command form changes nothing, or completes the running command; the end of a completion says what it
leaves. -/
theorem commandsChangeOnlyTheirResult : Obligations.CommandsChangeOnlyTheirResult := by
  intro i s t hi h
  rcases exec_endsWith_of_inv hi h with rfl | ⟨hb, d, r, rfl, he⟩
  · exact ⟨.refl t, fun hf => absurd rfl hf, fun _ _ _ => rfl, fun _ => rfl⟩
  · refine ⟨he.engineFrame, he.errCode_of_fatal_ne, fun _ a ha => complete_outBuf_outside hi hb he ha,
      fun hidle => ?_⟩
    rw [hb] at hidle
    cases hidle

end Sys2Proof.Machine

namespace Sys2Proof.Machine

open Sys2Proof.Laws

/-! ## The command word (30_encoding.md R91 to R98, R102) -/

/-! ### Fields and the well-formedness of terms -/

theorem fieldMode_lt (w : Word) : fieldMode w < 8 := (w.extractLsb' 4 3).isLt

theorem fieldAlg_lt (w : Word) : fieldAlg w < 4 := (w.extractLsb' 8 2).isLt

theorem fieldRest_lt (w : Word) : fieldRest w < 2 ^ 28 := (w.extractLsb' 4 28).isLt

theorem algFits_iff {alg : Nat} : algFits alg = true ↔ alg < 4 := decide_eq_true_iff

theorem modeFits_iff {mode : Nat} : modeFits mode = true ↔ mode < 8 := decide_eq_true_iff

theorem restFits_iff {rest : Nat} : restFits rest = true ↔ rest < 2 ^ 28 := decide_eq_true_iff

theorem modeFits_and_algFits_iff {mode alg : Nat} :
    (modeFits mode && algFits alg) = true ↔ mode < 8 ∧ alg < 4 := by
  rw [Bool.and_eq_true, modeFits_iff, algFits_iff]

/-! ### The decoder by opcode -/

theorem decode_of_opc_one {w : Word} (hr : reservedBitSet w = false) (ho : fieldOpc w = 1) :
    decode w = decodeEnc (fieldMode w) (fieldAlg w) (fieldXport w) (fieldIvs w) := by
  simp [decode, hr, ho]

theorem decode_of_opc_two {w : Word} (hr : reservedBitSet w = false) (ho : fieldOpc w = 2) :
    decode w = decodeDec (fieldMode w) (fieldAlg w) (fieldXport w) (fieldIvs w) := by
  simp [decode, hr, ho]

theorem decode_of_opc_three {w : Word} (hr : reservedBitSet w = false) (ho : fieldOpc w = 3) :
    decode w = .ok (.pad (fieldMode w) (fieldAlg w) (fieldXport w) (fieldIvs w)) := by
  simp [decode, hr, ho]

theorem decode_of_opc_four {w : Word} (hr : reservedBitSet w = false) (ho : fieldOpc w = 4) :
    decode w = .ok (.unpad (fieldMode w) (fieldAlg w) (fieldXport w) (fieldIvs w)) := by
  simp [decode, hr, ho]

/-! ### From a term to its word and back -/

section
variable {mode alg : Nat} {xport ivs : Bool} (hm : mode < 8) (ha : alg < 4)
include hm ha

theorem decode_commandWord_one :
    decode (commandWord 1 mode alg xport ivs) = decodeEnc mode alg xport ivs := by
  rw [decode_of_opc_one (reservedBitSet_commandWord ..) (fieldOpc_commandWord _ _ _ _ _ (by decide)),
    fieldMode_commandWord _ _ _ _ _ hm, fieldAlg_commandWord _ _ _ _ _ ha, fieldXport_commandWord, fieldIvs_commandWord]

theorem decode_commandWord_two :
    decode (commandWord 2 mode alg xport ivs) = decodeDec mode alg xport ivs := by
  rw [decode_of_opc_two (reservedBitSet_commandWord ..) (fieldOpc_commandWord _ _ _ _ _ (by decide)),
    fieldMode_commandWord _ _ _ _ _ hm, fieldAlg_commandWord _ _ _ _ _ ha, fieldXport_commandWord, fieldIvs_commandWord]

theorem decode_commandWord_three :
    decode (commandWord 3 mode alg xport ivs) = .ok (.pad mode alg xport ivs) := by
  rw [decode_of_opc_three (reservedBitSet_commandWord ..) (fieldOpc_commandWord _ _ _ _ _ (by decide)),
    fieldMode_commandWord _ _ _ _ _ hm, fieldAlg_commandWord _ _ _ _ _ ha, fieldXport_commandWord, fieldIvs_commandWord]

theorem decode_commandWord_four :
    decode (commandWord 4 mode alg xport ivs) = .ok (.unpad mode alg xport ivs) := by
  rw [decode_of_opc_four (reservedBitSet_commandWord ..) (fieldOpc_commandWord _ _ _ _ _ (by decide)),
    fieldMode_commandWord _ _ _ _ _ hm, fieldAlg_commandWord _ _ _ _ _ ha, fieldXport_commandWord, fieldIvs_commandWord]

end

/-- The ignored bits of a NOP come back from its word. -/
theorem fieldRest_encode_nop {rest : Nat} (h : rest < 2 ^ 28) : fieldRest (encode (.nop rest)) = rest := by
  rw [fieldRest, field_toNat, encode, BitVec.toNat_ofNat]
  omega

/-- A word with OPC 0 is the NOP with its ignored bits. -/
theorem encode_nop_fieldRest {w : Word} (h : fieldOpc w = 0) : encode (.nop (fieldRest w)) = w := by
  have hw := w.isLt
  rw [fieldOpc, field_toNat] at h
  apply BitVec.eq_of_toNat_eq
  rw [encode, BitVec.toNat_ofNat, fieldRest, field_toNat]
  omega

/-- Settles O1, by the form: its word has the form's OPC and no reserved bit, and its fields are the term's. -/
theorem decodeOfEncodeGivesTheTermBack : Obligations.DecodeOfEncodeGivesTheTermBack := by
  intro i h
  cases i with
  | encEcb | encCbc | encCfb | encOfb | encCtr => exact decode_commandWord_one (by decide) (algFits_iff.1 h)
  | decEcb | decCbc | decCfb | decOfb | decCtr => exact decode_commandWord_two (by decide) (algFits_iff.1 h)
  | pad =>
    obtain ⟨hm, ha⟩ := modeFits_and_algFits_iff.1 h
    exact decode_commandWord_three hm ha
  | unpad =>
    obtain ⟨hm, ha⟩ := modeFits_and_algFits_iff.1 h
    exact decode_commandWord_four hm ha
  | nop rest =>
    obtain ⟨ho, -⟩ := CommandForm.nop rest
    rw [decode_of_opc_zero ho, fieldRest_encode_nop (restFits_iff.1 h)]

/-- Settles O2, by the forms the decoder can answer: each is laid out from the word's own fields. -/
theorem encodeOfDecodeGivesTheWordBack : Obligations.EncodeOfDecodeGivesTheWordBack := by
  intro w i h
  rcases decode_ok_cases w i h with ⟨ho, rfl⟩ | ⟨hr, hform⟩
  · exact ⟨restFits_iff.2 (fieldRest_lt w), encode_nop_fieldRest ho⟩
  · have hw := commandWord_of_fields w hr
    have ha := algFits_iff.2 (fieldAlg_lt w)
    have hma := modeFits_and_algFits_iff.2 ⟨fieldMode_lt w, fieldAlg_lt w⟩
    rcases hform with ⟨ho, hm, rfl⟩ | ⟨ho, hm, rfl⟩ | ⟨ho, hm, rfl⟩ | ⟨ho, hm, rfl⟩ | ⟨ho, hm, rfl⟩ | ⟨ho, hm, rfl⟩ |
      ⟨ho, hm, rfl⟩ | ⟨ho, hm, rfl⟩ | ⟨ho, hm, rfl⟩ | ⟨ho, hm, rfl⟩ | ⟨ho, rfl⟩ | ⟨ho, rfl⟩ <;> rw [ho] at hw
    iterate 10
      rw [hm] at hw
      exact ⟨ha, hw⟩
    iterate 2 exact ⟨hma, hw⟩

/-! ### The rows of the opcode table -/

/-- A mask keeps a field whose bits it all has. -/
theorem extractLsb'_and_of_allOnes {m : Word} {lo n : Nat} (hm : m.extractLsb' lo n = BitVec.allOnes n) (w : Word) :
    (w &&& m).extractLsb' lo n = w.extractLsb' lo n := by
  rw [BitVec.extractLsb'_and, hm, BitVec.and_allOnes]

/-- A mask clears a field of whose bits it has none. -/
theorem extractLsb'_and_of_zero {m : Word} {lo n : Nat} (hm : m.extractLsb' lo n = 0#n) (w : Word) :
    (w &&& m).extractLsb' lo n = 0#n := by
  rw [BitVec.extractLsb'_and, hm, BitVec.and_zero]

theorem fieldOpc_and {m : Word} (hm : m.extractLsb' 0 4 = BitVec.allOnes 4) (w : Word) :
    fieldOpc (w &&& m) = fieldOpc w := by
  rw [fieldOpc, extractLsb'_and_of_allOnes hm, fieldOpc]

theorem fieldMode_and {m : Word} (hm : m.extractLsb' 4 3 = BitVec.allOnes 3) (w : Word) :
    fieldMode (w &&& m) = fieldMode w := by
  rw [fieldMode, extractLsb'_and_of_allOnes hm, fieldMode]

theorem fieldMode_and_zero {m : Word} (hm : m.extractLsb' 4 3 = 0#3) (w : Word) : fieldMode (w &&& m) = 0 := by
  rw [fieldMode, extractLsb'_and_of_zero hm, BitVec.toNat_ofNat, Nat.zero_mod]

theorem fieldAlg_and_zero {m : Word} (hm : m.extractLsb' 8 2 = 0#2) (w : Word) : fieldAlg (w &&& m) = 0 := by
  rw [fieldAlg, extractLsb'_and_of_zero hm, BitVec.toNat_ofNat, Nat.zero_mod]

theorem fieldXport_and_zero {m : Word} (hm : m.getLsbD 10 = false) (w : Word) : fieldXport (w &&& m) = false := by
  rw [fieldXport, BitVec.getLsbD_and, hm, Bool.and_false]

theorem fieldIvs_and_zero {m : Word} (hm : m.getLsbD 11 = false) (w : Word) : fieldIvs (w &&& m) = false := by
  rw [fieldIvs, BitVec.getLsbD_and, hm, Bool.and_false]

theorem reservedBitSet_and {m : Word} (h7 : m.getLsbD 7 = true) (h12 : m.extractLsb' 12 20 = BitVec.allOnes 20)
    (w : Word) : reservedBitSet (w &&& m) = reservedBitSet w := by
  rw [reservedBitSet, BitVec.getLsbD_and, h7, Bool.and_true, extractLsb'_and_of_allOnes h12, reservedBitSet]

/-- A word of no reserved bit is, under the mask of an ENC or DEC row, its OPC and MODE. -/
theorem and_cipherMask {w : Word} (hr : reservedBitSet w = false) :
    w &&& 0xFFFFF0FF = commandWord (fieldOpc w) (fieldMode w) 0 false false := by
  rw [← commandWord_of_fields (w &&& 0xFFFFF0FF) ((reservedBitSet_and (by decide) (by decide) w).trans hr),
    fieldOpc_and (by decide), fieldMode_and (by decide), fieldAlg_and_zero (by decide), fieldXport_and_zero (by decide),
    fieldIvs_and_zero (by decide)]

/-- A word of no reserved bit is, under the mask of the PAD and UNPAD rows, its OPC. -/
theorem and_padMask {w : Word} (hr : reservedBitSet w = false) :
    w &&& 0xFFFFF08F = commandWord (fieldOpc w) 0 0 false false := by
  rw [← commandWord_of_fields (w &&& 0xFFFFF08F) ((reservedBitSet_and (by decide) (by decide) w).trans hr),
    fieldOpc_and (by decide), fieldMode_and_zero (by decide), fieldAlg_and_zero (by decide),
    fieldXport_and_zero (by decide), fieldIvs_and_zero (by decide)]

theorem commandWord_and_cipherMask {opc mode alg : Nat} {xport ivs : Bool} (ho : opc < 16) (hm : mode < 8) :
    commandWord opc mode alg xport ivs &&& 0xFFFFF0FF = commandWord opc mode 0 false false := by
  rw [and_cipherMask (reservedBitSet_commandWord ..), fieldOpc_commandWord _ _ _ _ _ ho,
    fieldMode_commandWord _ _ _ _ _ hm]

theorem commandWord_and_padMask {opc mode alg : Nat} {xport ivs : Bool} (ho : opc < 16) :
    commandWord opc mode alg xport ivs &&& 0xFFFFF08F = commandWord opc 0 0 false false := by
  rw [and_padMask (reservedBitSet_commandWord ..), fieldOpc_commandWord _ _ _ _ _ ho]

/-- A word that matches the row of an ENC or DEC form has the reserved bits, OPC and MODE of the row. -/
theorem fields_of_and_cipherMask {w v : Word} (h : w &&& 0xFFFFF0FF = v) :
    reservedBitSet w = reservedBitSet v ∧ fieldOpc w = fieldOpc v ∧ fieldMode w = fieldMode v := by
  subst h
  exact ⟨(reservedBitSet_and (by decide) (by decide) w).symm, (fieldOpc_and (by decide) w).symm,
    (fieldMode_and (by decide) w).symm⟩

/-- A word that matches the row of PAD or UNPAD has the reserved bits and OPC of the row. -/
theorem fields_of_and_padMask {w v : Word} (h : w &&& 0xFFFFF08F = v) :
    reservedBitSet w = reservedBitSet v ∧ fieldOpc w = fieldOpc v := by
  subst h
  exact ⟨(reservedBitSet_and (by decide) (by decide) w).symm, (fieldOpc_and (by decide) w).symm⟩

/-- A word matches the row of NOP exactly when its OPC is 0. -/
theorem and_nopMask_eq_iff {w : Word} : w &&& 0x0000000F = 0 ↔ fieldOpc w = 0 := by
  constructor
  · intro h
    rw [← fieldOpc_and (m := 0x0000000F) (by decide), h]
    rfl
  · intro h
    rw [fieldOpc, field_toNat] at h
    apply BitVec.eq_of_toNat_eq
    rw [BitVec.toNat_and]
    exact (Nat.and_two_pow_sub_one_eq_mod w.toNat 4).trans (by simpa using h)

/-- The word of a form matches the form's row. -/
theorem encode_and_tableRow (i : Instr) : encode i &&& (tableRow i).2 = (tableRow i).1 := by
  cases i with
  | encEcb | decEcb | encCbc | decCbc | encCfb | decCfb | encOfb | decOfb | encCtr | decCtr =>
    exact commandWord_and_cipherMask (by decide) (by decide)
  | pad | unpad => exact commandWord_and_padMask (by decide)
  | nop rest => exact and_nopMask_eq_iff.2 (CommandForm.nop rest).1

theorem decode_and_tableRow {w : Word} {i : Instr} (h : decode w = .ok i) :
    w &&& (tableRow i).2 = (tableRow i).1 := by
  obtain ⟨-, rfl⟩ := encodeOfDecodeGivesTheWordBack w i h
  exact encode_and_tableRow i

/-- A word that matches a form's row decodes to a form of that row. -/
theorem decode_of_and_tableRow {w : Word} (j : Instr) (h : w &&& (tableRow j).2 = (tableRow j).1) :
    ∃ i, decode w = .ok i ∧ tableRow i = tableRow j := by
  cases j with
  | encEcb | encCbc | encCfb | encOfb | encCtr =>
    dsimp only [tableRow] at h
    obtain ⟨hr, ho, hm⟩ := fields_of_and_cipherMask h
    rw [decode_of_opc_one (hr.trans (by decide)) (ho.trans (by decide)), hm]
    exact ⟨_, rfl, rfl⟩
  | decEcb | decCbc | decCfb | decOfb | decCtr =>
    dsimp only [tableRow] at h
    obtain ⟨hr, ho, hm⟩ := fields_of_and_cipherMask h
    rw [decode_of_opc_two (hr.trans (by decide)) (ho.trans (by decide)), hm]
    exact ⟨_, rfl, rfl⟩
  | pad =>
    obtain ⟨hr, ho⟩ := fields_of_and_padMask (v := 3) h
    exact ⟨_, decode_of_opc_three (hr.trans (by decide)) (ho.trans (by decide)), rfl⟩
  | unpad =>
    obtain ⟨hr, ho⟩ := fields_of_and_padMask (v := 4) h
    exact ⟨_, decode_of_opc_four (hr.trans (by decide)) (ho.trans (by decide)), rfl⟩
  | nop => exact ⟨_, decode_of_opc_zero (and_nopMask_eq_iff.1 h), rfl⟩

/-- The rows of the table are the rows of the command forms. -/
theorem mem_tableRows_iff {row : Word × Word} : row ∈ tableRows ↔ ∃ i, tableRow i = row := by
  constructor
  · intro h
    simp only [tableRows, List.mem_cons, List.not_mem_nil, or_false] at h
    rcases h with rfl | rfl | rfl | rfl | rfl | rfl | rfl | rfl | rfl | rfl | rfl | rfl | rfl
    exacts [⟨.encEcb 0 false false, rfl⟩, ⟨.decEcb 0 false false, rfl⟩, ⟨.encCbc 0 false false, rfl⟩,
      ⟨.decCbc 0 false false, rfl⟩, ⟨.encCfb 0 false false, rfl⟩, ⟨.decCfb 0 false false, rfl⟩,
      ⟨.encOfb 0 false false, rfl⟩, ⟨.decOfb 0 false false, rfl⟩, ⟨.encCtr 0 false false, rfl⟩,
      ⟨.decCtr 0 false false, rfl⟩, ⟨.pad 0 0 false false, rfl⟩, ⟨.unpad 0 0 false false, rfl⟩, ⟨.nop 0, rfl⟩]
  · rintro ⟨i, rfl⟩
    cases i <;> simp [tableRow, tableRows]

theorem decode_of_mem_tableRows {w : Word} {row : Word × Word} (hrow : row ∈ tableRows) (h : w &&& row.2 = row.1) :
    ∃ i, decode w = .ok i ∧ tableRow i = row := by
  obtain ⟨j, rfl⟩ := mem_tableRows_iff.1 hrow
  exact decode_of_and_tableRow j h

/-- A word matches no row exactly when the decoder rejects it. -/
theorem no_row_iff {w : Word} : (∀ row ∈ tableRows, w &&& row.2 ≠ row.1) ↔ ∃ r, decode w = .error r := by
  constructor
  · intro h
    cases hd : decode w with
    | error r => exact ⟨r, rfl⟩
    | ok i => exact absurd (decode_and_tableRow hd) (h _ (mem_tableRows_iff.2 ⟨i, rfl⟩))
  · rintro ⟨r, hd⟩ row hrow h
    obtain ⟨i, hi, -⟩ := decode_of_mem_tableRows hrow h
    rw [hd] at hi
    cases hi

/-- The words that the decoder rejects (R98, R100). -/
theorem decode_error_iff {w : Word} :
    (∃ r, decode w = .error r) ↔
      fieldOpc w ≠ 0 ∧ (reservedBitSet w = true ∨ 5 ≤ fieldOpc w ∨ fieldOpc w ≤ 2 ∧ 5 ≤ fieldMode w) := by
  constructor
  · rintro ⟨r, hd⟩
    obtain ⟨h0, ⟨hr, -⟩ | ⟨-, ho, -⟩ | ⟨-, ho, hm, -⟩⟩ := decode_error_cases w r hd
    · exact ⟨h0, .inl hr⟩
    · exact ⟨h0, .inr (.inl ho)⟩
    · exact ⟨h0, .inr (.inr ⟨by omega, hm⟩)⟩
  · rintro ⟨h0, h⟩
    cases hd : decode w with
    | error r => exact ⟨r, rfl⟩
    | ok i =>
      exfalso
      obtain ⟨ho, -⟩ | ⟨hr, hform⟩ := decode_ok_cases w i hd
      · exact h0 ho
      · simp only [hr, Bool.false_eq_true, false_or] at h
        omega

/-- Settles O3: a form's word matches the form's row, a word that matches a row has the row's OPC and MODE, and the
decoder rejects the rest. -/
theorem decodeFollowsTheOpcodeTable : Obligations.DecodeFollowsTheOpcodeTable :=
  ⟨fun _ _ => decode_and_tableRow, fun _ _ => decode_of_mem_tableRows, fun _ => no_row_iff.trans decode_error_iff⟩

/-! ### Examples -/

/-- Settles O4: ten closed words, each read by the decoder. -/
theorem exampleWordsDecodeToTheirMnemonics : Obligations.ExampleWordsDecodeToTheirMnemonics := by
  unfold Obligations.ExampleWordsDecodeToTheirMnemonics
  decide

end Sys2Proof.Machine

namespace Sys2Proof.Machine

/-! ## The modes under a lawful primitive (40_block_primitive.md R111, R115, R116)

A buffer is transformed chunk by chunk. A decryption gives the buffer back when, on every chunk, it keeps CHAIN in step
with the encryption and undoes what the encryption put out; for each mode this is one fact about one turn. -/

/-! ### A transform and its inverse, chunk by chunk -/

/-- A first chunk splits off when it is whole, or when it is short and nothing follows it. -/
theorem chunks_append_of_first {x d : Bytes} (hx : x ≠ []) (hle : x.length ≤ 16) (hd : x.length = 16 ∨ d = []) :
    chunks (x ++ d) = x :: chunks d := by
  rcases hd with h | rfl
  · exact chunks_append h
  · rw [List.append_nil, chunks_step hx, List.take_of_length_le hle, List.drop_of_length_le hle]

/-- Induction along the chunks of a string. -/
theorem chunks_induction {motive : Bytes → Prop} (nil : motive [])
    (append : ∀ x d : Bytes, x ≠ [] → x.length ≤ 16 → (x.length = 16 ∨ d = []) → motive d → motive (x ++ d))
    (d : Bytes) : motive d := by
  induction hn : d.length using Nat.strong_induction_on generalizing d with
  | _ n ih =>
    by_cases hd : d = []
    · rw [hd]
      exact nil
    · have hpos := List.length_pos_iff.2 hd
      have hrest := ih (d.drop 16).length (by rw [List.length_drop]; omega) (d.drop 16) rfl
      rw [← List.take_append_drop 16 d]
      refine append _ _ (by simp [hd]) (List.length_take_le ..) ?_ hrest
      rw [List.length_take, List.drop_eq_nil_iff]
      omega

/-- On the chunk `x`, whatever CHAIN is, the turn with next CHAIN `nx'` and output `o'` undoes the turn with `nx` and `o`:
it takes the output back to `x`, and both leave the same CHAIN. -/
structure UndoesChunk (nx nx' : Block → Bytes → Block) (o o' : Block → Bytes → Bytes) (x : Bytes) : Prop where
  length : ∀ c, (o c x).length = x.length
  output : ∀ c, o' c (o c x) = x
  chain : ∀ c, nx' c (o c x) = nx c x

/-- Turns that undo each other on every chunk of a string undo each other on the string. -/
theorem outs_chunks_outs {nx nx' : Block → Bytes → Block} {o o' : Block → Bytes → Bytes} (d : Bytes) (c : Block)
    (h : ∀ x ∈ chunks d, UndoesChunk nx nx' o o' x) : outs nx' o' c (chunks (outs nx o c (chunks d))) = d := by
  induction d using chunks_induction generalizing c with
  | nil => rfl
  | append x d hx hle hd ih =>
    rw [chunks_append_of_first hx hle hd] at h ⊢
    obtain ⟨hl, ho, hc⟩ := h x List.mem_cons_self
    have hne : o c x ≠ [] := fun he => hx (List.length_eq_zero_iff.1 (by rw [← hl c, he]; rfl))
    have hrest : (o c x).length = 16 ∨ outs nx o (nx c x) (chunks d) = [] :=
      hd.imp (hl c).trans fun he => by rw [he]; rfl
    rw [outs, chunks_append_of_first hne ((hl c).trans_le hle) hrest, outs, ho, hc,
      ih _ fun y hy => h y (List.mem_cons_of_mem _ hy)]

/-- A transform whose turns undo those of another gives back the buffer that the other transformed. -/
theorem runChunks_runChunks {turn turn' : Datapath → Bytes → Datapath} {nx nx' : Block → Bytes → Block}
    {o o' : Block → Bytes → Bytes} (hturn : ∀ d x, turn d x = d.emit (nx d.chain x) (o d.chain x))
    (hturn' : ∀ d x, turn' d x = d.emit (nx' d.chain x) (o' d.chain x)) (iv : Block) (p : Bytes)
    (h : ∀ x ∈ chunks p, UndoesChunk nx nx' o o' x) :
    (runChunks turn' iv (chunks (runChunks turn iv (chunks p)).out)).out = p := by
  rw [runChunks_out hturn, runChunks_out hturn', outs_chunks_outs p iv h]

/-! ### Stream modes: the same keystream block is XORed on the chunk in both directions -/

/-- XOR with a keystream block that depends on CHAIN alone undoes itself on any chunk, if CHAIN keeps in step. -/
theorem undoesChunk_stream {nx nx' : Block → Bytes → Block} (ks : Block → Block) {x : Bytes} (hx : x.length ≤ 16)
    (hchain : ∀ c, nx' c (xorBytes x (blockBytes (ks c))) = nx c x) :
    UndoesChunk nx nx' (fun c x => xorBytes x (blockBytes (ks c))) (fun c x => xorBytes x (blockBytes (ks c))) x where
  length c := xorBytes_chunk_length x (ks c) hx
  output c := xorBytes_cancel (by rw [blockBytes_length]; exact hx)
  chain := hchain

/-- CFB: the feedback of both directions is the ciphertext chunk (44_cfb.md R171). -/
theorem cfbDec_cfbEnc (bp : Primitive) (key iv : Block) (p : Bytes) : cfbDec bp key iv (cfbEnc bp key iv p) = p :=
  runChunks_runChunks (nx := fun c x => blockOf (xorBytes x (blockBytes (bp.enc key c)))) (nx' := fun _ c => blockOf c)
    (fun _ _ => rfl) (fun _ _ => rfl) iv p
    fun _ hx => undoesChunk_stream (bp.enc key) (chunks_length_le hx) fun _ => rfl

/-- OFB: the keystream never sees the data (45_ofb.md R184). -/
theorem ofb_ofb (bp : Primitive) (key iv : Block) (x : Bytes) : ofb bp key iv (ofb bp key iv x) = x :=
  runChunks_runChunks (nx := fun c _ => bp.enc key c) (nx' := fun c _ => bp.enc key c)
    (fun _ _ => rfl) (fun _ _ => rfl) iv x
    fun _ hx => undoesChunk_stream (bp.enc key) (chunks_length_le hx) fun _ => rfl

/-- CTR: the counter never sees the data (46_ctr.md R195). -/
theorem ctr_ctr (bp : Primitive) (key iv : Block) (x : Bytes) : ctr bp key iv (ctr bp key iv x) = x :=
  runChunks_runChunks (nx := fun c _ => nextCounter c) (nx' := fun c _ => nextCounter c)
    (fun _ _ => rfl) (fun _ _ => rfl) iv x
    fun _ hx => undoesChunk_stream (bp.enc key) (chunks_length_le hx) fun _ => rfl

/-! ### Block modes: the padded string is whole blocks, and the primitive is inverted on each -/

/-- A turn that puts out a block is undone on a whole chunk when its block comes back and CHAIN keeps in step. -/
theorem undoesChunk_block {nx nx' f g : Block → Block → Block} {x : Bytes} (hx : x.length = 16)
    (hblock : ∀ c b, g c (f c b) = b) (hchain : ∀ c b, nx' c (f c b) = nx c b) :
    UndoesChunk (fun c x => nx c (blockOf x)) (fun c x => nx' c (blockOf x)) (fun c x => blockBytes (f c (blockOf x)))
      (fun c x => blockBytes (g c (blockOf x))) x where
  length c := by rw [blockBytes_length, hx]
  output c := by rw [blockOf_blockBytes, hblock, blockBytes_blockOf_full hx]
  chain c := by rw [blockOf_blockBytes, hchain]

/-- Unpad16 undoes Pad16 (41_padding.md R126). -/
theorem unpad16_pad16 (d : Bytes) : unpad16 (pad16 d) = .ok d :=
  (unpad16_ok_iff _ d).2 ⟨padCount d.length, by unfold padCount; omega, Nat.sub_le _ _, rfl⟩

/-- A string of one or more whole blocks is accepted (47_multiplexer.md R218). -/
theorem requireBlocks_ok {c : Bytes} {n : Nat} (h : c.length = 16 * (n + 1)) : requireBlocks c = .ok () :=
  if_neg (by omega)

theorem length_of_mem_chunks_pad16 {p x : Bytes} (hx : x ∈ chunks (pad16 p)) : x.length = 16 :=
  chunks_length_eq (by rw [pad16_length, Nat.mul_mod_right]) hx

/-- ECB: each block is decrypted on its own (42_ecb.md R140, R141). -/
theorem ecbDec_ecbEnc {bp : Primitive} (hbp : bp.Lawful) (key : Block) (p : Bytes) :
    ecbDec bp key (ecbEnc bp key p) = .ok p := by
  have hblocks : (runChunks (ecbDecTurn bp key) zeroBlock (chunks (ecbEnc bp key p))).out = pad16 p :=
    runChunks_runChunks (fun _ _ => rfl) (fun _ _ => rfl) zeroBlock (pad16 p) fun _ hx =>
      undoesChunk_block (nx := fun c _ => c) (nx' := fun c _ => c) (f := fun _ b => bp.enc key b)
        (g := fun _ b => bp.dec key b) (length_of_mem_chunks_pad16 hx) (fun _ => hbp.1 key) fun _ _ => rfl
  rw [ecbDec, requireBlocks_ok (ecbEnc_length bp key p), hblocks]
  exact unpad16_pad16 p

/-- CBC: `D` undoes `E`, and the XOR with the same CHAIN cancels (43_cbc.md R157). -/
theorem cbcDec_cbcEnc {bp : Primitive} (hbp : bp.Lawful) (key iv : Block) (p : Bytes) :
    cbcDec bp key iv (cbcEnc bp key iv p) = .ok p := by
  have hblocks : (runChunks (cbcDecTurn bp key) iv (chunks (cbcEnc bp key iv p))).out = pad16 p :=
    runChunks_runChunks (fun _ _ => rfl) (fun _ _ => rfl) iv (pad16 p) fun _ hx =>
      undoesChunk_block (nx := fun c b => bp.enc key (xorBlock b c)) (nx' := fun _ b => b)
        (f := fun c b => bp.enc key (xorBlock b c)) (g := fun c b => xorBlock (bp.dec key b) c)
        (length_of_mem_chunks_pad16 hx) (fun c b => by rw [hbp.1, xorBlock_cancel]) fun _ _ => rfl
  rw [cbcDec, requireBlocks_ok (cbcEnc_length bp key iv p), hblocks]
  exact unpad16_pad16 p

/-- Settles O45, mode by mode. -/
theorem everyModeRoundTrips : Obligations.EveryModeRoundTrips := by
  intro m bp key iv p hbp
  cases m with
  | ecb => exact ecbDec_ecbEnc hbp key p
  | cbc => exact cbcDec_cbcEnc hbp key iv p
  | cfb => exact congrArg _ (cfbDec_cfbEnc bp key iv p)
  | ofb => exact congrArg _ (ofb_ofb bp key iv p)
  | ctr => exact congrArg _ (ctr_ctr bp key iv p)

end Sys2Proof.Machine

namespace Sys2Proof.Machine

/-! ## PAD and UNPAD (41_padding.md R120 to R128) -/

/-- The snapshot of an accepted command is of the live registers, so it holds no more bytes than IN_BUF
(47_multiplexer.md R205, R206). -/
theorem data_length_le_of_accepted {s : State} {snap : Snapshot} (ha : Accepted s snap) :
    snap.data.length ≤ Config.maxLen := by
  obtain ⟨w, hw⟩ := ha.busy
  obtain ⟨-, -, rfl⟩ := ha.inv.pending w snap hw
  exact snapshot_length_le

/-- A command form on an accepted command ends with its own draw and its own result, which always fits OUT_BUF. -/
theorem exec_endsWith_armResult {s : State} {snap : Snapshot} (ha : Accepted s snap) {i : Instr}
    (hn : ∀ rest, i ≠ .nop rest) :
    ∃ t, exec i s = .next t ∧ EndsWith s t (armDraw i s.env snap).toNat (armResult i s.env snap) :=
  exec_endsWith ha hn rfl rfl fun _ => armResult_length_le (data_length_le_of_accepted ha)

/-- PAD of an input that fits completes with the padded input (R127). -/
theorem padResult_of_accepted {s : State} {snap : Snapshot} (ha : Accepted s snap) :
    padResult s.env snap = .ok (pad16 snap.data) := by
  rw [padResult, checkLength_ok ha.fits]
  rfl

/-- UNPAD of an input that fits completes with what Unpad16 answers (R128). -/
theorem unpadResult_of_accepted {s : State} {snap : Snapshot} (ha : Accepted s snap) :
    unpadResult s.env snap = unpad16 snap.data := by
  rw [unpadResult, checkLength_ok ha.fits]
  rfl

/-- PAD takes no draw and its ignored fields do not reach its result. -/
theorem exec_pad_endsOk {s : State} {snap : Snapshot} (ha : Accepted s snap) (mode alg : Nat) (xport ivs : Bool) :
    ∃ t, exec (.pad mode alg xport ivs) s = .next t ∧ EndsOk s t 0 (pad16 snap.data) := by
  have h := exec_endsWith_armResult ha (i := .pad mode alg xport ivs) nofun
  rwa [armResult, padResult_of_accepted ha] at h

/-- UNPAD takes no draw and its ignored fields do not reach its result. -/
theorem exec_unpad_endsWith {s : State} {snap : Snapshot} (ha : Accepted s snap) (mode alg : Nat) (xport ivs : Bool) :
    ∃ t, exec (.unpad mode alg xport ivs) s = .next t ∧ EndsWith s t 0 (unpad16 snap.data) := by
  have h := exec_endsWith_armResult ha (i := .unpad mode alg xport ivs) nofun
  rwa [armResult, unpadResult_of_accepted ha] at h

/-- Settles O29: the tail of the statement is the one `pad16` appends. -/
theorem padAppendsItsCount : Obligations.PadAppendsItsCount :=
  fun _ _ mode alg xport ivs ha => exec_pad_endsOk ha mode alg xport ivs

/-- Settles O30: Unpad16 answers with the string before a padding tail, and with PaddingError when there is none. -/
theorem unpadStripsExactlyAPaddingTail : Obligations.UnpadStripsExactlyAPaddingTail := by
  intro s snap mode alg xport ivs ha
  have h := exec_unpad_endsWith ha mode alg xport ivs
  constructor
  · intro d hd
    rwa [(unpad16_ok_iff _ d).2 hd] at h
  · intro hnone
    rwa [unpad16_error _ hnone] at h

/-- Settles O43, from the laws of Pad16. -/
theorem unpadUndoesPad : Obligations.UnpadUndoesPad :=
  fun d => ⟨unpad16_pad16 d, pad16_length d⟩

end Sys2Proof.Machine

namespace Sys2Proof.Machine

/-! ## ECB (42_ecb.md R140 to R144) -/

/-! ### The transforms, block by block -/

/-- ECB encryption puts out, at each block of the padded input, that block encrypted (R140). -/
theorem blockAt_ecbEnc (bp : Primitive) (key : Block) (p : Bytes) {i : Nat} (hi : i ≤ p.length / 16) :
    blockAt (ecbEnc bp key p) i = bp.enc key (blockAt (pad16 p) i) := by
  have hlen := pad16_length p
  have hchunk : chunkAt (ecbEnc bp key p) i = blockBytes (bp.enc key (blockAt (pad16 p) i)) := by
    rw [ecbEnc, runChunks_out (turn := ecbEncTurn bp key) (nx := fun c _ => c)
      (o := fun _ q => blockBytes (bp.enc key (blockOf q))) fun _ _ => rfl]
    exact chunkAt_outs_whole (fun _ _ => blockBytes_length _) i _ _ (by omega) (by omega)
  exact (congrArg blockOf hchunk).trans (blockOf_blockBytes _)

/-- ECB decryption of one or more whole blocks strips the padding off the blocks, each decrypted (R141). -/
theorem ecbDec_of_whole_blocks (bp : Primitive) (key : Block) {c : Bytes} (hne : c.length ≠ 0)
    (hc : c.length % 16 = 0) :
    ecbDec bp key c =
      unpad16 ((List.range (c.length / 16)).flatMap fun i => blockBytes (bp.dec key (blockAt c i))) := by
  rw [ecbDec, requireBlocks_ok (n := c.length / 16 - 1) (by omega),
    runChunks_out (turn := ecbDecTurn bp key) (nx := fun c _ => c)
      (o := fun _ x => blockBytes (bp.dec key (blockOf x))) fun _ _ => rfl,
    outs_flatMap _ _ hc]
  rfl

/-! ### The commands -/

/-- A command that ends in Unpad16's answer gives the bytes before a padding tail, and PaddingError when there is none
(41_padding.md R122). -/
theorem exec_endsWith_unpad16_cases {i : Instr} {s : State} {draws : Nat} {q : Bytes}
    (h : ∃ t, exec i s = .next t ∧ EndsWith s t draws (unpad16 q)) :
    (∀ d, PaddedAs q d → ∃ t, exec i s = .next t ∧ EndsOk s t draws d) ∧
    ((∀ d, ¬ PaddedAs q d) → ∃ t, exec i s = .next t ∧ EndsErr s t draws .paddingError) := by
  constructor
  · intro d hd
    rwa [(unpad16_ok_iff q d).2 hd] at h
  · intro hnone
    rwa [unpad16_error q hnone] at h

/-- ENC.ECB completes with the encryption of its input and takes no draw; XPORT and IVS do not reach its result (R142,
R143). -/
theorem exec_encEcb_endsOk {s : State} {snap : Snapshot} (ha : Accepted s snap) (hk : snap.keyLen = 16)
    (xport ivs : Bool) :
    ∃ t, exec (.encEcb 0 xport ivs) s = .next t ∧ EndsOk s t 0 (ecbEnc Config.bp snap.key snap.data) := by
  have h := exec_endsWith_armResult ha (i := .encEcb 0 xport ivs) nofun
  rwa [armResult, encEcbResult, construct_ok ha.fits hk] at h

/-- DEC.ECB completes with what ECB decryption answers and takes no draw; XPORT and IVS do not reach its result (R142,
R144). -/
theorem exec_decEcb_endsWith {s : State} {snap : Snapshot} (ha : Accepted s snap) (hk : snap.keyLen = 16)
    (xport ivs : Bool) :
    ∃ t, exec (.decEcb 0 xport ivs) s = .next t ∧ EndsWith s t 0 (ecbDec Config.bp snap.key snap.data) := by
  have h := exec_endsWith_armResult ha (i := .decEcb 0 xport ivs) nofun
  rwa [armResult, decEcbResult, construct_ok ha.fits hk] at h

/-- Settles O31: the output is `ecbEnc` of the input, whose length and blocks are known. -/
theorem encEcbEncryptsEachPaddedBlock : Obligations.EncEcbEncryptsEachPaddedBlock := by
  intro s snap xport ivs ha hk
  obtain ⟨t, ht, hends⟩ := exec_encEcb_endsOk ha hk xport ivs
  exact ⟨t, _, ht, hends, ecbEnc_length _ _ _, fun _ => blockAt_ecbEnc _ _ _⟩

/-- Settles O32: on whole blocks the result is Unpad16's answer on the decrypted blocks. -/
theorem decEcbDecryptsEachBlockAndStrips : Obligations.DecEcbDecryptsEachBlockAndStrips := by
  intro s snap xport ivs ha hk hne hwhole
  have h := exec_decEcb_endsWith ha hk xport ivs
  rw [ecbDec_of_whole_blocks _ _ hne hwhole] at h
  exact exec_endsWith_unpad16_cases h

end Sys2Proof.Machine

namespace Sys2Proof.Machine

/-! ## The commands of the IV modes (47_multiplexer.md R209, 48_iv_transport.md R235 to R244)

On an accepted command whose construction checks pass, an ENC or DEC of an IV mode is its transform, applied to the IV
and body of its input, behind the header; nothing of this depends on which mode it is. -/

/-- Where the IV of an encryption comes from: the IV register when an IV was supplied, else, in transport mode, the draw
that the state answers next (R235, R236). -/
def EncInput (s : State) (snap : Snapshot) (xport ivs : Bool) (iv : Block) : Prop :=
  ivs = true ∧ snap.ivLen = 16 ∧ iv = snap.iv ∨ ivs = false ∧ xport = true ∧ s.rngAnswer = some iv

/-- With its IV at hand, an encryption passes the construction checks. -/
theorem constructIv_of_encInput {s : State} {snap : Snapshot} (ha : Accepted s snap) (hk : snap.keyLen = 16)
    {xport ivs : Bool} {iv : Block} (hin : EncInput s snap xport ivs iv) :
    constructIv s.env snap 0 xport ivs = .ok snap.key :=
  constructIv_ok ha.fits hk <| hin.imp (fun ⟨hivs, hlen, _⟩ => ⟨hivs, hlen⟩) fun ⟨hivs, hx, _⟩ => ⟨hivs, hx⟩

/-- With its IV at hand, a decryption passes the construction checks. -/
theorem constructIv_of_decInput {s : State} {snap : Snapshot} (ha : Accepted s snap) (hk : snap.keyLen = 16)
    {xport ivs : Bool} {iv : Block} {body : Bytes} (hin : DecInput snap xport ivs iv body) :
    constructIv s.env snap 0 xport ivs = .ok snap.key :=
  constructIv_ok ha.fits hk <| hin.imp (fun ⟨hivs, hlen, _⟩ => ⟨hivs, hlen⟩) fun ⟨hivs, hx, _⟩ => ⟨hivs, hx⟩

/-- An encryption works on its whole input, with its IV in the header exactly in transport mode (R238). -/
theorem prepareIv_of_encInput {s : State} {snap : Snapshot} {xport ivs : Bool} {iv : Block}
    (hin : EncInput s snap xport ivs iv) :
    prepareIv .enc xport ivs snap s.env.rng = .ok { iv := iv, body := snap.data, header := headerOf xport iv } := by
  rcases hin with ⟨rfl, -, rfl⟩ | ⟨rfl, rfl, hdraw⟩
  · cases xport <;> rfl
  · simp [prepareIv, transportPrepare, State.env, hdraw, headerOf]

/-- A decryption works on the IV and body of its input, and puts out no header (R240, R241). -/
theorem prepareIv_of_decInput {snap : Snapshot} {xport ivs : Bool} {iv : Block} {body : Bytes}
    (hin : DecInput snap xport ivs iv body) (rng : Option Block) :
    prepareIv .dec xport ivs snap rng = .ok { iv := iv, body := body, header := [] } := by
  rcases hin with ⟨rfl, -, rfl, rfl⟩ | ⟨rfl, rfl, hlen, rfl, rfl⟩
  · cases xport <;> rfl
  · exact if_neg (Nat.not_lt.2 hlen)

/-- An encryption whose checks pass draws exactly when no IV was supplied (R236). -/
theorem drawsIv_of_encInput {s : State} {snap : Snapshot} (ha : Accepted s snap) (hk : snap.keyLen = 16)
    {xport ivs : Bool} {iv : Block} (hin : EncInput s snap xport ivs iv) : drawsIv 0 xport ivs s.env snap = !ivs := by
  rw [drawsIv, constructIv_of_encInput ha hk hin]
  rcases hin with ⟨rfl, -⟩ | ⟨rfl, rfl, -⟩
  · rw [Bool.not_true, Bool.and_false, Bool.false_and]
  · rfl

theorem encIvResult_of_encInput (transform : Primitive → Block → Block → Bytes → Bytes) {s : State} {snap : Snapshot}
    (ha : Accepted s snap) (hk : snap.keyLen = 16) {xport ivs : Bool} {iv : Block}
    (hin : EncInput s snap xport ivs iv) :
    encIvResult transform 0 xport ivs s.env snap =
      .ok (headerOf xport iv ++ transform Config.bp snap.key iv snap.data) := by
  rw [encIvResult, constructIv_of_encInput ha hk hin, prepareIv_of_encInput hin]
  rfl

theorem decIvResult_of_decInput (transform : Primitive → Block → Block → Bytes → Except ErrCode Bytes) {s : State}
    {snap : Snapshot} (ha : Accepted s snap) (hk : snap.keyLen = 16) {xport ivs : Bool} {iv : Block} {body : Bytes}
    (hin : DecInput snap xport ivs iv body) :
    decIvResult transform 0 xport ivs s.env snap = transform Config.bp snap.key iv body := by
  rw [decIvResult, constructIv_of_decInput ha hk hin, prepareIv_of_decInput hin]
  rfl

/-- A form whose draw and result are those of an encryption of an IV mode completes with the header and the transform of
its input, and takes one draw when no IV was supplied. -/
theorem exec_encIv_endsOk {i : Instr} {transform : Primitive → Block → Block → Bytes → Bytes} {xport ivs : Bool}
    (hn : ∀ rest, i ≠ .nop rest) (hdraw : armDraw i = drawsIv 0 xport ivs)
    (hresult : armResult i = encIvResult transform 0 xport ivs) {s : State} {snap : Snapshot} (ha : Accepted s snap)
    (hk : snap.keyLen = 16) {iv : Block} (hin : EncInput s snap xport ivs iv) :
    ∃ t, exec i s = .next t ∧
      EndsOk s t (if ivs then 0 else 1) (headerOf xport iv ++ transform Config.bp snap.key iv snap.data) := by
  have h := exec_endsWith_armResult ha hn
  rw [hdraw, hresult, drawsIv_of_encInput ha hk hin, encIvResult_of_encInput transform ha hk hin] at h
  cases ivs <;> exact h

/-- A form whose draw and result are those of a decryption of an IV mode completes with what the transform of its input
answers, and takes no draw. -/
theorem exec_decIv_endsWith {i : Instr} {transform : Primitive → Block → Block → Bytes → Except ErrCode Bytes}
    {xport ivs : Bool} (hn : ∀ rest, i ≠ .nop rest) (hdraw : armDraw i = noDraw)
    (hresult : armResult i = decIvResult transform 0 xport ivs) {s : State} {snap : Snapshot} (ha : Accepted s snap)
    (hk : snap.keyLen = 16) {iv : Block} {body : Bytes} (hin : DecInput snap xport ivs iv body) :
    ∃ t, exec i s = .next t ∧ EndsWith s t 0 (transform Config.bp snap.key iv body) := by
  have h := exec_endsWith_armResult ha hn
  rwa [hdraw, hresult, decIvResult_of_decInput transform ha hk hin] at h

/-! ## CBC (43_cbc.md R150 to R157) -/

/-! ### The transforms, block by block -/

/-- Block `i` of the output of a transform that puts out a block for each whole chunk: the block put out for chunk `i`
under the CHAIN before it. -/
theorem blockAt_runChunks_out {turn : Datapath → Bytes → Datapath} {nx f : Block → Bytes → Block}
    (hturn : ∀ d x, turn d x = d.emit (nx d.chain x) (blockBytes (f d.chain x))) (seed : Block) {d : Bytes}
    (hd : d.length % 16 = 0) {i : Nat} (hi : 16 * i < d.length) :
    blockAt (runChunks turn seed (chunks d)).out i = f (chainAt nx seed d i) (chunkAt d i) := by
  have hchunk : chunkAt (runChunks turn seed (chunks d)).out i =
      blockBytes (f (chainAt nx seed d i) (chunkAt d i)) := by
    rw [runChunks_out (o := fun c x => blockBytes (f c x)) hturn]
    exact chunkAt_outs_whole (fun _ _ => blockBytes_length _) i seed d hd hi
  exact (congrArg blockOf hchunk).trans (blockOf_blockBytes _)

/-- The ciphertext block of a plaintext chunk, which is the next CHAIN too (R151). -/
def cbcEncBlock (bp : Primitive) (key chain : Block) (q : Bytes) : Block := bp.enc key (xorBlock (blockOf q) chain)

/-- The ciphertext block `i` is CHAIN before chunk `i + 1` (R153). -/
theorem blockAt_cbcEnc_eq_chainAt (bp : Primitive) (key iv : Block) (p : Bytes) {i : Nat} (hi : i ≤ p.length / 16) :
    blockAt (cbcEnc bp key iv p) i = chainAt (cbcEncBlock bp key) iv (pad16 p) (i + 1) := by
  have hlen := pad16_length p
  exact blockAt_runChunks_out (nx := cbcEncBlock bp key) (f := cbcEncBlock bp key) (fun _ _ => rfl) iv (by omega)
    (by omega)

/-- CBC encryption, block by block: `C_i = E(P_i XOR C_{i-1})` with `C_0 = IV` (R151). -/
theorem blockAt_cbcEnc (bp : Primitive) (key iv : Block) (p : Bytes) {i : Nat} (hi : i ≤ p.length / 16) :
    blockAt (cbcEnc bp key iv p) i = bp.enc key
      (xorBlock (blockAt (pad16 p) i) (if i = 0 then iv else blockAt (cbcEnc bp key iv p) (i - 1))) := by
  rw [blockAt_cbcEnc_eq_chainAt bp key iv p hi]
  cases i with
  | zero => rfl
  | succ i =>
    rw [if_neg (Nat.succ_ne_zero i), Nat.add_sub_cancel, blockAt_cbcEnc_eq_chainAt bp key iv p (by omega)]
    rfl

/-- The plaintext block `i` of a string of ciphertext blocks: `P_i = D(C_i) XOR C_{i-1}` with `C_0 = IV` (R152). -/
def cbcPlainBlock (bp : Primitive) (key iv : Block) (c : Bytes) (i : Nat) : Block :=
  xorBlock (bp.dec key (blockAt c i)) (if i = 0 then iv else blockAt c (i - 1))

/-- CHAIN of a decryption is the input block before (R153). -/
theorem chainAt_cbcDec (iv : Block) (c : Bytes) (i : Nat) :
    chainAt (fun _ x => blockOf x) iv c i = if i = 0 then iv else blockAt c (i - 1) := by
  cases i <;> rfl

theorem blockAt_cbcDec_out (bp : Primitive) (key iv : Block) {c : Bytes} (hc : c.length % 16 = 0) {i : Nat}
    (hi : 16 * i < c.length) :
    blockAt (runChunks (cbcDecTurn bp key) iv (chunks c)).out i = cbcPlainBlock bp key iv c i := by
  rw [cbcPlainBlock, ← chainAt_cbcDec]
  exact blockAt_runChunks_out (turn := cbcDecTurn bp key) (nx := fun _ x => blockOf x)
    (f := fun chain x => xorBlock (bp.dec key (blockOf x)) chain) (fun _ _ => rfl) iv hc hi

theorem cbcDec_out_eq_flatMap (bp : Primitive) (key iv : Block) {c : Bytes} (hc : c.length % 16 = 0) :
    (runChunks (cbcDecTurn bp key) iv (chunks c)).out =
      (List.range (c.length / 16)).flatMap fun i => blockBytes (cbcPlainBlock bp key iv c i) := by
  rw [runChunks_out (turn := cbcDecTurn bp key) (nx := fun _ x => blockOf x)
    (o := fun chain x => blockBytes (xorBlock (bp.dec key (blockOf x)) chain)) fun _ _ => rfl, outs_flatMap _ _ hc]
  simp only [chainAt_cbcDec]
  rfl

/-- CBC decryption of one or more whole blocks strips the padding off the plaintext blocks (R152). -/
theorem cbcDec_of_whole_blocks (bp : Primitive) (key iv : Block) {c : Bytes} (hne : c.length ≠ 0)
    (hc : c.length % 16 = 0) :
    cbcDec bp key iv c =
      unpad16 ((List.range (c.length / 16)).flatMap fun i => blockBytes (cbcPlainBlock bp key iv c i)) := by
  rw [cbcDec, requireBlocks_ok (n := c.length / 16 - 1) (by omega), cbcDec_out_eq_flatMap bp key iv hc]
  rfl

/-! ### The commands -/

/-- Settles O33: the output is the header and `cbcEnc` of the input, whose length and blocks are known. -/
theorem encCbcChainsOnTheCiphertext : Obligations.EncCbcChainsOnTheCiphertext := by
  intro s snap xport ivs iv ha hk hin
  obtain ⟨t, ht, hends⟩ := exec_encIv_endsOk (i := .encCbc 0 xport ivs) nofun rfl rfl ha hk hin
  exact ⟨t, _, ht, hends, cbcEnc_length _ _ _ _, fun _ => blockAt_cbcEnc _ _ _ _⟩

/-- Settles O34: on whole blocks the result is Unpad16's answer on the plaintext blocks. -/
theorem decCbcChainsOnTheInput : Obligations.DecCbcChainsOnTheInput := by
  intro s snap xport ivs iv body ha hk hin hne hwhole
  have h := exec_decIv_endsWith (i := .decCbc 0 xport ivs) nofun rfl rfl ha hk hin
  rw [cbcDec_of_whole_blocks _ _ _ hne hwhole] at h
  exact exec_endsWith_unpad16_cases h

/-! ### A changed ciphertext block (R156) -/

theorem length_flatMap_blockBytes (cs : List Block) : (cs.flatMap blockBytes).length = 16 * cs.length := by
  simp [List.length_flatMap, Nat.mul_comm]

/-- Block `i` of blocks put together is the `i`-th of them; after the end there is only the zero padding. -/
theorem blockAt_flatMap_blockBytes (cs : List Block) (i : Nat) :
    blockAt (cs.flatMap blockBytes) i = cs.getD i zeroBlock := by
  induction cs generalizing i with
  | nil =>
    rw [List.flatMap_nil, blockAt, List.drop_nil, List.take_nil]
    rfl
  | cons c cs ih =>
    rw [List.flatMap_cons]
    cases i with
    | zero => simp [blockAt]
    | succ i =>
      rw [List.getD_cons_succ, ← ih, blockAt, blockAt, Nat.mul_succ, Nat.add_comm, ← List.drop_drop,
        List.drop_left' (blockBytes_length c)]

/-- The plaintext block `j` of a list of ciphertext blocks depends on the blocks `j` and `j - 1` alone. -/
theorem blockAt_cbcDec_blocks (bp : Primitive) (key iv : Block) {cs : List Block} {j : Nat} (hj : j < cs.length) :
    blockAt (runChunks (cbcDecTurn bp key) iv (chunks (cs.flatMap blockBytes))).out j =
      xorBlock (bp.dec key (cs.getD j zeroBlock)) (if j = 0 then iv else cs.getD (j - 1) zeroBlock) := by
  have hlen := length_flatMap_blockBytes cs
  rw [blockAt_cbcDec_out bp key iv (by omega) (by omega), cbcPlainBlock]
  simp only [blockAt_flatMap_blockBytes]

theorem getD_set_self {cs : List Block} {i : Nat} (hi : i < cs.length) (c : Block) :
    (cs.set i c).getD i zeroBlock = c := by
  simp [List.getD_eq_getElem?_getD, hi]

theorem getD_set_ne (cs : List Block) {i j : Nat} (h : j ≠ i) (c : Block) :
    (cs.set i c).getD j zeroBlock = cs.getD j zeroBlock := by
  simp [List.getD_eq_getElem?_getD, h.symm]

/-- Settles O44: the changed block stands in the plaintext blocks `i`, as input of `D`, and `i + 1`, as CHAIN, and in no
other. -/
theorem cbcErrorReachesOnlyTheNextBlock : Obligations.CbcErrorReachesOnlyTheNextBlock := by
  intro bp key iv cs i c' hi
  have hplain {j : Nat} (hj : j < cs.length) := blockAt_cbcDec_blocks bp key iv hj
  have hchanged {j : Nat} (hj : j < cs.length) :=
    blockAt_cbcDec_blocks bp key iv (cs := cs.set i c') (j := j) (by rwa [List.length_set])
  refine ⟨?_, fun hnext => ?_, fun j hj hne hnext => ?_⟩
  · rw [hchanged hi, getD_set_self hi]
    split
    · rfl
    · rw [getD_set_ne cs (by omega)]
  · rw [hchanged hnext, hplain hnext, getD_set_ne cs (by omega), if_neg (Nat.succ_ne_zero i),
      if_neg (Nat.succ_ne_zero i), Nat.add_sub_cancel, getD_set_self hi, xorBlock_telescope]
  · rw [hchanged hj, hplain hj, getD_set_ne cs hne, getD_set_ne cs (by omega)]

end Sys2Proof.Machine

namespace Sys2Proof.Machine

/-! ## CFB (44_cfb.md R165 to R170) -/

/-! ### The transforms, byte by byte -/

/-- The next CHAIN of a CFB encryption: the ciphertext of the chunk, zeros after it when it is short (R165, R166). -/
def cfbEncFeedback (bp : Primitive) (key chain : Block) (x : Bytes) : Block :=
  blockOf (xorBytes x (blockBytes (bp.enc key chain)))

theorem cfbEnc_eq_outs (bp : Primitive) (key iv : Block) (p : Bytes) :
    cfbEnc bp key iv p =
      outs (cfbEncFeedback bp key) (fun c x => xorBytes x (blockBytes (bp.enc key c))) iv (chunks p) :=
  runChunks_out (turn := cfbEncTurn bp key) (fun _ _ => rfl) (chunks p) iv

theorem cfbDec_eq_outs (bp : Primitive) (key iv : Block) (c : Bytes) :
    cfbDec bp key iv c =
      outs (fun _ x => blockOf x) (fun c x => xorBytes x (blockBytes (bp.enc key c))) iv (chunks c) :=
  runChunks_out (turn := cfbDecTurn bp key) (nx := fun _ x => blockOf x)
    (o := fun c x => xorBytes x (blockBytes (bp.enc key c))) (fun _ _ => rfl) (chunks c) iv

/-- The ciphertext chunk `i`, a short last one included, is CHAIN before chunk `i + 1` (R166). -/
theorem blockAt_cfbEnc_eq_chainAt (bp : Primitive) (key iv : Block) (p : Bytes) {i : Nat} (hi : 16 * i < p.length) :
    blockAt (cfbEnc bp key iv p) i = chainAt (cfbEncFeedback bp key) iv p (i + 1) := by
  rw [cfbEnc_eq_outs]
  exact congrArg blockOf (chunkAt_outs (fun _ _ => xorBytes_chunk_length _ _) i iv p hi)

/-- CHAIN of an encryption is the IV first, then the ciphertext chunk before (R165, R166). -/
theorem chainAt_cfbEnc (bp : Primitive) (key iv : Block) (p : Bytes) {i : Nat} (hi : 16 * i < p.length) :
    chainAt (cfbEncFeedback bp key) iv p i = if i = 0 then iv else blockAt (cfbEnc bp key iv p) (i - 1) := by
  cases i with
  | zero => rfl
  | succ i =>
    rw [if_neg (Nat.succ_ne_zero i), Nat.add_sub_cancel, blockAt_cfbEnc_eq_chainAt bp key iv p (by omega)]

/-- A byte put out by a stream mode whose CHAIN is the IV first and then the chunk before of a string `fed`: the data byte
XOR the keystream byte that this feedback gives. -/
theorem outs_feedback_getD {d fed : Bytes} {nx : Block → Bytes → Block} {ks : Block → Block} {iv : Block}
    (hchain : ∀ {i}, 16 * i < d.length → chainAt nx iv d i = if i = 0 then iv else blockAt fed (i - 1))
    {j : Nat} (hj : j < d.length) :
    (outs nx (fun c x => xorBytes x (blockBytes (ks c))) iv (chunks d)).getD j 0 =
      d.getD j 0 ^^^ blockGet (ks (if j < 16 then iv else blockAt fed (j / 16 - 1))) (j % 16) := by
  rw [outs_stream_getD j hj, hchain (by omega)]
  simp only [Nat.div_eq_zero_iff_lt (show 0 < 16 by decide)]

/-- CFB encryption, byte by byte: `C_i = P_i XOR E(C_{i-1})` with `C_0 = IV` (R166). -/
theorem getD_cfbEnc (bp : Primitive) (key iv : Block) (p : Bytes) {j : Nat} (hj : j < p.length) :
    (cfbEnc bp key iv p).getD j 0 = p.getD j 0 ^^^
      blockGet (bp.enc key (if j < 16 then iv else blockAt (cfbEnc bp key iv p) (j / 16 - 1))) (j % 16) := by
  rw [← outs_feedback_getD (chainAt_cfbEnc bp key iv p) hj, ← cfbEnc_eq_outs]

/-- CFB decryption, byte by byte: `P_i = C_i XOR E(C_{i-1})` with `C_0 = IV`. CHAIN is the input chunk before, as it is in
CBC decryption (R167). -/
theorem getD_cfbDec (bp : Primitive) (key iv : Block) (c : Bytes) {j : Nat} (hj : j < c.length) :
    (cfbDec bp key iv c).getD j 0 = c.getD j 0 ^^^
      blockGet (bp.enc key (if j < 16 then iv else blockAt c (j / 16 - 1))) (j % 16) := by
  rw [← outs_feedback_getD (fun _ => chainAt_cbcDec iv c _) hj, ← cfbDec_eq_outs]

/-! ### The commands -/

/-- Settles O35: the output is the header and `cfbEnc` of the input, whose length and bytes are known. -/
theorem encCfbFeedsBackTheCiphertext : Obligations.EncCfbFeedsBackTheCiphertext := by
  intro s snap xport ivs iv ha hk hin
  obtain ⟨t, ht, hends⟩ := exec_encIv_endsOk (i := .encCfb 0 xport ivs) nofun rfl rfl ha hk hin
  exact ⟨t, _, ht, hends, cfbEnc_length _ _ _ _, fun _ => getD_cfbEnc _ _ _ _⟩

/-- Settles O36: the output is `cfbDec` of the body, whose length and bytes are known. -/
theorem decCfbFeedsBackTheInput : Obligations.DecCfbFeedsBackTheInput := by
  intro s snap xport ivs iv body ha hk hin
  obtain ⟨t, ht, hends⟩ := exec_decIv_endsWith (i := .decCfb 0 xport ivs)
    (transform := fun bp key iv c => .ok (cfbDec bp key iv c)) nofun rfl rfl ha hk hin
  exact ⟨t, _, ht, hends, cfbDec_length _ _ _ _, fun _ => getD_cfbDec _ _ _ _⟩

end Sys2Proof.Machine

namespace Sys2Proof.Machine

/-! ## OFB (45_ofb.md R180 to R183) -/

/-! ### The transform, byte by byte -/

theorem ofb_eq_outs (bp : Primitive) (key iv : Block) (x : Bytes) :
    ofb bp key iv x =
      outs (fun c _ => bp.enc key c) (fun c x => xorBytes x (blockBytes (bp.enc key c))) iv (chunks x) :=
  runChunks_out (turn := ofbTurn bp key) (nx := fun c _ => bp.enc key c) (fun _ _ => rfl) (chunks x) iv

/-- OFB, byte by byte: `C_i = P_i XOR K_i`. CHAIN before chunk `i` is `K_{i-1}`, the IV encrypted once per chunk before,
and is encrypted once more for the chunk itself (R180, R181). -/
theorem getD_ofb (bp : Primitive) (key iv : Block) (x : Bytes) {j : Nat} (hj : j < x.length) :
    (ofb bp key iv x).getD j 0 = x.getD j 0 ^^^ blockGet ((bp.enc key)^[j / 16 + 1] iv) (j % 16) := by
  rw [ofb_eq_outs, outs_stream_getD j hj, chainAt_iterate, Function.iterate_succ_apply']

/-! ### The commands -/

/-- Settles O37: the output is the header and `ofb` of the input, whose length and bytes are known. -/
theorem encOfbXorsTheIteratedKeystream : Obligations.EncOfbXorsTheIteratedKeystream := by
  intro s snap xport ivs iv ha hk hin
  obtain ⟨t, ht, hends⟩ := exec_encIv_endsOk (i := .encOfb 0 xport ivs) nofun rfl rfl ha hk hin
  exact ⟨t, _, ht, hends, ofb_length _ _ _ _, fun _ => getD_ofb _ _ _ _⟩

/-- Settles O38: the output is `ofb` of the body, whose length and bytes are known. -/
theorem decOfbXorsTheIteratedKeystream : Obligations.DecOfbXorsTheIteratedKeystream := by
  intro s snap xport ivs iv body ha hk hin
  obtain ⟨t, ht, hends⟩ := exec_decIv_endsWith (i := .decOfb 0 xport ivs)
    (transform := fun bp key iv c => .ok (ofb bp key iv c)) nofun rfl rfl ha hk hin
  exact ⟨t, _, ht, hends, ofb_length _ _ _ _, fun _ => getD_ofb _ _ _ _⟩

end Sys2Proof.Machine

namespace Sys2Proof.Machine

/-! ## CTR (46_ctr.md R190 to R194) -/

/-! ### Counter blocks -/

/-- A block is `to_be16` of its number, because no other block has that number (00_scope.md section 4). -/
theorem toBe16_be128 (b : Block) : toBe16 (be128 b) = b :=
  be128_inj (be128_toBe16 _ (be128_lt b))

/-- The bytes of `to_be16` are the base-256 digits of the number modulo 2^128, byte 0 the most significant. -/
theorem toNat_blockGet_toBe16 (n : Nat) {j : Nat} (hj : j < 16) :
    (blockGet (toBe16 n) j).toNat = n / 256 ^ (15 - j) % 256 := by
  rw [blockGet, blockBytes_toBe16, digits16, List.getD_eq_getElem _ _ (by simpa using hj), List.getElem_map,
    List.getElem_range, BitVec.toNat_ofNat]

/-- The counter block after `i` steps stands for the first one's number plus `i`, modulo 2^128 (R190, R191). -/
theorem iterate_nextCounter (b : Block) (i : Nat) : nextCounter^[i] b = toBe16 ((be128 b + i) % 2 ^ 128) := by
  induction i with
  | zero => rw [Nat.add_zero, Nat.mod_eq_of_lt (be128_lt b), toBe16_be128, Function.iterate_zero_apply]
  | succ i ih =>
    rw [Function.iterate_succ_apply', ih, nextCounter, be128_toBe16 _ (Nat.mod_lt _ (by positivity)), Nat.mod_add_mod,
      Nat.add_assoc]

/-- Settles O42: a block has a number below 2^128 and is made of its digits, and the digits of a number give it back. -/
theorem counterBytesAreBigEndian : Obligations.CounterBytesAreBigEndian :=
  ⟨fun b => ⟨be128_lt b, toBe16_be128 b⟩, be128_toBe16, fun n _ _ hj => toNat_blockGet_toBe16 n hj⟩

/-! ### The transform, byte by byte -/

theorem ctr_eq_outs (bp : Primitive) (key iv : Block) (x : Bytes) :
    ctr bp key iv x =
      outs (fun c _ => nextCounter c) (fun c x => xorBytes x (blockBytes (bp.enc key c))) iv (chunks x) :=
  runChunks_out (turn := ctrTurn bp key) (nx := fun c _ => nextCounter c) (fun _ _ => rfl) (chunks x) iv

/-- CTR, byte by byte: CHAIN before chunk `i` is the IV counted up `i` times, and its encryption is XORed on the chunk
(R192). -/
theorem getD_ctr (bp : Primitive) (key iv : Block) (x : Bytes) {j : Nat} (hj : j < x.length) :
    (ctr bp key iv x).getD j 0 = x.getD j 0 ^^^
      blockGet (bp.enc key (toBe16 ((be128 iv + j / 16) % 2 ^ 128))) (j % 16) := by
  rw [ctr_eq_outs, outs_stream_getD j hj, chainAt_iterate, iterate_nextCounter]

/-! ### The commands -/

/-- Settles O39: the output is the header and `ctr` of the input, whose length and bytes are known. -/
theorem encCtrXorsTheEncryptedCounter : Obligations.EncCtrXorsTheEncryptedCounter := by
  intro s snap xport ivs iv ha hk hin
  obtain ⟨t, ht, hends⟩ := exec_encIv_endsOk (i := .encCtr 0 xport ivs) nofun rfl rfl ha hk hin
  exact ⟨t, _, ht, hends, ctr_length _ _ _ _, fun _ => getD_ctr _ _ _ _⟩

/-- Settles O40: the output is `ctr` of the body, whose length and bytes are known. -/
theorem decCtrXorsTheEncryptedCounter : Obligations.DecCtrXorsTheEncryptedCounter := by
  intro s snap xport ivs iv body ha hk hin
  obtain ⟨t, ht, hends⟩ := exec_decIv_endsWith (i := .decCtr 0 xport ivs)
    (transform := fun bp key iv c => .ok (ctr bp key iv c)) nofun rfl rfl ha hk hin
  exact ⟨t, _, ht, hends, ctr_length _ _ _ _, fun _ => getD_ctr _ _ _ _⟩

end Sys2Proof.Machine

namespace Sys2Proof.Machine

/-! ## Command requests (47_multiplexer.md R205 to R208) -/

/-- Settles O19: a NOP has no effect, and that is all a request with OPC 0 runs. -/
theorem nopChangesNoState : Obligations.NopChangesNoState :=
  ⟨exec_nop, fun s _ _ hb ho ha => (hostWrite_nop hb (decode_of_opc_zero ho) ha).trans (exec_nop _ s)⟩

/-- While IDLE and FATAL every event but reset leaves the block so: a command request is ignored, a write to STATUS
keeps FATAL, and the engine has nothing to run (R208, 60_exceptions.md R259). -/
theorem handle_keeps_fatal {s t : State} {e : Event} (hb : s.busy = false) (hf : s.status.fatal = true)
    (he : e ≠ .reset) (h : s.handle e = .next t) : t.busy = false ∧ t.status.fatal = true := by
  cases e with
  | write n a v =>
    rcases hostWrite_change h with
      ⟨hbusy, -⟩ | ⟨-, hnf, -⟩ | ⟨-, rfl | ⟨-, -, rfl⟩ | ⟨ie, kl, vl, il, k, iv, m, rfl⟩⟩
    · rw [hb] at hbusy; cases hbusy
    · rw [hf] at hnf; cases hnf
    · exact ⟨hb, hf⟩
    · exact ⟨hb, hf⟩
    · exact ⟨hb, hf⟩
  | read n a => cases h; exact ⟨hb, hf⟩
  | engine =>
    rcases engineTurn_change h with rfl | ⟨hbusy, -⟩
    · exact ⟨hb, hf⟩
    · rw [hb] at hbusy; cases hbusy
  | reset => exact absurd rfl he

/-- Settles O20: a request while FATAL changes nothing, and every event but reset leaves the block FATAL and
IDLE. -/
theorem fatalIgnoresCommands : Obligations.FatalIgnoresCommands := by
  refine ⟨fun s w a hb hf _ ha => ?_, fun s t e hb hf he h => handle_keeps_fatal hb hf he h⟩
  rw [hostWrite_command hb ha, request_eq, if_pos (.inr hf)]

/-! ## Host accesses while a command runs (R205, R220, 20_memory.md R66, R68) -/

/-- The state with another OVR and another value on the read port: what a host access can change while BUSY. -/
def State.withShown (s : State) (ovr : Bool) (v : Word) : State :=
  { s with status := { s.status with ovr := ovr }, rdata := v }

theorem dropWrite_eq_withShown (s : State) : s.dropWrite = s.withShown true s.rdata := rfl

theorem withRdata_eq_withShown (s : State) (v : Word) : s.withRdata v = s.withShown s.status.ovr v := rfl

/-- While BUSY a host write is dropped and a host read shows a value; neither does more. -/
theorem handle_access_busy {s t : State} {e : Event} (hb : s.busy = true) (hr : e ≠ .reset) (he : e ≠ .engine)
    (h : s.handle e = .next t) : ∃ ovr v, t = s.withShown ovr v := by
  cases e with
  | write n a v =>
    rw [State.handle, hostWrite_busy hb] at h
    cases h
    exact ⟨true, s.rdata, dropWrite_eq_withShown s⟩
  | read n a => cases h; exact ⟨s.status.ovr, _, withRdata_eq_withShown s _⟩
  | engine => exact absurd rfl he
  | reset => exact absurd rfl hr

/-- As long as a command runs, nothing changes but OVR and the read port: the engine and reset would end it. -/
theorem handle_busy {s t : State} {e : Event} (hb : s.busy = true) (h : s.handle e = .next t) (ht : t.busy = true) :
    ∃ ovr v, t = s.withShown ovr v := by
  cases e with
  | write n a v => exact handle_access_busy (e := .write n a v) hb nofun nofun h
  | read n a => exact handle_access_busy (e := .read n a) hb nofun nofun h
  | engine =>
    rcases engineTurn_change h with rfl | ⟨-, d, r, rfl⟩
    · exact ⟨t.status.ovr, t.rdata, rfl⟩
    · rw [complete_busy] at ht; cases ht
  | reset => cases h; cases ht

theorem inByte_eq_getD_snapshot (s : State) {i : Nat} (hi : i < s.snapshot.data.length) :
    s.snapshot.data.getD i 0 = s.inByte i := by
  rw [List.getD_eq_getElem _ _ hi]
  exact readBytes_getElem _ _ _ _ hi

/-- Settles O18: the request is `State.accept`, whose fields its laws give, and while the command runs only OVR and the
read port change. -/
theorem acceptanceTakesTheSnapshotAndClearsTheResult : Obligations.AcceptanceTakesTheSnapshotAndClearsTheResult := by
  refine ⟨fun s w a hb hf ho ha => ?_, fun s t e hb h ht => ?_⟩
  · have haccept : s.hostWrite .four a w = .next (s.accept w) := by
      rw [hostWrite_command hb ha, request_eq, if_neg (by simp [ho, hf])]
    exact ⟨s.accept w, s.snapshot, haccept, rfl, rfl, rfl, rfl, rfl, rfl, readBytes_length _ _ _,
      fun i hi => inByte_eq_getD_snapshot s hi, rfl, rfl, fun _ _ => rfl, rfl, rfl, rfl, rfl, rfl, rfl, rfl, rfl, rfl,
      rfl, rfl, rfl, rfl, rfl⟩
  · obtain ⟨ovr, v, rfl⟩ := handle_busy hb h ht
    exact ⟨rfl, rfl, rfl, rfl, rfl, rfl, rfl⟩

/-- The engine step does not look at OVR and the read port, and leaves them alone. -/
theorem runCommand_withShown {s u : State} {drawn : Env → Snapshot → Bool}
    {result : Env → Snapshot → Except ErrCode Bytes} (h : s.runCommand drawn result = .next u) (ovr : Bool) (v : Word) :
    (s.withShown ovr v).runCommand drawn result = .next (u.withShown ovr v) := by
  rcases runCommand_cases h with ⟨hp, rfl⟩ | ⟨w, snap, hp, rfl⟩
  · exact runCommand_idle (s := u.withShown ovr v) hp _ _
  · rw [runCommand_busy (s := s.withShown ovr v) hp]
    show Host.Outcome.next (((s.withShown ovr v).takeDraw (drawn s.env snap)).complete (result s.env snap)) = _
    cases result s.env snap <;> rfl

theorem exec_withShown {i : Instr} {s u : State} (h : exec i s = .next u) (ovr : Bool) (v : Word) :
    exec i (s.withShown ovr v) = .next (u.withShown ovr v) := by
  by_cases hn : ∃ rest, i = .nop rest
  · obtain ⟨rest, rfl⟩ := hn
    cases h
    rfl
  · rw [exec_eq_runCommand fun rest e => hn ⟨rest, e⟩] at h ⊢
    exact runCommand_withShown h ovr v

theorem engineTurn_withShown {s u : State} (h : s.engineTurn = .next u) (ovr : Bool) (v : Word) :
    (s.withShown ovr v).engineTurn = .next (u.withShown ovr v) := by
  cases hp : s.phase with
  | idle =>
    rw [engineTurn_idle hp] at h
    cases h
    exact engineTurn_idle hp
  | busy w snap =>
    have hp' : (s.withShown ovr v).phase = .busy w snap := hp
    cases hd : decode w with
    | ok i =>
      rw [engineTurn_decoded hp hd] at h
      rw [engineTurn_decoded hp' hd]
      exact exec_withShown h ovr v
    | error r =>
      rw [engineTurn_rejected hp hd] at h
      rw [engineTurn_rejected hp' hd]
      exact runCommand_withShown h ovr v

/-- Settles O54: the access changes OVR and the read port alone, which the engine's turn carries along unread. -/
theorem latencyDoesNotChangeTheResult : Obligations.LatencyDoesNotChangeTheResult := by
  intro s t u e hb hr he h hu
  obtain ⟨ovr, v, rfl⟩ := handle_access_busy hb hr he h
  exact ⟨u.withShown ovr v, engineTurn_withShown hu ovr v, rfl⟩

end Sys2Proof.Machine

namespace Sys2Proof.Machine

/-! ## The checks of a command (47_multiplexer.md R209 to R218) -/

/-! ### What each check answers when it fails -/

section
variable {s : State} {snap : Snapshot}

theorem checkLength_of_long (hl : Config.maxLen < snap.inLen.toNat) :
    checkLength s.env snap = .error .illegalCommand :=
  if_pos hl

theorem construct_of_long (hl : Config.maxLen < snap.inLen.toNat) (alg : Nat) :
    construct s.env snap alg = .error .illegalCommand := by
  rw [construct, checkLength_of_long hl]
  rfl

theorem construct_of_alg (hf : snap.inLen.toNat ≤ Config.maxLen) {alg : Nat} (ha : alg ≠ 0) :
    construct s.env snap alg = .error .invalidArgument := by
  rw [construct, checkLength_ok hf, checkAlg, if_pos ha]
  rfl

theorem construct_of_keyLen (hf : snap.inLen.toNat ≤ Config.maxLen) (hk : snap.keyLen ≠ 16) :
    construct s.env snap 0 = .error .invalidKey := by
  rw [construct, checkLength_ok hf, checkKey, if_pos hk]
  rfl

/-- The construction of the cipher succeeds exactly when length, algorithm and key pass. -/
theorem construct_isOk_iff {alg : Nat} :
    (construct s.env snap alg).isOk = true ↔ snap.inLen.toNat ≤ Config.maxLen ∧ alg = 0 ∧ snap.keyLen = 16 := by
  by_cases hf : snap.inLen.toNat ≤ Config.maxLen
  · by_cases ha : alg = 0
    · subst ha
      by_cases hk : snap.keyLen = 16
      · rw [construct_ok hf hk]
        exact iff_of_true rfl ⟨hf, rfl, hk⟩
      · rw [construct_of_keyLen hf hk]
        exact iff_of_false nofun fun ⟨_, _, h⟩ => hk h
    · rw [construct_of_alg hf ha]
      exact iff_of_false nofun fun ⟨_, h, _⟩ => ha h
  · rw [construct_of_long (Nat.not_le.1 hf)]
    exact iff_of_false nofun fun ⟨h, _, _⟩ => hf h

theorem constructIv_of_construct_error {env : Env} {alg : Nat} {e : ErrCode} (h : construct env snap alg = .error e)
    (xport ivs : Bool) : constructIv env snap alg xport ivs = .error e := by
  rw [constructIv, h]
  rfl

/-- The check of the IV fails when one is supplied of another length than 16, or raw mode is given none. -/
theorem checkIv_error {xport ivs : Bool} (h : ivs = true ∧ snap.ivLen ≠ 16 ∨ xport = false ∧ ivs = false) :
    checkIv snap xport ivs = .error .invalidArgument := by
  rcases h with h | h
  · exact if_pos h
  · rw [checkIv, if_pos h, ite_self]

theorem constructIv_of_iv_error (hf : snap.inLen.toNat ≤ Config.maxLen) (hk : snap.keyLen = 16) {xport ivs : Bool}
    (h : ivs = true ∧ snap.ivLen ≠ 16 ∨ xport = false ∧ ivs = false) :
    constructIv s.env snap 0 xport ivs = .error .invalidArgument := by
  rw [constructIv, construct_ok hf hk, checkIv_error h]
  rfl

theorem requireBlocks_error {c : Bytes} (h : c.length = 0 ∨ c.length % 16 ≠ 0) : requireBlocks c = .error .crypto :=
  if_pos h

theorem ecbDec_of_ragged (bp : Primitive) (key : Block) {c : Bytes} (h : c.length = 0 ∨ c.length % 16 ≠ 0) :
    ecbDec bp key c = .error .crypto := by
  rw [ecbDec, requireBlocks_error h]
  rfl

theorem cbcDec_of_ragged (bp : Primitive) (key iv : Block) {c : Bytes} (h : c.length = 0 ∨ c.length % 16 ≠ 0) :
    cbcDec bp key iv c = .error .crypto := by
  rw [cbcDec, requireBlocks_error h]
  rfl

end

/-! ### A failed construction is the result of the command, and takes no draw -/

section
variable {env : Env} {snap : Snapshot} {alg : Nat} {xport ivs : Bool} {e : ErrCode}

theorem drawsIv_of_constructIv_error (h : constructIv env snap alg xport ivs = .error e) :
    drawsIv alg xport ivs env snap = false := by
  rw [drawsIv, h]
  exact Bool.and_false _

theorem encIvResult_of_constructIv_error (h : constructIv env snap alg xport ivs = .error e)
    (transform : Primitive → Block → Block → Bytes → Bytes) :
    encIvResult transform alg xport ivs env snap = .error e := by
  rw [encIvResult, h]
  rfl

theorem decIvResult_of_constructIv_error (h : constructIv env snap alg xport ivs = .error e)
    (transform : Primitive → Block → Block → Bytes → Except ErrCode Bytes) :
    decIvResult transform alg xport ivs env snap = .error e := by
  rw [decIvResult, h]
  rfl

/-- A form of an IV mode whose construction checks fail has their error as its result, and takes no draw. -/
theorem arm_of_constructIv_error {i : Instr} (hiv : isIvForm i = true) (hi : cipherFields i = some (alg, xport, ivs))
    (h : constructIv env snap alg xport ivs = .error e) :
    armDraw i env snap = false ∧ armResult i env snap = .error e := by
  cases i with
  | encCbc | encCfb | encOfb | encCtr =>
    cases hi
    exact ⟨drawsIv_of_constructIv_error h, encIvResult_of_constructIv_error h _⟩
  | decCbc | decCfb | decOfb | decCtr =>
    cases hi
    exact ⟨rfl, by rw [armResult, decIvResult_of_constructIv_error h]⟩
  | encEcb | decEcb | pad | unpad | nop => cases hiv

/-- An ENC or DEC whose length, algorithm or key does not pass has that error as its result, and takes no draw. -/
theorem arm_of_construct_error {i : Instr} (hi : cipherFields i = some (alg, xport, ivs))
    (h : construct env snap alg = .error e) :
    armDraw i env snap = false ∧ armResult i env snap = .error e := by
  by_cases hiv : isIvForm i = true
  · exact arm_of_constructIv_error hiv hi (constructIv_of_construct_error h xport ivs)
  · cases i with
    | encEcb =>
      cases hi
      exact ⟨rfl, by rw [armResult, encEcbResult, h]; rfl⟩
    | decEcb =>
      cases hi
      exact ⟨rfl, by rw [armResult, decEcbResult, h]; rfl⟩
    | encCbc | encCfb | encOfb | encCtr | decCbc | decCfb | decOfb | decCtr => exact absurd rfl hiv
    | pad | unpad | nop => cases hi

end

/-! ### The commands -/

/-- A completion with an error ends as `EndsErr` says, whatever was stored before: the output is cleared. -/
theorem completeErr_endsErr (s : State) (d : Bool) (e : ErrCode) : EndsErr s ((s.takeDraw d).completeErr e) d.toNat e :=
  ⟨⟨fun _ _ => rfl, rfl, rfl, rfl, rfl, rfl, rfl, rfl⟩, ⟨rfl, rfl⟩,
    ⟨rfl, rfl, rfl, rfl, rfl, rfl, rfl, fun _ => rfl, rfl, rfl, rfl, rfl⟩⟩

/-- An engine step whose result is an error, with no draw, ends in that error. -/
theorem runCommand_endsErr {s : State} {w : Word} {snap : Snapshot} (hp : s.phase = .busy w snap)
    {drawn : Env → Snapshot → Bool} {result : Env → Snapshot → Except ErrCode Bytes} {e : ErrCode}
    (h : drawn s.env snap = false ∧ result s.env snap = .error e) :
    ∃ t, s.runCommand drawn result = .next t ∧ EndsErr s t 0 e := by
  obtain ⟨hd, hr⟩ := h
  rw [runCommand_busy hp, hd, hr]
  exact ⟨_, rfl, completeErr_endsErr s false e⟩

theorem ne_nop_of_cipherFields {i : Instr} {f : Nat × Bool × Bool} (hi : cipherFields i = some f) (rest : Nat) :
    i ≠ .nop rest := by
  rintro rfl
  cases hi

/-- An accepted ENC or DEC whose result is an error, with no draw, ends in that error. -/
theorem exec_cipher_endsErr {i : Instr} {f : Nat × Bool × Bool} (hi : cipherFields i = some f) {s : State}
    {snap : Snapshot} (ha : Accepted s snap) {e : ErrCode}
    (h : armDraw i s.env snap = false ∧ armResult i s.env snap = .error e) :
    ∃ t, exec i s = .next t ∧ EndsErr s t 0 e := by
  obtain ⟨w, hp⟩ := ha.busy
  rw [exec_eq_runCommand (ne_nop_of_cipherFields hi)]
  exact runCommand_endsErr hp h

/-- Settles O24: the construction of the cipher stops at the algorithm, and after it at the key. -/
theorem algorithmIsCheckedBeforeKeyLength : Obligations.AlgorithmIsCheckedBeforeKeyLength := by
  intro i alg xport ivs s snap hi ha
  refine ⟨fun halg => ?_, fun halg hk => ?_⟩
  · exact exec_cipher_endsErr hi ha (arm_of_construct_error hi (construct_of_alg ha.fits halg))
  · subst halg
    exact exec_cipher_endsErr hi ha (arm_of_construct_error hi (construct_of_keyLen ha.fits hk))

/-- Settles O25: with algorithm and key passed, the construction of an IV mode stops at the IV. -/
theorem ivModesCheckTheSuppliedIv : Obligations.IvModesCheckTheSuppliedIv := by
  intro i xport ivs s snap hiv hi ha hk h
  exact exec_cipher_endsErr hi ha (arm_of_constructIv_error hiv hi (constructIv_of_iv_error ha.fits hk h))

/-- Settles O26: both block decryptions ask for whole blocks of their ciphertext first. -/
theorem blockDecryptionsRequireWholeBlocks : Obligations.BlockDecryptionsRequireWholeBlocks := by
  intro s snap xport ivs ha hk
  refine ⟨fun hragged => ?_, fun iv body hin hragged => ?_⟩
  · have h := exec_decEcb_endsWith ha hk xport ivs
    rwa [ecbDec_of_ragged _ _ hragged] at h
  · have h := exec_decIv_endsWith (i := .decCbc 0 xport ivs) nofun rfl rfl ha hk hin
    rwa [cbcDec_of_ragged _ _ _ hragged] at h

/-- Every form but NOP checks the length first; the ignored fields of PAD and UNPAD do not matter. -/
theorem arm_of_long {i : Instr} (hn : ∀ rest, i ≠ .nop rest) {s : State} {snap : Snapshot}
    (hl : Config.maxLen < snap.inLen.toNat) :
    armDraw i s.env snap = false ∧ armResult i s.env snap = .error .illegalCommand := by
  cases i with
  | pad => exact ⟨rfl, by rw [armResult, padResult, checkLength_of_long hl]; rfl⟩
  | unpad => exact ⟨rfl, by rw [armResult, unpadResult, checkLength_of_long hl]; rfl⟩
  | nop rest => exact absurd rfl (hn rest)
  | encEcb | decEcb | encCbc | decCbc | encCfb | decCfb | encOfb | decOfb | encCtr | decCtr =>
    exact arm_of_construct_error rfl (construct_of_long hl _)

/-- A rejected word gives IllegalCommand for a long input too, in an unsupported mode by the check of the length. -/
theorem rejectedResult_of_long (r : Reject) {s : State} {snap : Snapshot} (hl : Config.maxLen < snap.inLen.toNat) :
    rejectedResult r s.env snap = .error .illegalCommand := by
  cases r with
  | reservedBits => rfl
  | reservedOpcode => rfl
  | unsupportedMode =>
    rw [rejectedResult, checkLength_of_long hl]
    rfl

/-- Settles O23: every form but NOP checks the length first, and so does a rejected word unless its error is the
same. -/
theorem longInputIsIllegal : Obligations.LongInputIsIllegal := by
  intro s w snap hp hl
  have hexec : ∀ i : Instr, (∀ rest, i ≠ .nop rest) → ∃ t, exec i s = .next t ∧ EndsErr s t 0 .illegalCommand := by
    intro i hn
    rw [exec_eq_runCommand hn]
    exact runCommand_endsErr hp (arm_of_long hn hl)
  refine ⟨fun ho => ?_, hexec⟩
  cases hd : decode w with
  | ok i =>
    rw [engineTurn_decoded hp hd]
    exact hexec i fun rest he => ho (decode_nop (he ▸ hd))
  | error r =>
    rw [engineTurn_rejected hp hd]
    exact runCommand_endsErr hp ⟨rfl, rejectedResult_of_long r hl⟩

end Sys2Proof.Machine

namespace Sys2Proof.Machine

/-! ## The engine's turn is `Exec` (47_multiplexer.md R209, R220, 48_iv_transport.md R236) -/

/-! ### The draw -/

/-- An encryption draws in transport mode with no IV supplied, where the check of the IV passes; so what must pass is
length, algorithm and key (R236). -/
theorem drawsIv_iff {s : State} {snap : Snapshot} {alg : Nat} {xport ivs : Bool} :
    drawsIv alg xport ivs s.env snap = true ↔
      xport = true ∧ ivs = false ∧ snap.inLen.toNat ≤ Config.maxLen ∧ alg = 0 ∧ snap.keyLen = 16 := by
  have hiv : (constructIv s.env snap alg true false).isOk = (construct s.env snap alg).isOk := by
    rw [constructIv]
    cases construct s.env snap alg <;> rfl
  rw [← construct_isOk_iff (s := s)]
  cases xport <;> cases ivs <;> simp [drawsIv, hiv]

/-- A form draws exactly when its word asks for a draw: it is an encryption of an IV mode. -/
theorem armDraw_iff {w : Word} {i : Instr} (hd : decode w = .ok i) {s : State} {snap : Snapshot} :
    armDraw i s.env snap = true ↔ AsksForDraw w snap := by
  rcases decode_ok_cases w i hd with ⟨ho, rfl⟩ | ⟨hr, hform⟩
  · simp [armDraw, noDraw, AsksForDraw, ho]
  · rcases hform with ⟨ho, hm, rfl⟩ | ⟨ho, hm, rfl⟩ | ⟨ho, hm, rfl⟩ | ⟨ho, hm, rfl⟩ | ⟨ho, hm, rfl⟩ | ⟨ho, hm, rfl⟩ |
      ⟨ho, hm, rfl⟩ | ⟨ho, hm, rfl⟩ | ⟨ho, hm, rfl⟩ | ⟨ho, hm, rfl⟩ | ⟨ho, rfl⟩ | ⟨ho, rfl⟩
    iterate 5 simp [armDraw, noDraw, drawsIv_iff, AsksForDraw, hr, ho, hm]
    iterate 7 simp [armDraw, noDraw, AsksForDraw, ho]

/-- A word of no row never asks for a draw. -/
theorem not_asksForDraw_of_rejected {w : Word} {r : Reject} (hd : decode w = .error r) (snap : Snapshot) :
    ¬ AsksForDraw w snap := by
  rintro ⟨hr, ho, -, hm, -⟩
  obtain ⟨-, ⟨hr', -⟩ | ⟨-, ho', -⟩ | ⟨-, -, hm', -⟩⟩ := decode_error_cases w r hd
  · rw [hr] at hr'; cases hr'
  · omega
  · omega

/-! ### The completion -/

/-- The engine's turn on an accepted word completes with `Exec` of the word, and takes a draw exactly when the word asks
for one. -/
theorem engineTurn_completes {s : State} {w : Word} {snap : Snapshot} (hp : s.phase = .busy w snap)
    (ho : fieldOpc w ≠ 0) :
    ∃ d : Bool, (d = true ↔ AsksForDraw w snap) ∧
      s.engineTurn = .next ((s.takeDraw d).complete (muxExec s.env w snap)) := by
  cases hd : decode w with
  | ok i =>
    refine ⟨armDraw i s.env snap, armDraw_iff hd, ?_⟩
    rw [engineTurn_decoded hp hd, exec_eq_runCommand fun rest he => ho (decode_nop (he ▸ hd)), runCommand_busy hp,
      armResult_eq_muxExec w i hd ho]
  | error r =>
    refine ⟨false, iff_of_false nofun (not_asksForDraw_of_rejected hd snap), ?_⟩
    rw [engineTurn_rejected hp hd, ← rejectedResult_eq_muxExec w r hd]
    exact runCommand_busy hp _ _

/-- Settles O21: the completion is that of `Exec`, whose output fits OUT_BUF because the snapshot is no longer than
IN_BUF. -/
theorem engineCompletesWithExec : Obligations.EngineCompletesWithExec := by
  intro s w snap hi hp
  obtain ⟨ho, -, hsnap⟩ := hi.pending w snap hp
  obtain ⟨d, hd, ht⟩ := engineTurn_completes hp ho
  have hlen : snap.data.length ≤ Config.maxLen := hsnap ▸ snapshot_length_le
  have hends := complete_endsWith hi (busy_of_phase hp) d _ fun out => muxExec_length_le s.env w snap out hlen
  refine ⟨_, d.toNat, ht, hends, ?_⟩
  cases d with
  | true => exact .inl ⟨rfl, hd.1 rfl⟩
  | false => exact .inr ⟨rfl, fun h => Bool.false_ne_true (hd.2 h)⟩

/-! ### Words of no row -/

theorem muxExec_of_illegal (env : Env) {w : Word} (h : reservedBitSet w = true ∨ 5 ≤ fieldOpc w) (snap : Snapshot) :
    muxExec env w snap = .error .illegalCommand :=
  if_pos h

/-- An ENC or DEC with no reserved bit set passes the first check of `Exec`. -/
theorem not_illegal {w : Word} (hr : reservedBitSet w = false) (ho : fieldOpc w = 1 ∨ fieldOpc w = 2) :
    ¬ (reservedBitSet w = true ∨ 5 ≤ fieldOpc w) := by
  rintro (h | h)
  · rw [hr] at h; cases h
  · omega

theorem modeOf_eq_none {mode : Nat} (h : 5 ≤ mode) : modeOf mode = none := by
  obtain ⟨k, rfl⟩ := Nat.exists_eq_add_of_le' h
  rfl

/-- An ENC or DEC of an unsupported mode gives InvalidArgument, by the algorithm or by the mode. -/
theorem muxExec_of_unsupportedMode {env : Env} {w : Word} {snap : Snapshot} (hr : reservedBitSet w = false)
    (ho : fieldOpc w = 1 ∨ fieldOpc w = 2) (hm : 5 ≤ fieldMode w) (hl : snap.inLen.toNat ≤ env.maxLen) :
    muxExec env w snap = .error .invalidArgument := by
  rw [muxExec, if_neg (not_illegal hr ho), if_neg (Nat.not_lt.2 hl), if_neg (by omega), if_neg (by omega),
    modeOf_eq_none hm, ite_self]

/-- The engine's turn on a word that asks for no draw and whose `Exec` is an error. -/
theorem engineTurn_endsErr {s : State} {w : Word} {snap : Snapshot} (hi : s.Inv) (hp : s.phase = .busy w snap)
    {e : ErrCode} (hn : ¬ AsksForDraw w snap) (he : muxExec s.env w snap = .error e) :
    ∃ t, s.engineTurn = .next t ∧ EndsErr s t 0 e := by
  obtain ⟨t, draws, ht, hends, ⟨-, hask⟩ | ⟨rfl, -⟩⟩ := engineCompletesWithExec s w snap hi hp
  · exact absurd hask hn
  · rw [he] at hends
    exact ⟨t, ht, hends⟩

/-- Settles O22: `Exec` of such a word is the error, and none of them asks for a draw. -/
theorem unlistedWordsCompleteWithTheirError : Obligations.UnlistedWordsCompleteWithTheirError := by
  intro s w snap hi hp
  refine ⟨fun h => ?_, fun hr ho hm hl => ?_⟩
  · refine engineTurn_endsErr hi hp ?_ (muxExec_of_illegal s.env h snap)
    rintro ⟨hr, ho, -⟩
    rw [hr, ho] at h
    exact absurd h (by decide)
  · have hn : ¬ AsksForDraw w snap := fun ⟨_, _, _, hm', _⟩ => by omega
    obtain ⟨t, ht, hends⟩ := engineTurn_endsErr hi hp hn (muxExec_of_unsupportedMode hr ho hm hl)
    obtain ⟨-, hlast, -⟩ := hi.pending w snap hp
    exact ⟨t, ht, hends, hends.frame.lastCmd.trans hlast⟩

/-! ### What a result depends on (R221) -/

/-- Two completions left the same stored output and the same flags but OVR. -/
structure SameResult (t t' : State) : Prop where
  outBuf : t.outBuf = t'.outBuf
  outLen : t.outLen = t'.outLen
  done : t.status.done = t'.status.done
  err : t.status.err = t'.status.err
  errCode : t.status.errCode = t'.status.errCode
  fatal : t.status.fatal = t'.status.fatal

/-- No command runs while FATAL (60_exceptions.md R259). -/
theorem State.Inv.not_fatal_of_busy {s : State} (hi : s.Inv) (hb : s.busy = true) : s.status.fatal = false := by
  by_contra hf
  rw [hi.fatal_idle (by simpa using hf)] at hb
  cases hb

/-- In two safe BUSY states nothing is stored and FATAL is not set, so the same result completes both alike. -/
theorem complete_sameResult {s s' : State} (hi : s.Inv) (hi' : s'.Inv) (hb : s.busy = true) (hb' : s'.busy = true)
    (d d' : Bool) (r : Except ErrCode Bytes) :
    SameResult ((s.takeDraw d).complete r) ((s'.takeDraw d').complete r) := by
  obtain ⟨hz, -⟩ := hi.busy_clear hb
  obtain ⟨hz', -⟩ := hi'.busy_clear hb'
  have hf : s.status.fatal = s'.status.fatal :=
    (hi.not_fatal_of_busy hb).trans (hi'.not_fatal_of_busy hb').symm
  cases r with
  | ok out => constructor <;> simp [hz, hz', hf]
  | error e => constructor <;> simp [hf]

theorem complete_ovr (s : State) (r : Except ErrCode Bytes) : (s.complete r).status.ovr = s.status.ovr := by
  cases r <;> rfl

/-- Settles O53: both turns complete with the same `Exec`, for the environments differ in no answer that it can see. -/
theorem resultDependsOnlyOnTheSnapshot : Obligations.ResultDependsOnlyOnTheSnapshot := by
  intro s s' t t' w snap hi hi' hp hp' hrng ht ht'
  obtain ⟨ho, -⟩ := hi.pending w snap hp
  obtain ⟨d, -, hd⟩ := engineTurn_completes hp ho
  obtain ⟨d', -, hd'⟩ := engineTurn_completes hp' ho
  have henv : s'.env = s.env := congrArg Config.env hrng.symm
  rw [henv] at hd'
  cases ht.symm.trans hd
  cases ht'.symm.trans hd'
  obtain ⟨hbuf, hlen, hdone, herr, hcode, hfatal⟩ :=
    complete_sameResult hi hi' (busy_of_phase hp) (busy_of_phase hp') d d' (muxExec s.env w snap)
  refine ⟨hbuf, hlen, hdone, herr, hcode, hfatal, complete_phase _ _, complete_phase _ _, fun hovr => ?_⟩
  rw [statusWord, statusWord, hdone, herr, hcode, hfatal, complete_busy, complete_busy, complete_ovr, complete_ovr,
    takeDraw_status, takeDraw_status, hovr]

end Sys2Proof.Machine

namespace Sys2Proof.Machine

/-! ## Decrypting an encryption, at the level of commands (property E6; 47_multiplexer.md R209, 48_iv_transport.md R238
to R241) -/

/-- Every check of R209 passes on an ENC or DEC word whose mode is `m`. -/
structure ChecksPass (env : Env) (w : Word) (snap : Snapshot) (m : Mode) : Prop where
  unreserved : reservedBitSet w = false
  fits : snap.inLen.toNat ≤ env.maxLen
  alg : fieldAlg w = 0
  mode : modeOf (fieldMode w) = some m
  keyLen : snap.keyLen = 16
  ivLen : m ≠ .ecb → fieldIvs w = true → snap.ivLen = 16
  ivSource : m ≠ .ecb → fieldXport w = true ∨ fieldIvs w = true

/-- What the transform of mode `m` works on. ECB takes no IV, and ignores the one given here. -/
def modePlan (m : Mode) (dir : Dir) (w : Word) (snap : Snapshot) (rng : Option Block) : Except ErrCode IvPlan :=
  if m = .ecb then .ok { iv := zeroBlock, body := snap.data, header := [] }
  else prepareIv dir (fieldXport w) (fieldIvs w) snap rng

/-- A check that lets an output through passed. -/
theorem ite_error_eq_ok_iff {ε α : Type} {c : Prop} [Decidable c] {e : ε} {x : Except ε α} {a : α} :
    (if c then .error e else x) = .ok a ↔ ¬ c ∧ x = .ok a := by
  by_cases hc : c <;> simp [hc]

/-- An ENC or DEC that gives an output passed every check. -/
theorem checksPass_of_muxExec_ok {env : Env} {w : Word} {snap : Snapshot} {out : Bytes}
    (ho : fieldOpc w = 1 ∨ fieldOpc w = 2) (h : muxExec env w snap = .ok out) : ∃ m, ChecksPass env w snap m := by
  obtain ⟨hr, h⟩ := ite_error_eq_ok_iff.1 h
  obtain ⟨hl, h⟩ := ite_error_eq_ok_iff.1 h
  rw [if_neg (by omega), if_neg (by omega)] at h
  obtain ⟨ha, h⟩ := ite_error_eq_ok_iff.1 h
  cases hm : modeOf (fieldMode w) with
  | none => simp [hm] at h
  | some m =>
    simp only [hm] at h
    obtain ⟨hk, h⟩ := ite_error_eq_ok_iff.1 h
    have hiv : m ≠ .ecb →
        ¬ (fieldIvs w = true ∧ snap.ivLen ≠ 16) ∧ ¬ (fieldXport w = false ∧ fieldIvs w = false) := by
      intro hne
      rw [if_neg hne] at h
      obtain ⟨hlen, h⟩ := ite_error_eq_ok_iff.1 h
      obtain ⟨hsource, -⟩ := ite_error_eq_ok_iff.1 h
      exact ⟨hlen, hsource⟩
    refine ⟨m, ?_, Nat.not_lt.1 hl, not_not.1 ha, hm, not_not.1 hk, fun hne hivs => ?_, fun hne => ?_⟩
    · exact Bool.eq_false_iff.2 fun h => hr (.inl h)
    · exact not_not.1 fun hlen => (hiv hne).1 ⟨hivs, hlen⟩
    · simpa [imp_iff_or_not, or_comm] using (hiv hne).2

/-- Past the checks an ENC or DEC is the transform of its mode, applied to its plan. -/
theorem muxExec_of_checksPass {env : Env} {w : Word} {snap : Snapshot} {m : Mode} (hc : ChecksPass env w snap m)
    (ho : fieldOpc w = 1 ∨ fieldOpc w = 2) :
    muxExec env w snap =
      if fieldOpc w = 1 then
        (modePlan m .enc w snap env.rng).map fun plan =>
          plan.header ++ modeEnc m env.bp snap.key plan.iv plan.body
      else (modePlan m .dec w snap env.rng).bind fun plan => modeDec m env.bp snap.key plan.iv plan.body := by
  obtain ⟨hr, hl, ha, hm, hk, hlen, hsource⟩ := hc
  rw [muxExec, if_neg (not_illegal hr ho), if_neg (Nat.not_lt.2 hl), if_neg (by omega), if_neg (by omega),
    if_neg (not_not.2 ha)]
  simp only [hm]
  rw [if_neg (not_not.2 hk)]
  by_cases he : m = .ecb
  · subst he
    rfl
  · have hiv : ¬ (fieldIvs w = true ∧ snap.ivLen ≠ 16) := fun ⟨hivs, hne⟩ => hne (hlen he hivs)
    have hsrc : ¬ (fieldXport w = false ∧ fieldIvs w = false) := by simpa [imp_iff_or_not, or_comm] using hsource he
    rw [if_neg he, if_neg hiv, if_neg hsrc, modePlan, modePlan, if_neg he, if_neg he]
    congr 1
    · cases prepareIv .enc (fieldXport w) (fieldIvs w) snap env.rng <;> rfl
    · cases prepareIv .dec (fieldXport w) (fieldIvs w) snap env.rng <;> rfl

/-- How the words of an encryption and of the decryption that undoes it take the IV: raw, the decryption from the
register, or in transport mode, the decryption from its input. -/
def IvAgrees (w w' : Word) : Prop :=
  fieldXport w = false ∧ fieldXport w' = false ∧ fieldIvs w' = true ∨
    fieldXport w = true ∧ fieldXport w' = true ∧ fieldIvs w' = false

/-- In transport mode an encryption puts the IV it works with before its output, the register's or the drawn one
(R238). -/
theorem transportPrepare_enc_ok {ivs : Bool} {snap : Snapshot} {rng : Option Block} {plan : IvPlan}
    (h : transportPrepare .enc ivs snap rng = .ok plan) : plan.body = snap.data ∧ plan.header = blockBytes plan.iv := by
  cases ivs with
  | true => cases h; exact ⟨rfl, rfl⟩
  | false =>
    cases rng with
    | none => cases h
    | some iv => cases h; exact ⟨rfl, rfl⟩

/-- A transport decryption reads the IV from the first 16 bytes of its input, and its body is the rest (R241). -/
theorem transportPrepare_dec_of_header {snap : Snapshot} {iv : Block} {c : Bytes} (h : snap.data = blockBytes iv ++ c)
    (rng : Option Block) : transportPrepare .dec false snap rng = .ok { iv := iv, body := c, header := [] } := by
  have hlen : ¬ snap.data.length < 16 := by simp [h]
  have htake : snap.data.take 16 = blockBytes iv := h ▸ List.take_left' (blockBytes_length iv)
  have hdrop : snap.data.drop 16 = c := h ▸ List.drop_left' (blockBytes_length iv)
  rw [transportPrepare, if_neg hlen, htake, hdrop, blockOf_blockBytes]

/-- The decryption of an encryption's output works on the IV and the ciphertext of the encryption, which worked on its
whole input. -/
theorem modePlan_dec_of_enc {m : Mode} {w w' : Word} {snap : Snapshot} {rng : Option Block} {plan : IvPlan}
    (hw : IvAgrees w w') (h : modePlan m .enc w snap rng = .ok plan) :
    plan.body = snap.data ∧ ∀ (c : Bytes) (len : BitVec 16) (rng' : Option Block),
      modePlan m .dec w' { snap with data := plan.header ++ c, inLen := len } rng' =
        .ok { iv := plan.iv, body := c, header := [] } := by
  by_cases he : m = .ecb
  · subst he
    cases h
    exact ⟨rfl, fun _ _ _ => rfl⟩
  · simp only [modePlan, if_neg he, prepareIv] at h ⊢
    rcases hw with ⟨hx, hx', -⟩ | ⟨hx, hx', hivs'⟩
    · rw [hx] at h
      cases h
      exact ⟨rfl, fun _ _ _ => by rw [hx']; rfl⟩
    · rw [hx, if_pos rfl] at h
      obtain ⟨hbody, hheader⟩ := transportPrepare_enc_ok h
      refine ⟨hbody, fun c len rng' => ?_⟩
      rw [hx', if_pos rfl, hivs', hheader]
      exact transportPrepare_dec_of_header rfl rng'

/-- A decryption of the mode of an encryption that passed its checks passes them on the output. -/
theorem checksPass_dec_of_enc {env env' : Env} {w w' : Word} {snap : Snapshot} {m : Mode} (hc : ChecksPass env w snap m)
    (hmax : env'.maxLen = env.maxLen) (hr : reservedBitSet w' = false) (hmode : fieldMode w' = fieldMode w)
    (halg : fieldAlg w' = fieldAlg w) (hw : IvAgrees w w') {out : Bytes} (hfits : out.length ≤ env.maxLen)
    (hlen : out.length < 2 ^ 16) :
    ChecksPass env' w' { snap with data := out, inLen := BitVec.ofNat 16 out.length } m where
  unreserved := hr
  fits := by
    rw [hmax, BitVec.toNat_ofNat, Nat.mod_eq_of_lt hlen]
    exact hfits
  alg := halg.trans hc.alg
  mode := hmode ▸ hc.mode
  keyLen := hc.keyLen
  ivLen hne hivs' := by
    rcases hw with ⟨hx, -⟩ | ⟨-, -, hn⟩
    · exact hc.ivLen hne ((hc.ivSource hne).resolve_left (by simp [hx]))
    · rw [hn] at hivs'; cases hivs'
  ivSource _ := hw.symm.imp (fun ⟨_, hx', _⟩ => hx') fun ⟨_, _, hivs'⟩ => hivs'

/-- Settles O46: the decryption passes the same checks and works on the IV and ciphertext of the encryption, which the
mode's own round trip takes back to the input. -/
theorem decryptingAnEncryptionGivesTheInputBack : Obligations.DecryptingAnEncryptionGivesTheInputBack := by
  intro env env' w w' snap out hbp hbp' hmax ho ho' hr' hmode halg hw h hfits hlen
  obtain ⟨m, hc⟩ := checksPass_of_muxExec_ok (.inl ho) h
  have hc' := checksPass_dec_of_enc hc hmax hr' hmode halg hw hfits hlen
  rw [muxExec_of_checksPass hc (.inl ho), if_pos ho] at h
  rw [muxExec_of_checksPass hc' (.inr ho'), if_neg (by omega), hbp']
  cases hplan : modePlan m .enc w snap env.rng with
  | error e => rw [hplan] at h; cases h
  | ok plan =>
    rw [hplan] at h
    cases h
    obtain ⟨hbody, hdec⟩ := modePlan_dec_of_enc hw hplan
    rw [hdec, hbody]
    exact everyModeRoundTrips m env.bp snap.key plan.iv snap.data hbp

end Sys2Proof.Machine

namespace Sys2Proof.Machine

/-! ## A write to STATUS (60_exceptions.md R258) -/

@[simp] theorem written_err (f : Status) (v : Word) : (f.written v).err = if v.getLsbD 1 then false else f.err := rfl
@[simp] theorem written_errCode (f : Status) (v : Word) :
    (f.written v).errCode = if v.getLsbD 1 then 0 else f.errCode := rfl

/-- Writing 0 to STATUS clears no flag. -/
@[simp] theorem written_zero (f : Status) : f.written 0 = f := rfl

/-- A 32-bit write while IDLE that rounds down to STATUS does to its flags what `WriteStatus` says. -/
theorem hostWrite_status {s : State} (hb : s.busy = false) {a : Offset} (hlo : 4 ≤ a.toNat) (hhi : a.toNat < 8)
    (v : Word) : s.hostWrite .four a v = .next { s with status := s.status.written v } :=
  hostWrite_reg hb (r := .status) (by decide) hlo hhi v

/-- Settles O12: `WriteStatus` flag by flag while IDLE, and the rules of narrow and of dropped writes. -/
theorem statusWriteClearsWhatItsBitsSay : Obligations.StatusWriteClearsWhatItsBitsSay := by
  intro s a v hlo hhi
  refine ⟨fun hb => ⟨s.status.written v, hostWrite_status hb hlo hhi v, fun h1 => ?_, fun h1 => ?_, fun h3 => ?_,
    fun h3 => ?_, written_fatal _ _⟩, fun hb => ?_, fun n hb hn => ?_, fun n hb => ?_⟩
  · simp only [written_done, written_err, written_errCode, h1, if_true, and_self]
  · simp only [written_done, written_err, written_errCode, h1, Bool.false_eq_true, if_false, and_self]
  · rw [written_ovr, h3, if_pos rfl]
  · rw [written_ovr, h3, if_neg Bool.false_ne_true]
  · rw [hostWrite_status hb hlo hhi, written_zero]
  · exact narrowControlWritesAreIgnored s n a v hb hn (by omega)
  · exact busyWritesAreDroppedWithOvr s n a v hb

end Sys2Proof.Machine

namespace Sys2Proof.Machine

/-! ## The IV of transport mode (48_iv_transport.md R236, R237, R241) -/

section
variable {s : State} {snap : Snapshot}

/-- In transport mode with no IV supplied the construction checks ask for nothing but length, algorithm and key. -/
theorem constructIv_of_transport (ha : Accepted s snap) (hk : snap.keyLen = 16) :
    constructIv s.env snap 0 true false = .ok snap.key :=
  constructIv_ok ha.fits hk (.inr ⟨rfl, rfl⟩)

/-- Fewer than 16 bytes hold no IV (R241). -/
theorem prepareIv_of_short (hshort : snap.data.length < 16) (rng : Option Block) :
    prepareIv .dec true false snap rng = .error .fileError :=
  if_pos hshort

theorem decIvResult_of_short (transform : Primitive → Block → Block → Bytes → Except ErrCode Bytes)
    (ha : Accepted s snap) (hk : snap.keyLen = 16) (hshort : snap.data.length < 16) :
    decIvResult transform 0 true false s.env snap = .error .fileError := by
  rw [decIvResult, constructIv_of_transport ha hk, prepareIv_of_short hshort]
  rfl

/-- Whichever mode `m` it is of, a transport decryption that reads its IV from the input ends in FileError when the input
is too short for it. -/
theorem exec_decIv_fileError (m : Mode) {i : Instr} (hi : cipherFields i = some (0, true, false))
    (hdraw : armDraw i = noDraw) (hresult : armResult i = decIvResult (modeDec m) 0 true false)
    (ha : Accepted s snap) (hk : snap.keyLen = 16) (hshort : snap.data.length < 16) :
    ∃ t, exec i s = .next t ∧ EndsErr s t 0 .fileError :=
  exec_cipher_endsErr hi ha ⟨by rw [hdraw, noDraw], by rw [hresult, decIvResult_of_short _ ha hk hshort]⟩

/-- With the checks passed the draw is taken, whatever it answers (R236). -/
theorem drawsIv_of_transport (ha : Accepted s snap) (hk : snap.keyLen = 16) :
    drawsIv 0 true false s.env snap = true := by
  rw [drawsIv, constructIv_of_transport ha hk]
  rfl

theorem encIvResult_of_failed_draw (transform : Primitive → Block → Block → Bytes → Bytes) (ha : Accepted s snap)
    (hk : snap.keyLen = 16) (hfail : s.rngAnswer = none) :
    encIvResult transform 0 true false s.env snap = .error .entropyFailure := by
  have hplan : prepareIv .enc true false snap s.env.rng = .error .entropyFailure := by
    rw [State.env, env_rng, hfail]
    rfl
  rw [encIvResult, constructIv_of_transport ha hk, hplan]
  rfl

/-- Whichever mode `m` it is of, a transport encryption that draws its IV takes the one draw and ends in EntropyFailure,
which sets FATAL, when the draw fails. -/
theorem exec_encIv_entropyFailure (m : Mode) {i : Instr} (hn : ∀ rest, i ≠ .nop rest)
    (hdraw : armDraw i = drawsIv 0 true false)
    (hresult : armResult i = encIvResult (modeEnc m) 0 true false) (ha : Accepted s snap) (hk : snap.keyLen = 16)
    (hfail : s.rngAnswer = none) :
    ∃ t, exec i s = .next t ∧ EndsErr s t 1 .entropyFailure ∧ t.status.fatal = true := by
  obtain ⟨t, ht, hend⟩ := exec_endsWith_armResult ha hn
  rw [hdraw, hresult, drawsIv_of_transport ha hk, encIvResult_of_failed_draw _ ha hk hfail] at hend
  have hend : EndsErr s t 1 .entropyFailure := hend
  exact ⟨t, ht, hend, hend.completed.fatal.trans (Bool.or_true _)⟩

end

/-- Settles O27, mode by mode: the IV is read before the mode's own transform sees the input. -/
theorem shortInputHoldsNoIv : Obligations.ShortInputHoldsNoIv := fun _ _ ha hk hshort =>
  ⟨exec_decIv_fileError .cbc rfl rfl rfl ha hk hshort, exec_decIv_fileError .cfb rfl rfl rfl ha hk hshort,
    exec_decIv_fileError .ofb rfl rfl rfl ha hk hshort, exec_decIv_fileError .ctr rfl rfl rfl ha hk hshort⟩

/-- Settles O28, mode by mode: the draw comes before the mode's own transform. -/
theorem failedDrawIsFatal : Obligations.FailedDrawIsFatal := fun _ _ ha hk hfail =>
  ⟨exec_encIv_entropyFailure .cbc nofun rfl rfl ha hk hfail, exec_encIv_entropyFailure .cfb nofun rfl rfl ha hk hfail,
    exec_encIv_entropyFailure .ofb nofun rfl rfl ha hk hfail, exec_encIv_entropyFailure .ctr nofun rfl rfl ha hk hfail⟩

end Sys2Proof.Machine

namespace Sys2Proof.Machine

/-! ## The end of a schedule (70_reset_and_hazards.md R288) -/

/-- The engine does not touch the events to come. -/
theorem engineTurn_schedule {s t : State} (h : s.engineTurn = .next t) : t.schedule = s.schedule := by
  rcases engineTurn_change h with rfl | ⟨-, d, r, rfl⟩
  · rfl
  · exact complete_schedule _ r

/-- No host write touches the events to come. -/
theorem hostWrite_schedule {s t : State} {n : Width} {a : Offset} {v : Word} (h : s.hostWrite n a v = .next t) :
    t.schedule = s.schedule := by
  rcases hostWrite_change h with ⟨-, rfl⟩ | ⟨-, -, -, rfl⟩ | ⟨-, rfl | ⟨-, -, rfl⟩ | ⟨ie, kl, vl, il, k, iv, m, rfl⟩⟩
  · rfl
  · rfl
  · rfl
  · rfl
  · rfl

/-- A step takes the first event off the schedule and adds none (20_memory.md R72). -/
theorem step_schedule {s t : State} (h : step s = .next t) : t.schedule = s.schedule.tail := by
  rcases step_cases h with ⟨hs, he⟩ | ⟨e, es, hs, ⟨-, he⟩ | ⟨-, rfl⟩ | ⟨n, a, -, rfl⟩ | ⟨n, a, v, -, hw⟩⟩
  · rw [engineTurn_schedule he, hs, List.tail_nil]
  · rw [engineTurn_schedule he, hs, withSchedule_schedule, List.tail_cons]
  · rw [hs, hardReset_schedule, withSchedule_schedule, List.tail_cons]
  · rw [hs, withRdata_schedule, withSchedule_schedule, List.tail_cons]
  · rw [hostWrite_schedule hw, hs, withSchedule_schedule, List.tail_cons]

/-- In a safe state the engine's turn leaves the block IDLE: the pending word is no NOP, so the turn completes it. -/
theorem engineTurn_idle_of_inv {s t : State} (hi : s.Inv) (h : s.engineTurn = .next t) : t.phase = .idle := by
  rcases engineTurn_cases h with ⟨hp, rfl⟩ | ⟨w, snap, hp, hnop, -⟩ | ⟨w, snap, i, -, -, -, rfl⟩ |
    ⟨w, snap, r, -, -, -, rfl⟩
  · exact hp
  · obtain ⟨hne, -, -⟩ := hi.pending w snap hp
    exact absurd hnop hne
  · exact complete_phase _ _
  · exact complete_phase _ _

theorem runSteps_succ {s t : State} (h : step s = .next t) (n : Nat) : runSteps (n + 1) s = runSteps n t := by
  rw [runSteps, h]

/-- Settles O55, by induction on the schedule: every event leaves a safe state with the rest of it, and the engine's
turn that comes last leaves the block IDLE. -/
theorem everyScheduleEndsIdle : Obligations.EveryScheduleEndsIdle := by
  intro s hi
  induction hs : s.schedule generalizing s with
  | nil =>
    obtain ⟨t, ht⟩ := everyStepAnswersANextState s
    refine ⟨t, runSteps_succ ht 0, engineTurn_idle_of_inv hi (step_nil hs ▸ ht), ?_⟩
    rw [step_schedule ht, hs, List.tail_nil]
  | cons e es ih =>
    obtain ⟨t, ht⟩ := everyStepAnswersANextState s
    have htail : t.schedule = es := by rw [step_schedule ht, hs, List.tail_cons]
    obtain ⟨u, hrun, hidle, hempty⟩ := ih t (everyStepKeepsTheInvariant s t hi ht) htail
    exact ⟨u, (runSteps_succ ht _).trans hrun, hidle, hempty⟩

end Sys2Proof.Machine

namespace Sys2Proof.Machine

/-! ## Commands right after reset (70_reset_and_hazards.md R280, R283)

The statement accepts any word, a NOP's among them, so the state that the form runs in need not meet `State.Inv`; that
nothing of the output is stored yet, which acceptance sees to, is all that a completion needs of it. -/

/-- A completion with an output that fits ends as `EndsOk` says when nothing was stored before. -/
theorem completeOk_endsOk {s : State} (hz : s.outBuf = Memory.zeroed) (d : Bool) {out : Bytes}
    (hl : out.length ≤ outCapacity) : EndsOk s ((s.takeDraw d).completeOk out) d.toNat out := by
  refine ⟨⟨fun i _ => ?_, ?_, rfl, rfl, rfl, rfl, rfl, rfl⟩, ⟨rfl, rfl⟩,
    ⟨rfl, rfl, rfl, rfl, rfl, rfl, rfl, fun _ => rfl, rfl, rfl, rfl, rfl⟩⟩
  · rw [State.outByte, completeOk_outBuf, takeDraw_outBuf, hz, read_writeBytes, zeroed_read, List.getD_eq_getElem?_getD]
    split
    · next h => rw [List.getElem?_eq_getElem h, Option.getD_some]
    · next h => rw [List.getElem?_eq_none (Nat.not_lt.1 h), Option.getD_none]
  · have hm := maxLen_range
    unfold outCapacity at hl
    rw [completeOk_outLen, BitVec.toNat_ofNat]
    omega

/-- What a command can see of the registers right after reset, at power-on or by the reset input. -/
structure AtReset (r : State) : Prop where
  idle : r.phase = .idle
  status : r.status = Status.reset
  keyLen : r.keyLen = 0
  inLen : r.inLen = 0

theorem atReset_of_reset {r : State} (h : r = State.reset ∨ ∃ s : State, r = s.hardReset) : AtReset r := by
  rcases h with rfl | ⟨s, rfl⟩
  · exact ⟨rfl, rfl, rfl, rfl⟩
  · exact ⟨rfl, rfl, rfl, rfl⟩

section
variable {r : State}

/-- The input right after reset is empty. -/
theorem AtReset.data (h : AtReset r) : r.snapshot.data = [] := by
  simp [State.snapshot, Memory.readBytes, h.inLen]

theorem AtReset.fits (h : AtReset r) : r.snapshot.inLen.toNat ≤ Config.maxLen := by
  simp [State.snapshot, h.inLen]

theorem AtReset.snapshot_keyLen (h : AtReset r) : r.snapshot.keyLen ≠ 16 := by
  simp [State.snapshot, h.keyLen]

/-- The block takes commands at once: it is IDLE and not FATAL. -/
theorem AtReset.hostWrite (h : AtReset r) {w : Word} (hw : fieldOpc w ≠ 0) {a : Offset} (ha : a.toNat < 4) :
    r.hostWrite .four a w = .next (r.accept w) := by
  have hb : r.busy = false := by rw [State.busy, h.idle, Phase.isBusy]
  rw [hostWrite_command hb ha, request_eq, h.status, resetStatus_fatal, if_neg (by simp [hw])]

/-- An ENC or DEC finds no key of length 16. -/
theorem AtReset.exec_cipher (h : AtReset r) {i : Instr} {xport ivs : Bool}
    (hi : cipherFields i = some (0, xport, ivs)) (w : Word) :
    ∃ t, exec i (r.accept w) = .next t ∧ EndsErr (r.accept w) t 0 .invalidKey := by
  rw [exec_eq_runCommand (ne_nop_of_cipherFields hi)]
  exact runCommand_endsErr (accept_phase r w)
    (arm_of_construct_error hi (construct_of_keyLen h.fits h.snapshot_keyLen))

/-- PAD appends a whole block to the empty input. -/
theorem AtReset.exec_pad (h : AtReset r) (mode alg : Nat) (xport ivs : Bool) (w : Word) :
    ∃ t, exec (.pad mode alg xport ivs) (r.accept w) = .next t ∧
      EndsOk (r.accept w) t 0 (List.replicate 16 0x10) := by
  have hresult : padResult (r.accept w).env r.snapshot = .ok (List.replicate 16 0x10) := by
    rw [padResult, checkLength_ok h.fits, h.data]
    rfl
  rw [exec_eq_runCommand (i := .pad mode alg xport ivs) nofun, runCommand_busy (accept_phase r w), armResult, hresult]
  exact ⟨_, rfl, completeOk_endsOk (accept_outBuf r w) false (Nat.le_add_left_of_le (by decide))⟩

/-- UNPAD finds no padding in the empty input. -/
theorem AtReset.exec_unpad (h : AtReset r) (mode alg : Nat) (xport ivs : Bool) (w : Word) :
    ∃ t, exec (.unpad mode alg xport ivs) (r.accept w) = .next t ∧ EndsErr (r.accept w) t 0 .paddingError := by
  have hresult : unpadResult (r.accept w).env r.snapshot = .error .paddingError := by
    rw [unpadResult, checkLength_ok h.fits, h.data]
    rfl
  rw [exec_eq_runCommand (i := .unpad mode alg xport ivs) nofun]
  exact runCommand_endsErr (accept_phase r w) ⟨rfl, hresult⟩

end

/-- Settles O58: what a command can see is the same after either reset: IDLE, no flag, no key length, no input. -/
theorem commandsRightAfterResetRunOnResetValues : Obligations.CommandsRightAfterResetRunOnResetValues := by
  intro r hr
  have h := atReset_of_reset hr
  exact ⟨h.idle, fun w a hw ha => h.hostWrite hw ha, fun i xport ivs w hi => h.exec_cipher hi w,
    fun mode alg xport ivs w => h.exec_pad mode alg xport ivs w,
    fun mode alg xport ivs w => h.exec_unpad mode alg xport ivs w⟩

end Sys2Proof.Machine
